-- ==== Sys2Proof/Word.lean ====
section
/-! DEFINITION. The two word types of the E64 engine (spec/00_scope.md, Notation). -/

namespace Sys2Proof

/-- `u8`: a byte of memory, an opcode byte, a register-index byte, an 8-bit immediate. -/
abbrev Byte := BitVec 8

/-- `u64` and `s64`: the 64 bits of a register, of the pc, of `CW`, of a stack word, of an address or a port
number. `as_u64` and `as_s64` are `BitVec.toNat` and `BitVec.toInt` of the same bits (spec GK1; log 23). -/
abbrev Word := BitVec 64

end Sys2Proof
end

