-- ==== Sys2Proof/Syntax.lean ====
section
/-! DEFINITION. The 26 instructions of SPEC-1 (spec/30_encoding.md R65), one constructor per row of
spec/opcode_table.json, operands in encoding order (R60). -/

namespace Sys2Proof

/-- An instruction with its operand fields as they stand in the instruction stream. A register-index byte and a
flag index are kept as the raw unsigned byte (R67): whether they are in range is decided when the instruction
executes (R12, R18), since that failure is a fatal condition with its own cause and no decode error. -/
inductive Instr where
  /-- `HALT`, R115 -/
  | halt
  /-- `RESET`, R116 -/
  | reset
  /-- `NCALL`, R121 -/
  | ncall
  /-- `MOV_R_64 ra, imm64`, R90 -/
  | movR64 (ra : Byte) (imm : Word)
  /-- `MOV_R_R ra, rb`, R91 -/
  | movRR (ra rb : Byte)
  /-- `LD8_R_R ra, rb`, R96 -/
  | ld8RR (ra rb : Byte)
  /-- `LD32_R_R ra, rb`, R97 -/
  | ld32RR (ra rb : Byte)
  /-- `ADD_R_R ra, rb`, R92 -/
  | addRR (ra rb : Byte)
  /-- `ADD_R_64 ra, imm64`, R93 -/
  | addR64 (ra : Byte) (imm : Word)
  /-- `SUB_R_R ra, rb`, R94 -/
  | subRR (ra rb : Byte)
  /-- `SUB_R_64 ra, imm64`, R95 -/
  | subR64 (ra : Byte) (imm : Word)
  /-- `CMP_R_R ra, rb`, R80 -/
  | cmpRR (ra rb : Byte)
  /-- `JMP_64 imm64`, R81 -/
  | jmp64 (target : Word)
  /-- `JE_64 imm64`, R82 -/
  | je64 (target : Word)
  /-- `JL_64 imm64`, R83 -/
  | jl64 (target : Word)
  /-- `JG_64 imm64`, R84 -/
  | jg64 (target : Word)
  /-- `CALL_64 imm64`, R85 -/
  | call64 (target : Word)
  /-- `RET`, R86 -/
  | ret
  /-- `PUSH_64 imm64`, R100 -/
  | push64 (imm : Word)
  /-- `POP_R ra`, R101 -/
  | popR (ra : Byte)
  /-- `OUT_R_R ra, rb`, R110 -/
  | outRR (ra rb : Byte)
  /-- `IN_R_R ra, rb`, R111 -/
  | inRR (ra rb : Byte)
  /-- `INT_8 imm8`, R117 -/
  | int8 (n : Byte)
  /-- `SETINT_8_64 imm8, imm64`, R118 -/
  | setint8_64 (n : Byte) (target : Word)
  /-- `SETF_8 imm8`, R119 -/
  | setf8 (k : Byte)
  /-- `CLRF_8 imm8`, R120 -/
  | clrf8 (k : Byte)
  deriving DecidableEq, Repr

end Sys2Proof
end

