-- ==== Sys2Proof/WellFormed.lean ====
section
/-! DEFINITION. Which operand fields are legal (spec/30_encoding.md R66: "Inside a valid instruction the only
illegal field values are a register-index byte `>= NREG` and a flag index `> 4`; every `imm64` value is legal"). -/

namespace Sys2Proof

/-- The range check of R12 on a register-index byte. -/
def regOk (nreg : Nat) (b : Byte) : Bool := decide (b.toNat < nreg)

/-- The range check of R18 on a flag index. -/
def flagOk (k : Byte) : Bool := decide (k.toNat ≤ 4)

/-- No operand field of the instruction is out of range on an engine with `nreg` general registers. An ill-formed
instruction still decodes; executing it raises the index fault of R12 or R18. -/
def Instr.wf (nreg : Nat) : Instr → Bool
  | .halt => true
  | .reset => true
  | .ncall => true
  | .movR64 ra _ => regOk nreg ra
  | .movRR ra rb => regOk nreg ra && regOk nreg rb
  | .ld8RR ra rb => regOk nreg ra && regOk nreg rb
  | .ld32RR ra rb => regOk nreg ra && regOk nreg rb
  | .addRR ra rb => regOk nreg ra && regOk nreg rb
  | .addR64 ra _ => regOk nreg ra
  | .subRR ra rb => regOk nreg ra && regOk nreg rb
  | .subR64 ra _ => regOk nreg ra
  | .cmpRR ra rb => regOk nreg ra && regOk nreg rb
  | .jmp64 _ => true
  | .je64 _ => true
  | .jl64 _ => true
  | .jg64 _ => true
  | .call64 _ => true
  | .ret => true
  | .push64 _ => true
  | .popR ra => regOk nreg ra
  | .outRR ra rb => regOk nreg ra && regOk nreg rb
  | .inRR ra rb => regOk nreg ra && regOk nreg rb
  | .int8 _ => true
  | .setint8_64 _ _ => true
  | .setf8 k => flagOk k
  | .clrf8 k => flagOk k

end Sys2Proof
end

