-- ==== Sys2Proof/Decode.lean ====
section
/-! DEFINITION. Byte order, the opcode table SPEC-1, the decoder and, after it, the encoder
(spec/30_encoding.md R60, R62-R68, R71; spec/20_memory.md R43). -/

namespace Sys2Proof

/-! ### Byte order (R41, R43) -/

/-- The unsigned value of bytes in address order, the lowest address least significant (R41). -/
def leValue : List Byte → Nat
  | [] => 0
  | b :: bs => b.toNat + 256 * leValue bs

/-- The low `n` bytes of a value, the least significant first (R42, R43). -/
def leBytes : Nat → Nat → List Byte
  | 0, _ => []
  | n + 1, v => BitVec.ofNat 8 v :: leBytes n (v / 256)

/-! ### The opcode table (R60, R65) -/

/-- The seven instruction formats of R60. -/
inductive Format where
  | f0
  | fr
  | f8
  | frr
  | f64
  | fr64
  | f8_64
  deriving DecidableEq, Repr

/-- The sizes in bytes of a format's operand items, in encoding order; each item is one `Fetch` (R60, R62). -/
def Format.items : Format → List Nat
  | .f0 => []
  | .fr => [1]
  | .f8 => [1]
  | .frr => [1, 1]
  | .f64 => [8]
  | .fr64 => [1, 8]
  | .f8_64 => [1, 8]

/-- The length of an instruction of a format, opcode byte included (R68). -/
def Format.length (f : Format) : Nat := 1 + f.items.sum

/-- One row of the table of R65. -/
structure OpRow where
  opcode : Byte
  mnemonic : String
  format : Format
  privileged : Bool
  deriving DecidableEq, Repr

/-- SPEC-1, R65; the column `privileged` is `PRIV_SET` of R191 (log 11). -/
def opcodeTable : List OpRow :=
  [ ⟨0x01, "HALT", .f0, false⟩, ⟨0x02, "RESET", .f0, true⟩, ⟨0x03, "NCALL", .f0, false⟩,
    ⟨0x10, "MOV_R_64", .fr64, false⟩, ⟨0x11, "MOV_R_R", .frr, false⟩, ⟨0x12, "LD8_R_R", .frr, false⟩,
    ⟨0x13, "LD32_R_R", .frr, false⟩, ⟨0x20, "ADD_R_R", .frr, false⟩, ⟨0x21, "ADD_R_64", .fr64, false⟩,
    ⟨0x22, "SUB_R_R", .frr, false⟩, ⟨0x23, "SUB_R_64", .fr64, false⟩, ⟨0x24, "CMP_R_R", .frr, false⟩ ] ++
  [ ⟨0x30, "JMP_64", .f64, false⟩, ⟨0x31, "JE_64", .f64, false⟩, ⟨0x32, "JL_64", .f64, false⟩,
    ⟨0x33, "JG_64", .f64, false⟩, ⟨0x34, "CALL_64", .f64, false⟩, ⟨0x35, "RET", .f0, false⟩,
    ⟨0x40, "PUSH_64", .f64, false⟩, ⟨0x41, "POP_R", .fr, false⟩, ⟨0x50, "OUT_R_R", .frr, true⟩,
    ⟨0x51, "IN_R_R", .frr, true⟩, ⟨0x60, "INT_8", .f8, false⟩, ⟨0x61, "SETINT_8_64", .f8_64, true⟩,
    ⟨0x62, "SETF_8", .f8, true⟩, ⟨0x63, "CLRF_8", .f8, true⟩ ]

/-- The row an opcode byte selects; `none` for the 230 unassigned bytes (R66, R71). -/
def rowOf (op : Byte) : Option OpRow := opcodeTable.find? (fun r => r.opcode == op)

/-- The opcode byte of a mnemonic, exact and case-sensitive (R141, D28). -/
def opcodeOfMnemonic (name : List Char) : Option Byte :=
  (opcodeTable.find? (fun r => r.mnemonic.toList == name)).map (·.opcode)

/-! ### Decoding (R60, R63, R66-R68, R71) -/

/-- Why bytes are no instruction. -/
inductive DecodeError where
  /-- The opcode byte is not in SPEC-1 (R66). -/
  | invalidOpcode (op : Byte)
  /-- The bytes end before the instruction does (R45). -/
  | truncated
  deriving DecidableEq, Repr

/-- What decoding answers: the instruction and the bytes after it. -/
abbrev Decoded := Except DecodeError (Instr × List Byte)

/-- One operand byte: `ra` of format `FR`, `imm8` of format `F8`. -/
def decodeByte (f : Byte → Instr) : List Byte → Decoded
  | b :: rest => .ok (f b, rest)
  | [] => .error .truncated

/-- Two register-index bytes: format `FRR`. -/
def decodeRegReg (f : Byte → Byte → Instr) : List Byte → Decoded
  | a :: b :: rest => .ok (f a b, rest)
  | _ => .error .truncated

/-- Eight bytes, least significant first: format `F64`. -/
def decodeImm64 (f : Word → Instr) (bs : List Byte) : Decoded :=
  if bs.length < 8 then .error .truncated
  else .ok (f (BitVec.ofNat 64 (leValue (bs.take 8))), bs.drop 8)

/-- One byte and then eight: formats `FR64` and `F8_64`. -/
def decodeByteImm64 (f : Byte → Word → Instr) : List Byte → Decoded
  | b :: bs => decodeImm64 (f b) bs
  | [] => .error .truncated

/-- The decoder: total on any bytes, reading the opcode byte and then the operand bytes it fixes. -/
def decode : List Byte → Decoded
  | [] => .error .truncated
  | op :: bs =>
    match op.toNat with
    | 0x01 => .ok (.halt, bs)
    | 0x02 => .ok (.reset, bs)
    | 0x03 => .ok (.ncall, bs)
    | 0x10 => decodeByteImm64 .movR64 bs
    | 0x11 => decodeRegReg .movRR bs
    | 0x12 => decodeRegReg .ld8RR bs
    | 0x13 => decodeRegReg .ld32RR bs
    | 0x20 => decodeRegReg .addRR bs
    | 0x21 => decodeByteImm64 .addR64 bs
    | 0x22 => decodeRegReg .subRR bs
    | 0x23 => decodeByteImm64 .subR64 bs
    | 0x24 => decodeRegReg .cmpRR bs
    | 0x30 => decodeImm64 .jmp64 bs
    | 0x31 => decodeImm64 .je64 bs
    | 0x32 => decodeImm64 .jl64 bs
    | 0x33 => decodeImm64 .jg64 bs
    | 0x34 => decodeImm64 .call64 bs
    | 0x35 => .ok (.ret, bs)
    | 0x40 => decodeImm64 .push64 bs
    | 0x41 => decodeByte .popR bs
    | 0x50 => decodeRegReg .outRR bs
    | 0x51 => decodeRegReg .inRR bs
    | 0x60 => decodeByte .int8 bs
    | 0x61 => decodeByteImm64 .setint8_64 bs
    | 0x62 => decodeByte .setf8 bs
    | 0x63 => decodeByte .clrf8 bs
    | _ => .error (.invalidOpcode op)

/-- The longest instruction, in bytes (R60). -/
def maxInstrLength : Nat := 10

/-- The bytes of an instruction whose bits are `w`, numbered as spec/opcode_table.json numbers them: byte `k` is
bits `8k+7..8k`; the bits from `nbits` up are 0. -/
def tableBytes (nbits w : Nat) : List Byte := leBytes maxInstrLength (w % 2 ^ nbits)

/-- The instruction the decoder reads from a table word. -/
def decodeTableWord (nbits w : Nat) : Option Instr :=
  match decode (tableBytes nbits w) with
  | .ok (i, _) => some i
  | .error _ => none

/-! ### Encoding -/

/-- The opcode byte of an instruction (R65). -/
def Instr.opcode : Instr → Byte
  | .halt => 0x01
  | .reset => 0x02
  | .ncall => 0x03
  | .movR64 _ _ => 0x10
  | .movRR _ _ => 0x11
  | .ld8RR _ _ => 0x12
  | .ld32RR _ _ => 0x13
  | .addRR _ _ => 0x20
  | .addR64 _ _ => 0x21
  | .subRR _ _ => 0x22
  | .subR64 _ _ => 0x23
  | .cmpRR _ _ => 0x24
  | .jmp64 _ => 0x30
  | .je64 _ => 0x31
  | .jl64 _ => 0x32
  | .jg64 _ => 0x33
  | .call64 _ => 0x34
  | .ret => 0x35
  | .push64 _ => 0x40
  | .popR _ => 0x41
  | .outRR _ _ => 0x50
  | .inRR _ _ => 0x51
  | .int8 _ => 0x60
  | .setint8_64 _ _ => 0x61
  | .setf8 _ => 0x62
  | .clrf8 _ => 0x63

/-- The eight bytes of an `imm64`. -/
def imm64Bytes (v : Word) : List Byte := leBytes 8 v.toNat

/-- The operand bytes of an instruction, in encoding order (R60). -/
def Instr.operandBytes : Instr → List Byte
  | .halt => []
  | .reset => []
  | .ncall => []
  | .movR64 ra v => ra :: imm64Bytes v
  | .movRR ra rb => [ra, rb]
  | .ld8RR ra rb => [ra, rb]
  | .ld32RR ra rb => [ra, rb]
  | .addRR ra rb => [ra, rb]
  | .addR64 ra v => ra :: imm64Bytes v
  | .subRR ra rb => [ra, rb]
  | .subR64 ra v => ra :: imm64Bytes v
  | .cmpRR ra rb => [ra, rb]
  | .jmp64 t => imm64Bytes t
  | .je64 t => imm64Bytes t
  | .jl64 t => imm64Bytes t
  | .jg64 t => imm64Bytes t
  | .call64 t => imm64Bytes t
  | .ret => []
  | .push64 v => imm64Bytes v
  | .popR ra => [ra]
  | .outRR ra rb => [ra, rb]
  | .inRR ra rb => [ra, rb]
  | .int8 n => [n]
  | .setint8_64 n t => n :: imm64Bytes t
  | .setf8 k => [k]
  | .clrf8 k => [k]

/-- The bytes of an instruction, the opcode byte first. -/
def encode (i : Instr) : List Byte := i.opcode :: i.operandBytes

/-- The length of an instruction in bytes (R68). -/
def Instr.length (i : Instr) : Nat := (encode i).length

/-- Whether the instruction is in `PRIV_SET` (R191), as its row in the table says. -/
def Instr.isPrivileged (i : Instr) : Bool := ((rowOf i.opcode).map (·.privileged)).getD false

end Sys2Proof
end

