-- ==== Sys2Proof/Config.lean ====
section
/-! DEFINITION. The parameters of the machine (spec/00_scope.md R3) and the free values, which the spec leaves to
the environment or does not state. -/

namespace Sys2Proof

/-- The parameters of R3 that the step reads. They are fixed for the life of an engine; a state carries them in its
field `cfg`, which no step changes, so that one `exec` is the meaning for every choice (DESIGN CHOICE, safe, log 1).
`NREG` is the length of the register file. -/
structure Config where
  /-- `MEM_SIZE`: bytes of memory (R40, D19). -/
  memSize : Nat
  /-- `STACK_MAX`: stack capacity in words, `none` for unbounded (R19, D5). -/
  stackMax : Option Nat
  /-- `CW_RESET`: the control word after Reset (R29, D8). -/
  cwReset : Word
  /-- `MEM_FRONT`: whether the host put a get/set pair in front of memory (R44, D19). -/
  memFront : Bool
  deriving DecidableEq, Repr

/-- The limits R3, R16 and D19 set: `MEM_SIZE` is at most 2^64, and `CW_RESET` is 0 in `EQ`, `LT`, `GT` and in the
reserved bits 63:5. -/
abbrev Config.wf (c : Config) : Prop :=
  c.memSize ≤ 2 ^ 64 ∧ c.cwReset &&& 0xFFFFFFFFFFFFFFEE#64 = 0#64

/-- The decided defaults of R3; `MEM_SIZE` has none and takes the test vectors' 65536 (DESIGN CHOICE, unsafe,
log 2). -/
def Config.default : Config :=
  { memSize := 65536, stackMax := none, cwReset := 0x11#64, memFront := false }

/-- FREE VALUE (log 5): the `n`-th answer of the environment, to a port read (R180: "under no law") or, in its low
8 bits, to a `Get` of the memory front (R44). It has no body that a proof could use. -/
opaque Config.envAnswer : Nat → Word

/-- FREE VALUE (log 22): what a float literal too large for its format assembles to, as a bit pattern, or `none`
for the unparsable-literal failure. Arguments: the exponent width of the format and the sign. R138 does not say. -/
opaque Config.floatOverflow : Nat → Bool → Option Nat

/-- FREE VALUE (log 22): whether a float literal with a minus sign whose nearest representable number is 0 keeps
the sign bit. R138 does not say. -/
opaque Config.negativeZeroSign : Bool

/-- FREE VALUE (log 25): the 4-byte length prefix of a text of `2^32` bytes or more. R139 and R145 do not say. -/
opaque Config.longTextLength : Nat → Nat

/-- FREE VALUE (log 25): what an address-of writes for a label at offset `2^64` or beyond. R148 does not say. -/
opaque Config.farAddress : Nat → Nat

end Sys2Proof
end

