-- ==== Sys2Proof/Machine/State.lean ====
section
/-! DEFINITION. The state of the E64 engine and of the host objects it reads (spec/10_state.md, spec/20_memory.md,
spec/60_exceptions.md), the reasons a step can stop, and the state right after reset (R29). -/

namespace Sys2Proof.Machine

/-- A fatal condition `(cause, pc0, info)` (R160-R162). Every one is precise and terminal: the engine state is the one
at `pc0`, and no further micro-step is taken. A step that raises one stops here, as R161 asks ("A model treats
`FAULT != none` as a fault outcome"); the host's calls latch it in the state (log 9). All of them are the spec's own
stops, so stopping is safe: the hardware stops too. -/
inductive Fault where
  /-- Code 1, every micro-step: the opcode byte is not in SPEC-1 (R66). Safe: the hardware stops. -/
  | invalidOpcode (pc0 : Word) (op : Byte)
  /-- Code 2, the opcodes of `PRIV_SET` with `P = 0` (R64, R191). Safe: the hardware stops. -/
  | privilegeViolation (pc0 : Word) (op : Byte)
  /-- Code 3, every instruction with an `ra` or `rb` field: the byte is `>= NREG` (R12). Safe: the hardware stops. -/
  | registerIndexOutOfRange (pc0 : Word) (index : Byte)
  /-- Code 4, `SETF_8` and `CLRF_8`: the index is `> 4` (R18). Safe: the hardware stops. -/
  | flagIndexOutOfRange (pc0 : Word) (index : Byte)
  /-- Code 5, raised by nothing: every `u64` is a port number (R112, R162, C4). Safe: unreachable. -/
  | portIndexOutOfRange (pc0 : Word) (port : Word)
  /-- Code 6, the host's `Interrupt(n)` with `n > 255` (R170). Safe: the hardware stops. -/
  | interruptIndexOutOfRange (pc0 : Word) (n : Nat)
  /-- Code 7, every micro-step (fetch), `LD8_R_R`, `LD32_R_R`, and the host's reads and writes: `addr + n > MEM_SIZE`
  (R41, R42, R45). Safe: the hardware stops. -/
  | memoryOutOfRange (pc0 : Word) (addr : Nat)
  /-- Code 8, `RET` and `POP_R` on an empty stack, and the stack block's other operations (R21, R22). Safe: the
  hardware stops (D6 errs toward unprovable). -/
  | stackUnderflow (pc0 : Word) (offset : Nat)
  /-- Code 9, `CALL_64`, `PUSH_64`, `INT_8`, the host's `Interrupt(n)`: `|STK| = STACK_MAX` (R20). Safe: the hardware
  stops. -/
  | stackOverflow (pc0 : Word) (count : Nat)
  /-- Code 10, `RET` with `CD = 0` (R23, R86). Safe: the hardware stops. -/
  | callDepthUnderflow (pc0 : Word)
  /-- Code 11, `CALL_64`, `INT_8`, the host's `Interrupt(n)`: `CD = 2^64 - 1` (R23). Safe: the hardware stops. -/
  | callDepthOverflow (pc0 : Word) (cd : Word)
  /-- Code 12, `NCALL` (R121, D22). Safe: the native call is excluded from the core. -/
  | nativeCallUnsupported (pc0 : Word)
  deriving DecidableEq, Repr

/-- Why an instruction has no meaning in this model. -/
inductive Refusal where
  /-- Raised by an arm of `exec` whose instruction has no meaning yet; there is none. Safe: the model stops. -/
  | notModelled (mnemonic : String)
  deriving DecidableEq, Repr

/-- One interrupt dispatch in progress (R26). -/
structure DispatchFrame where
  /-- `savedP`: `P` just before the dispatch. -/
  savedP : Bool
  /-- `rec`: `CD` "recorded just before dispatch". -/
  recDepth : Word
  deriving DecidableEq, Repr

/-- What a call of the host gives back (R64, R175): the opcode byte executed, `NONE` while halted, the fatal
condition, nothing (a completed `Interrupt`), or the value of a read (R185). -/
inductive CallResult where
  | executed (op : Byte)
  | idle
  | fault (f : Fault)
  | unit
  | value (v : Nat)
  deriving DecidableEq, Repr

/-- The observable trace's entries (R183); the accesses of a memory front are recorded too (R44, R47; log 6). -/
inductive Event where
  /-- `PORTS[port](data, isRead = false)` was called (R110). -/
  | portWrite (port data : Word)
  /-- `PORTS[port](0, isRead = true)` was called and answered (R111). -/
  | portRead (port answer : Word)
  /-- The observer hook was called (R170, R181). -/
  | hook (n : Nat)
  /-- A host step returned (R183). -/
  | stepResult (r : CallResult)
  /-- The front's `Get(addr)` was called and answered (R44). -/
  | frontGet (addr : Nat) (answer : Byte)
  /-- The front's `Set(addr, byte)` was called (R42, R44). -/
  | frontSet (addr : Nat) (byte : Byte)
  deriving DecidableEq, Repr

/-- Memory contents: the bytes that differ from what an unlisted address reads as, addresses strictly rising
(`Memory.wf`). -/
abbrev Memory := List Host.Cell

/-- The state of the machine. The engine owns the fields down to `fault`; the host owns `mem`, `ports` and `hook`;
`events`, `env` and `envCount` are the model's own (the trace, and the environment's answers). -/
structure State where
  /-- The parameters of R3 (log 1); no step changes them. -/
  cfg : Config
  /-- `x[0] .. x[NREG-1]` (R10); `NREG` is the length. -/
  regs : List Word
  /-- The program counter (R13). -/
  pc : Word
  /-- The control word: `P`, `EQ`, `LT`, `GT`, `IE` in bits 0 to 4, bits 63:5 reserved (R16). -/
  cw : Word
  /-- The call depth `CD` (R23). -/
  cd : Word
  /-- The stack, top last (R19). -/
  stk : List Word
  /-- The interrupt vector table (R24), numbers strictly rising. -/
  ivt : List (Nat × Word)
  /-- `HALTED` (R25). -/
  halted : Bool
  /-- The dispatch frames, innermost last (R26). -/
  df : List DispatchFrame
  /-- The fault latch `FAULT` (R27). -/
  fault : Option Fault
  /-- Memory (R40). -/
  mem : Memory
  /-- The registered port numbers (R180), strictly rising. -/
  ports : List Word
  /-- Whether the host supplied the observer hook (R181). -/
  hook : Bool
  /-- The observable trace, oldest first (R183). -/
  events : List Event
  /-- Answers the environment has ready, next first; when there is none, the free value `Config.envAnswer` answers
  (log 5). -/
  env : List Word
  /-- How many answers the environment has given (log 5). -/
  envCount : Nat
  deriving DecidableEq, Repr

/-- The engine as constructed with the default parameters (R29, R203, D8): 16 registers. `MEM_SIZE`, the memory
contents, the port table and the hook are the host's; their values here are DESIGN CHOICES (log 2, 3). -/
def State.reset : State :=
  { cfg := Config.default
    regs := List.replicate 16 0#64
    pc := 0#64
    cw := Config.default.cwReset
    cd := 0#64
    stk := []
    ivt := []
    halted := false
    df := []
    fault := none
    mem := []
    ports := []
    hook := true
    events := []
    env := []
    envCount := 0 }

end Sys2Proof.Machine
end

