-- ==== Sys2Proof/Machine/Flags.lean ====
section
/-! DEFINITION. The control word's flags (spec/10_state.md R16-R18) and the one flag computation of the machine,
Compare (spec/40_control_flow.md R80). -/

namespace Sys2Proof.Machine

/-- `P`, Privileged: bit 0 (R16). -/
def bitP : Nat := 0
/-- `EQ`, Equal: bit 1. -/
def bitEQ : Nat := 1
/-- `LT`, Lesser: bit 2. -/
def bitLT : Nat := 2
/-- `GT`, Greater: bit 3. -/
def bitGT : Nat := 3
/-- `IE`, InterruptsEnabled: bit 4. -/
def bitIE : Nat := 4

/-- `CW[k] <- b`: "get = bit test, set = bit set/clear" (R16). -/
def setBit (cw : Word) (k : Nat) (b : Bool) : Word :=
  if b then cw ||| (1#64 <<< k) else cw &&& ~~~(1#64 <<< k)

/-- `CW[k]`. -/
def State.flag (s : State) (k : Nat) : Bool := s.cw.getLsbD k

/-- `CW[k] <- b`. -/
def State.setFlag (s : State) (k : Nat) (b : Bool) : State := { s with cw := setBit s.cw k b }

/-- Privileged mode (R18, R190). -/
def State.privileged (s : State) : Bool := s.flag bitP

/-- The gate of the interrupt operation (R18, R170). -/
def State.interruptsEnabled (s : State) : Bool := s.flag bitIE

/-- Compare (R17, R80): `EQ`, `LT` and `GT` from two registers "compared as exact integers", signed; the other bits
stay. -/
def compareFlags (cw a b : Word) : Word :=
  setBit (setBit (setBit cw bitEQ (decide (a.toInt = b.toInt))) bitLT (decide (a.toInt < b.toInt)))
    bitGT (decide (b.toInt < a.toInt))

end Sys2Proof.Machine
end

