-- ==== Sys2Proof/Machine/Memory.lean ====
section
/-! DEFINITION. Finite maps in canonical form: memory contents and the interrupt vector table. -/

namespace Sys2Proof.Machine

/-- The value of a key, by its first entry. -/
def mapLookup {α : Type} (k : Nat) : List (Nat × α) → Option α
  | [] => none
  | (a, v) :: rest => if a = k then some v else mapLookup k rest

/-- Give a key a value, keeping rising keys rising; an older entry of the key is replaced. -/
def mapInsert {α : Type} (k : Nat) (v : α) : List (Nat × α) → List (Nat × α)
  | [] => [(k, v)]
  | (a, w) :: rest =>
    if k < a then (k, v) :: (a, w) :: rest
    else if a = k then (k, v) :: rest
    else (a, w) :: mapInsert k v rest

/-- Forget a key. -/
def mapErase {α : Type} (k : Nat) (m : List (Nat × α)) : List (Nat × α) :=
  m.filter (fun c => c.1 != k)

/-- The keys are strictly rising. -/
abbrev mapRising {α : Type} (m : List (Nat × α)) : Prop :=
  (m.map Prod.fst).Pairwise (· < ·)

/-- What an address that memory does not list reads as: 0 (DESIGN CHOICE, unsafe, log 2; the test vectors' memory is
"zero-filled", D19). -/
def unlistedByte : Byte := 0#8

/-- `byte(a)` of R41: the stored byte at `a`. -/
def Memory.read (m : Memory) (a : Nat) : Byte := (mapLookup a m).getD unlistedByte

/-- `byte(a) <- b` of R42, in canonical form. -/
def Memory.write (m : Memory) (a : Nat) (b : Byte) : Memory :=
  if b = unlistedByte then mapErase a m else mapInsert a b m

/-- The bytes `bs` at the addresses from `a` up. -/
def Memory.writeBytes (m : Memory) (a : Nat) : List Byte → Memory
  | [] => m
  | b :: bs => Memory.writeBytes (m.write a b) (a + 1) bs

/-- The canonical form: rising addresses, and no entry equal to what an unlisted address reads as. -/
abbrev Memory.wf (m : Memory) : Prop :=
  mapRising m ∧ ∀ c ∈ m, c.2 ≠ unlistedByte

/-- Put a port number into the registered set, kept rising (R180). -/
def insertPort (p : Word) : List Word → List Word
  | [] => [p]
  | q :: rest =>
    if p.toNat < q.toNat then p :: q :: rest
    else if q = p then q :: rest
    else q :: insertPort p rest

end Sys2Proof.Machine
end

