-- ==== Sys2Proof/Machine/Ops.lean ====
section
/-! DEFINITION. The named operations over registers, pc, stack, memory, ports and the trace, and the two mechanisms
of spec/60_exceptions.md: the interrupt operation with its dispatch entry (R170, R171) and, beside it, the
end-of-dispatch test that returns from one (R173). -/

namespace Sys2Proof.Machine

/-- What a meaning answers. -/
abbrev Result := Host.Outcome State Fault Refusal

/-! ### Registers and pc (R10, R13, R14) -/

/-- `NREG`. -/
def State.nreg (s : State) : Nat := s.regs.length

/-- `x[i]`. -/
def State.reg (s : State) (i : Nat) : Word := s.regs.getD i 0#64

/-- `x[i] <- v`. -/
def State.setReg (s : State) (i : Nat) (v : Word) : State := { s with regs := s.regs.set i v }

/-- `pc <- pc +_64 n` (R14, R15). -/
def State.advance (s : State) (n : Nat) : State := { s with pc := s.pc + BitVec.ofNat 64 n }

/-- `pc <- t`, a control transfer: any target, unchecked (R14, R217). -/
def State.jump (s : State) (t : Word) : State := { s with pc := t }

/-! ### The stack and the call depth (R19-R23) -/

/-- `|STK| = STACK_MAX` (R20). -/
def State.stackFull (s : State) : Bool := s.cfg.stackMax == some s.stk.length

/-- `STK <- STK ++ [w]`. -/
def State.push (s : State) (w : Word) : State := { s with stk := s.stk ++ [w] }

/-- `Push(w)` (R20), then the rest. `pc0` is the address the fault carries. -/
def withPush (pc0 w : Word) (s : State) (k : State → Result) : Result :=
  if s.stackFull then .fault (.stackOverflow pc0 s.stk.length) else k (s.push w)

/-- `Pop()` (R21), then the rest. -/
def withPop (pc0 : Word) (s : State) (k : Word → State → Result) : Result :=
  match s.stk.getLast? with
  | none => .fault (.stackUnderflow pc0 0)
  | some w => k w { s with stk := s.stk.dropLast }

/-- The largest call depth, `2^64 - 1`. -/
def maxDepth : Word := BitVec.allOnes 64

/-- `CD <- CD + 1` with its check (R23), then the rest. -/
def withDeeper (pc0 : Word) (s : State) (k : State → Result) : Result :=
  if s.cd = maxDepth then .fault (.callDepthOverflow pc0 s.cd) else k { s with cd := s.cd + 1#64 }

/-- `CD <- CD - 1` with its check (R23), then the rest. -/
def withShallower (pc0 : Word) (s : State) (k : State → Result) : Result :=
  if s.cd = 0#64 then .fault (.callDepthUnderflow pc0) else k { s with cd := s.cd - 1#64 }

/-! ### The trace and the environment (R44, R180, R183) -/

/-- Append an event to the trace. -/
def State.emit (s : State) (e : Event) : State := { s with events := s.events ++ [e] }

/-- The environment's next answer: the first ready one, else the free value (log 5). -/
def State.answer (s : State) : Word :=
  match s.env with
  | w :: _ => w
  | [] => Config.envAnswer s.envCount

/-- The state once the environment has given that answer. -/
def State.answered (s : State) : State := { s with env := s.env.tail, envCount := s.envCount + 1 }

/-- The hook is called with `n`, if the host supplied one (R181). -/
def State.callHook (s : State) (n : Nat) : State := if s.hook then s.emit (.hook n) else s

/-- `PORTS[port] is registered` (R180). -/
def State.portRegistered (s : State) (port : Word) : Bool := s.ports.contains port

/-! ### Memory reads (R41, R44) -/

/-- One byte read by the engine: the stored byte, or with a front the answer of `Get(a)`, which is the low 8 bits of
the environment's answer. -/
def readByte (a : Nat) (s : State) : Byte × State :=
  if s.cfg.memFront then
    (s.answer.setWidth 8, s.answered.emit (.frontGet a (s.answer.setWidth 8)))
  else (s.mem.read a, s)

/-- `n` bytes from `a` up, in ascending address order (R44). -/
def readBytes : Nat → Nat → State → List Byte × State
  | 0, _, s => ([], s)
  | n + 1, a, s =>
    ((readByte a s).1 :: (readBytes n (a + 1) (readByte a s).2).1, (readBytes n (a + 1) (readByte a s).2).2)

/-- The bounds check of R41, in natural numbers. -/
def State.inMemory (s : State) (a n : Nat) : Bool := decide (a + n ≤ s.cfg.memSize)

/-- `MemRead(a, n)` (R41) as its bytes; the check is made before any `Get` (R44). -/
def memRead (pc0 : Word) (a n : Nat) (s : State) : Except Fault (List Byte × State) :=
  if s.inMemory a n then .ok (readBytes n a s) else .error (.memoryOutOfRange pc0 a)

/-- `MemRead(a, n)` as its bytes, then the rest. -/
def withMem (pc0 : Word) (a n : Nat) (s : State) (k : List Byte → State → Result) : Result :=
  match memRead pc0 a n s with
  | .ok (bs, s') => k bs s'
  | .error f => .fault f

/-! ### Fatal conditions (R161, R162) -/

/-- `raise Cause(info)`: the micro-step stops and nothing it wrote survives (R161). -/
def raise (f : Fault) : Result := .fault f

/-- A privileged instruction: with `P = 0` it raises `PrivilegeViolation(op)` (R64, R190). The micro-step makes this
check already before the operand fetch (R163); a meaning makes it again, so that it stands alone (log 12). -/
def whenPrivileged (op : Byte) (s : State) (r : Result) : Result :=
  if s.privileged then r else raise (.privilegeViolation s.pc op)

/-! ### Interrupts (R170-R173) -/

/-- `HALTED <- 0`. -/
def State.wake (s : State) : State := { s with halted := false }

/-- The handler registered for `n` (R24). -/
def State.handler (s : State) (n : Nat) : Option Word := mapLookup n s.ivt

/-- `DispatchEntry(n, savedP)` with `target = IVT[n]` (R171): the pc goes on the stack, `CD` counts up, the frame keeps
`P` and the old `CD`, and control goes to the handler. -/
def dispatchEntry (target : Word) (savedP : Bool) (s : State) : State :=
  { s with
    stk := s.stk ++ [s.pc]
    cd := s.cd + 1#64
    df := s.df ++ [⟨savedP, s.cd⟩]
    pc := target }

/-- `Interrupt(n)` (R170). `s.pc` is the address to resume at; `pc0` is the address a fault carries: the opcode's for
`INT_8`, the pc at the call for the host (R161). -/
def interrupt (pc0 : Word) (n : Nat) (s : State) : Result :=
  if 255 < n then raise (.interruptIndexOutOfRange pc0 n)
  else if s.interruptsEnabled then
    match s.handler n with
    | some target =>
      if s.stackFull then raise (.stackOverflow pc0 s.stk.length)
      else if s.cd = maxDepth then raise (.callDepthOverflow pc0 s.cd)
      else .next (dispatchEntry target s.privileged ((s.setFlag bitP true).callHook n))
    | none =>
      .next (((s.setFlag bitP true).callHook n).setFlag bitP s.privileged).wake
  else .next s

/-- One turn of the loop of R173 for the frame `f`: the frame goes, `P` is restored, `HALTED` is cleared. -/
def endFrame (f : DispatchFrame) (s : State) : State :=
  { s with cw := setBit s.cw bitP f.savedP, df := s.df.dropLast, halted := false }

/-- At most `n` turns of the loop of R173. -/
def endDispatches : Nat → State → State
  | 0, s => s
  | n + 1, s =>
    match s.df.getLast? with
    | some f => if s.cd = f.recDepth then endDispatches n (endFrame f s) else s
    | none => s

/-- `EndOfDispatchTest()` (R173): while the innermost frame's `rec` is `CD`, that dispatch ends. There are no more
turns than frames. -/
def endOfDispatchTest (s : State) : State := endDispatches s.df.length s

/-! ### Reset (R29, R116, R200) -/

/-- What all three causes of Reset do: registers, pc, `CW`, `CD`, stack, table and `HALTED`. -/
def State.reinit (s : State) : State :=
  { s with
    regs := List.replicate s.regs.length 0#64
    pc := 0#64
    cw := s.cfg.cwReset
    cd := 0#64
    stk := []
    ivt := []
    halted := false }

end Sys2Proof.Machine
end

