-- ==== Sys2Proof/Machine/Operands.lean ====
section
/-! DEFINITION. The operand forms of SPEC-1 (spec/30_encoding.md R63, R67): register-index bytes, flag indices, 8-bit
and 64-bit immediates, and the sign-extended reads of the narrow loads. -/

namespace Sys2Proof.Machine

/-- `Reg(b)` (R12), then the rest with the register's number. -/
def withReg (b : Byte) (s : State) (k : Nat → Result) : Result :=
  if b.toNat < s.nreg then k b.toNat else raise (.registerIndexOutOfRange s.pc b)

/-- `Flag(k)` (R18), then the rest with the bit's position. -/
def withFlag (b : Byte) (s : State) (k : Nat → Result) : Result :=
  if b.toNat ≤ 4 then k b.toNat else raise (.flagIndexOutOfRange s.pc b)

/-- Two register operands, checked in encoding order (R163). -/
def withRegs (ra rb : Byte) (s : State) (k : Nat → Nat → Result) : Result :=
  withReg ra s fun a => withReg rb s fun b => k a b

/-- `sext_64(v, 8 * n)` of the little-endian value of `n` bytes (R63, R99): the signed reading of the bytes as 64
bits. -/
def sextBytes (bs : List Byte) : Word :=
  ((BitVec.ofNat (8 * bs.length) (leValue bs)).signExtend 64)

/-- An `imm8` as an interrupt number: unsigned, 0..255 (R63, R67). -/
def interruptNumber (n : Byte) : Nat := n.toNat

end Sys2Proof.Machine
end

