-- ==== Sys2Proof/Machine/Arith.lean ====
section
/-! DEFINITION. Add, subtract and compare (spec/41_arith_move.md R92-R95, R98; spec/40_control_flow.md R80). The sum
and the difference are modulo 2^64 and set no flag (R98); Compare writes `EQ`, `LT`, `GT` and no register. -/

namespace Sys2Proof.Machine

/-- `ADD_R_R ra, rb`: `x[ra] <- x[ra] + x[rb]` (R92). -/
def execAddRR (ra rb : Byte) (s : State) : Result :=
  withRegs ra rb s fun a b => .next ((s.setReg a (s.reg a + s.reg b)).advance 3)

/-- `ADD_R_64 ra, imm64`: `x[ra] <- x[ra] + imm64` (R93). -/
def execAddR64 (ra : Byte) (imm : Word) (s : State) : Result :=
  withReg ra s fun a => .next ((s.setReg a (s.reg a + imm)).advance 10)

/-- `SUB_R_R ra, rb`: `x[ra] <- x[ra] - x[rb]` (R94). -/
def execSubRR (ra rb : Byte) (s : State) : Result :=
  withRegs ra rb s fun a b => .next ((s.setReg a (s.reg a - s.reg b)).advance 3)

/-- `SUB_R_64 ra, imm64`: `x[ra] <- x[ra] - imm64` (R95). -/
def execSubR64 (ra : Byte) (imm : Word) (s : State) : Result :=
  withReg ra s fun a => .next ((s.setReg a (s.reg a - imm)).advance 10)

/-- `CMP_R_R ra, rb` (R80). -/
def execCmpRR (ra rb : Byte) (s : State) : Result :=
  withRegs ra rb s fun a b => .next ({ s with cw := compareFlags s.cw (s.reg a) (s.reg b) }.advance 3)

end Sys2Proof.Machine
end

