-- ==== Sys2Proof/Machine/Control.lean ====
section
/-! DEFINITION. Jumps, call and return (spec/40_control_flow.md R81-R86). -/

namespace Sys2Proof.Machine

/-- A jump taken when the flag at bit `k` is 1; else the next instruction (R82-R84). -/
def jumpIf (k : Nat) (target : Word) (s : State) : Result :=
  .next (if s.flag k then s.jump target else s.advance 9)

/-- `JMP_64 imm64` (R81). -/
def execJmp64 (target : Word) (s : State) : Result := .next (s.jump target)

/-- `JE_64 imm64`: taken when `EQ = 1` (R82). -/
def execJe64 (target : Word) (s : State) : Result := jumpIf bitEQ target s

/-- `JL_64 imm64`: taken when `LT = 1` (R83). -/
def execJl64 (target : Word) (s : State) : Result := jumpIf bitLT target s

/-- `JG_64 imm64`: taken when `GT = 1` (R84). -/
def execJg64 (target : Word) (s : State) : Result := jumpIf bitGT target s

/-- `CALL_64 imm64`: the address of the next instruction is pushed, `CD` counts up, control goes to the target
(R85). -/
def execCall64 (target : Word) (s : State) : Result :=
  withPush s.pc (s.pc + 9#64) s fun s1 => withDeeper s.pc s1 fun s2 => .next (s2.jump target)

/-- `RET`: the top word is the target, `CD` counts down (R86). -/
def execRet (s : State) : Result :=
  withPop s.pc s fun w s1 => withShallower s.pc s1 fun s2 => .next (s2.jump w)

end Sys2Proof.Machine
end

