-- ==== Sys2Proof/Machine/Move.lean ====
section
/-! DEFINITION. Moves and loads: `MOV_R_64`, `MOV_R_R`, `LD8_R_R`, `LD32_R_R` (spec/41_arith_move.md R90, R91, R96,
R97, R99). Every meaning takes the state at the opcode's address and accounts for the whole advance of the pc
(log 13). -/

namespace Sys2Proof.Machine

/-- `MOV_R_64 ra, imm64`: `x[ra] <- imm64` (R90). -/
def execMovR64 (ra : Byte) (imm : Word) (s : State) : Result :=
  withReg ra s fun a => .next ((s.setReg a imm).advance 10)

/-- `MOV_R_R ra, rb`: `x[ra] <- x[rb]` (R91). -/
def execMovRR (ra rb : Byte) (s : State) : Result :=
  withRegs ra rb s fun a b => .next ((s.setReg a (s.reg b)).advance 3)

/-- A narrow load of `n` bytes: register indirect, sign-extended (R99). -/
def loadSigned (n : Nat) (ra rb : Byte) (s : State) : Result :=
  withRegs ra rb s fun a b =>
    withMem s.pc (s.reg b).toNat n s fun bs s' => .next ((s'.setReg a (sextBytes bs)).advance 3)

/-- `LD8_R_R ra, rb`: `x[ra] <- sext(mem8[x[rb]])` (R96). -/
def execLd8RR (ra rb : Byte) (s : State) : Result := loadSigned 1 ra rb s

/-- `LD32_R_R ra, rb`: `x[ra] <- sext(mem32[x[rb]])` (R97). -/
def execLd32RR (ra rb : Byte) (s : State) : Result := loadSigned 4 ra rb s

end Sys2Proof.Machine
end

