-- ==== Sys2Proof/Machine/PortIo.lean ====
section
/-! DEFINITION. Port I/O (spec/43_io.md R110-R112). Port numbers and data are all 64 bits of a register; a port that
is not registered is no error. -/

namespace Sys2Proof.Machine

/-- `OUT_R_R ra, rb`: write `x[rb]` to port `x[ra]`; nothing on an unregistered port; the callback's answer is ignored
(R110). -/
def execOutRR (ra rb : Byte) (s : State) : Result :=
  whenPrivileged 0x50 s <| withRegs ra rb s fun a b =>
    if s.portRegistered (s.reg a) then
      .next ((s.emit (.portWrite (s.reg a) (s.reg b))).advance 3)
    else .next (s.advance 3)

/-- `IN_R_R ra, rb`: `x[ra] <-` the answer of port `x[rb]`, an input from the environment (R111, R180; log 5); 0 on an
unregistered port. -/
def execInRR (ra rb : Byte) (s : State) : Result :=
  whenPrivileged 0x51 s <| withRegs ra rb s fun a b =>
    if s.portRegistered (s.reg b) then
      .next (((s.answered.emit (.portRead (s.reg b) s.answer)).setReg a s.answer).advance 3)
    else .next ((s.setReg a 0#64).advance 3)

end Sys2Proof.Machine
end

