-- ==== Sys2Proof/Machine/Stack.lean ====
section
/-! DEFINITION. The stack instructions (spec/42_stack.md R100, R101) and the stack block's operations that no opcode
uses (spec/10_state.md R22). -/

namespace Sys2Proof.Machine

/-- `PUSH_64 imm64` (R100). -/
def execPush64 (imm : Word) (s : State) : Result :=
  withPush s.pc imm s fun s1 => .next (s1.advance 9)

/-- `POP_R ra` (R101). -/
def execPopR (ra : Byte) (s : State) : Result :=
  withReg ra s fun a => withPop s.pc s fun w s1 => .next ((s1.setReg a w).advance 2)

/-! ### Operations of the stack block (R22); `pc0` of a fault is the pc at the call (log 20) -/

/-- `Peek(off)`: the word `off` below the top; the stack stays. -/
def stackPeek (off : Nat) (s : State) : Except Fault Word :=
  match s.stk.reverse[off]? with
  | some w => .ok w
  | none => .error (.stackUnderflow s.pc off)

/-- `Pop(off)`: the same word, removed; the others keep their order. -/
def stackPopAt (off : Nat) (s : State) : Except Fault (Word × State) :=
  match stackPeek off s with
  | .ok w => .ok (w, { s with stk := s.stk.eraseIdx (s.stk.length - 1 - off) })
  | .error f => .error f

/-- The coercion of `Pop<T>` on a raw word: its low `n` bits, sign- or zero-extended (R22, D39). -/
def coerceWord (signed : Bool) (n : Nat) (w : Word) : Word :=
  if signed then (w.setWidth n).signExtend 64 else (w.setWidth n).setWidth 64

/-- `Pop<T>()` for an `n`-bit kind. -/
def stackPopTyped (signed : Bool) (n : Nat) (s : State) : Except Fault (Word × State) :=
  match stackPopAt 0 s with
  | .ok (w, s') => .ok (coerceWord signed n w, s')
  | .error f => .error f

/-- `SetCount(n)`: drop words from the top until `n` are left; `CD` stays. -/
def stackSetCount (n : Nat) (s : State) : Except Fault State :=
  if n ≤ s.stk.length then .ok { s with stk := s.stk.take n } else .error (.stackUnderflow s.pc n)

end Sys2Proof.Machine
end

