-- ==== Sys2Proof/Machine/System.lean ====
section
/-! DEFINITION. System instructions (spec/44_system.md R115-R121). -/

namespace Sys2Proof.Machine

/-- `HALT`: `HALTED <- 1`, the pc at the next instruction (R115). -/
def execHalt (s : State) : Result := .next ({ s with halted := true }.advance 1)

/-- `RESET`: Reset; memory, ports, hook, `DF` and `FAULT` stay (R116). -/
def execReset (s : State) : Result := whenPrivileged 0x02 s (.next s.reinit)

/-- `NCALL`: `raise NativeCallUnsupported(pc0)` (R121, D22; log 10). -/
def execNcall (s : State) : Result := raise (.nativeCallUnsupported s.pc)

/-- `INT_8 imm8`: `Interrupt(imm8)` with the pc at the next instruction (R117). -/
def execInt8 (n : Byte) (s : State) : Result := interrupt s.pc (interruptNumber n) (s.advance 2)

/-- `SETINT_8_64 imm8, imm64`: `IVT[imm8] <- imm64`, replacing an older entry (R118). -/
def execSetint8_64 (n : Byte) (target : Word) (s : State) : Result :=
  whenPrivileged 0x61 s (.next ({ s with ivt := mapInsert (interruptNumber n) target s.ivt }.advance 10))

/-- `SETF_8 imm8`: `CW[imm8] <- 1` (R119). -/
def execSetf8 (k : Byte) (s : State) : Result :=
  whenPrivileged 0x62 s <| withFlag k s fun i => .next ((s.setFlag i true).advance 2)

/-- `CLRF_8 imm8`: `CW[imm8] <- 0` (R120). -/
def execClrf8 (k : Byte) (s : State) : Result :=
  whenPrivileged 0x63 s <| withFlag k s fun i => .next ((s.setFlag i false).advance 2)

end Sys2Proof.Machine
end

