-- ==== Sys2Proof/Machine/Dispatch.lean ====
section
/-! DEFINITION. `Execute(op)` of R64: one arm per instruction, each one call of its meaning. -/

namespace Sys2Proof.Machine

/-- What an instruction does to the state at its opcode's address (R64, R71). -/
def exec (i : Instr) (s : State) : Host.Outcome State Fault Refusal :=
  match i with
  | .halt => Sys2Proof.Machine.execHalt s
  | .reset => Sys2Proof.Machine.execReset s
  | .ncall => Sys2Proof.Machine.execNcall s
  | .movR64 ra imm => Sys2Proof.Machine.execMovR64 ra imm s
  | .movRR ra rb => Sys2Proof.Machine.execMovRR ra rb s
  | .ld8RR ra rb => Sys2Proof.Machine.execLd8RR ra rb s
  | .ld32RR ra rb => Sys2Proof.Machine.execLd32RR ra rb s
  | .addRR ra rb => Sys2Proof.Machine.execAddRR ra rb s
  | .addR64 ra imm => Sys2Proof.Machine.execAddR64 ra imm s
  | .subRR ra rb => Sys2Proof.Machine.execSubRR ra rb s
  | .subR64 ra imm => Sys2Proof.Machine.execSubR64 ra imm s
  | .cmpRR ra rb => Sys2Proof.Machine.execCmpRR ra rb s
  | .jmp64 target => Sys2Proof.Machine.execJmp64 target s
  | .je64 target => Sys2Proof.Machine.execJe64 target s
  | .jl64 target => Sys2Proof.Machine.execJl64 target s
  | .jg64 target => Sys2Proof.Machine.execJg64 target s
  | .call64 target => Sys2Proof.Machine.execCall64 target s
  | .ret => Sys2Proof.Machine.execRet s
  | .push64 imm => Sys2Proof.Machine.execPush64 imm s
  | .popR ra => Sys2Proof.Machine.execPopR ra s
  | .outRR ra rb => Sys2Proof.Machine.execOutRR ra rb s
  | .inRR ra rb => Sys2Proof.Machine.execInRR ra rb s
  | .int8 n => Sys2Proof.Machine.execInt8 n s
  | .setint8_64 n target => Sys2Proof.Machine.execSetint8_64 n target s
  | .setf8 k => Sys2Proof.Machine.execSetf8 k s
  | .clrf8 k => Sys2Proof.Machine.execClrf8 k s

end Sys2Proof.Machine
end

