-- ==== Sys2Proof/Machine/MicroStep.lean ====
section
/-! DEFINITION. Fetching an instruction and one micro-step (spec/30_encoding.md R62-R64, spec/60_exceptions.md R163). -/

namespace Sys2Proof.Machine

/-! ### Fetch (R62, R63). `pc0` is the address of the opcode byte, which a fault carries -/

/-- `Fetch(n)` as its bytes: read at the pc, advance the pc by `n` (R62). -/
def fetchBytes (pc0 : Word) (n : Nat) (s : State) : Except Fault (List Byte × State) :=
  match memRead pc0 s.pc.toNat n s with
  | .ok (bs, s') => .ok (bs, s'.advance n)
  | .error f => .error f

/-- `Fetch(n)`: the unsigned little-endian value (R62). -/
def fetch (pc0 : Word) (n : Nat) (s : State) : Except Fault (Nat × State) :=
  match fetchBytes pc0 n s with
  | .ok (bs, s') => .ok (leValue bs, s')
  | .error f => .error f

/-- `FetchS(n)`: the signed reading, as 64 bits (R63). -/
def fetchS (pc0 : Word) (n : Nat) (s : State) : Except Fault (Word × State) :=
  match fetchBytes pc0 n s with
  | .ok (bs, s') => .ok (sextBytes bs, s')
  | .error f => .error f

/-- The operand items of an instruction, one `Fetch` each, in encoding order (R163 step 4). -/
def fetchItems (pc0 : Word) : List Nat → State → Except Fault (List Byte × State)
  | [], s => .ok ([], s)
  | n :: ns, s =>
    match fetchBytes pc0 n s with
    | .error f => .error f
    | .ok (bs, s1) =>
      match fetchItems pc0 ns s1 with
      | .error f => .error f
      | .ok (rest, s2) => .ok (bs ++ rest, s2)

/-- The operand fetch after the opcode byte, and the decoder's reading of all the bytes. -/
def fetchOperands (pc0 : Word) (op : Byte) (row : OpRow) (s : State) : Except Fault (Instr × State) :=
  match fetchItems pc0 row.format.items s with
  | .error f => .error f
  | .ok (bs, s') =>
    match decode (op :: bs) with
    | .ok (i, _) => .ok (i, s')
    | .error _ => .error (.invalidOpcode pc0 op)

/-- The opcode fetch, the opcode check, the privilege check and the operand fetch, in the order of R64 and R163. The
pc of the answered state is past the instruction. -/
def fetchInstr (s : State) : Except Fault (Instr × State) :=
  match fetchBytes s.pc 1 s with
  | .error f => .error f
  | .ok (bs, s1) =>
    match rowOf (bs.headD 0#8) with
    | none => .error (.invalidOpcode s.pc (bs.headD 0#8))
    | some row =>
      if row.privileged && !s.privileged then .error (.privilegeViolation s.pc row.opcode)
      else fetchOperands s.pc row.opcode row s1

/-! ### The micro-step (R64) -/

/-- After `Execute(op)`: the end-of-dispatch test, and the opcode byte as the result. -/
def finishMicroStep (op : Byte) : Result → Host.Outcome (State × CallResult) Fault Refusal
  | .next t => .next (endOfDispatchTest t, .executed op)
  | .fault f => .fault f
  | .refused r => .refused r

/-- `MicroStep()` (R64) with what it returns. A latched fault is terminal (R27); while halted nothing changes and the
result is `NONE` (D24; log 8). The meaning starts at the opcode's address (log 13). -/
def microStep (s : State) : Host.Outcome (State × CallResult) Fault Refusal :=
  match s.fault with
  | some f => .fault f
  | none =>
    if s.halted then .next (s, .idle)
    else
      match fetchInstr s with
      | .error f => .fault f
      | .ok (i, s1) => finishMicroStep i.opcode (exec i (s1.jump s.pc))

/-- The state of a micro-step without its result. -/
def dropResult : Host.Outcome (State × CallResult) Fault Refusal → Result
  | .next (t, _) => .next t
  | .fault f => .fault f
  | .refused r => .refused r

/-- The bytes `bs` put at the addresses from `a` up, as far as memory reaches. -/
def storeInMemory (a : Nat) (bs : List Byte) (s : State) : State :=
  { s with mem := s.mem.writeBytes a (bs.take (s.cfg.memSize - a)) }

/-- A state whose next micro-step runs the instruction with the given bytes: running, no fault latched, no memory
front, and the bytes at the pc (log 16). -/
def placeAtPc (bs : List Byte) (s : State) : State :=
  storeInMemory s.pc.toNat bs
    { s with fault := none, halted := false, cfg := { s.cfg with memFront := false } }

end Sys2Proof.Machine
end

