-- ==== Sys2Proof/Machine/Step.lean ====
section
/-! DEFINITION. The step of the machine: one micro-step (spec/30_encoding.md R64). -/

namespace Sys2Proof.Machine

/-- One micro-step; what it returns for tracing is in `microStep` and in the host's calls (log 27). -/
def step (s : State) : Host.Outcome State Fault Refusal := dropResult (microStep s)

/-- `s` with the instruction of a table word where the next step fetches it (log 16). -/
def State.withFetchWord (s : State) (nbits w : Nat) : State := placeAtPc (tableBytes nbits w) s

end Sys2Proof.Machine
end

