-- ==== Sys2Proof/Machine/Tokenizer.lean ====
section
/-! DEFINITION. The tokenizer (spec/49_assembler.md R130-R135). -/

namespace Sys2Proof.Machine

/-- The tokenizer's parameters (R3, D27); `:`, `&` and `"` are no symbols. -/
structure LexConfig where
  /-- The comment character (R131). -/
  comment : Char
  /-- The split-symbol set (R134). -/
  symbols : List Char
  deriving DecidableEq, Repr

/-- The decided configuration: `;` and `,` (D27). -/
def LexConfig.default : LexConfig := { comment := ';', symbols := [','] }

/-- A token: its characters. -/
abbrev Token := List Char

/-- Assembly-time failures (R149): "compilation aborts immediately — no partial output". -/
inductive AsmError where
  /-- The input ends in quote mode (R132). -/
  | malformedQuoting
  /-- No recognised suffix, a malformed body, a value out of range, or `ref` without a literal (R137, R138, R144). -/
  | unparsableLiteral (t : Token)
  /-- An address-of names no label (R148). -/
  | undefinedLabel (name : Token)
  /-- A label is defined twice (R142). -/
  | duplicateLabel (name : Token)
  deriving DecidableEq, Repr

/-- The tokenizer's mode; the characters of the pending token stand last first. -/
inductive LexMode where
  | normal (pending : List Char)
  | quote (pending : List Char)
  | comment
  deriving DecidableEq, Repr

/-- Whitespace: space, tab, carriage return, line feed (R135, GK4). -/
def isBlank (c : Char) : Bool := c == ' ' || c == '\t' || c == '\r' || c == '\n'

/-- Escape substitution in a quoted token (R133). -/
def unescape : List Char → List Char
  | [] => []
  | '\\' :: 'n' :: rest => '\n' :: unescape rest
  | '\\' :: 't' :: rest => '\t' :: unescape rest
  | c :: rest => c :: unescape rest

/-- The pending token, if any, as it ends. -/
def endToken (pending : List Char) : List Token := if pending.isEmpty then [] else [pending.reverse]

/-- A character in normal mode, with a pending token (R131, R132, R134, R135): the tokens it completes, and the mode
after it. DESIGN CHOICE (log 30): where a configured comment character or symbol is also the quote, a blank or the other
of the two, the comment is tried first, then the quote, then the symbols, then the blanks; D27 leaves the characters
open and does not say. -/
def lexNormal (lc : LexConfig) (pending : List Char) (c : Char) : List Token × LexMode :=
  if c = lc.comment then (endToken pending, .comment)
  else if c = '"' then (endToken pending, .quote [c])
  else if lc.symbols.contains c then (endToken pending ++ [[c]], .normal [])
  else if isBlank c then (endToken pending, .normal [])
  else ([], .normal (c :: pending))

/-- A character in any mode. A comment drops every character "up to but not including the next line feed": the line
feed is a character of normal mode again, whatever the configuration makes of it there (R131). -/
def lexChar (lc : LexConfig) : LexMode → Char → List Token × LexMode
  | .normal p, c => lexNormal lc p c
  | .quote p, c => if c = '"' then ([unescape (c :: p).reverse], .normal []) else ([], .quote (c :: p))
  | .comment, c => if c = '\n' then lexNormal lc [] c else ([], .comment)

/-- Lex the rest of the source in a mode (R130-R135). -/
def lexFrom (lc : LexConfig) : LexMode → List Char → Except AsmError (List Token)
  | .normal p, [] => .ok (endToken p)
  | .quote _, [] => .error .malformedQuoting
  | .comment, [] => .ok []
  | m, c :: cs => (lexFrom lc (lexChar lc m c).2 cs).map (fun ts => (lexChar lc m c).1 ++ ts)

/-- The tokens of a source text, from normal mode with no pending token (R130). -/
def tokenize (lc : LexConfig) (src : List Char) : Except AsmError (List Token) := lexFrom lc (.normal []) src

end Sys2Proof.Machine
end

