-- ==== Sys2Proof/Machine/Literal.lean ====
section
/-! DEFINITION. The literal grammar (spec/49_assembler.md R137-R139, R145): suffixes, bodies, and the bytes of a
literal. -/

namespace Sys2Proof.Machine

/-- The literal types of R137. -/
inductive LitType where
  | text
  | u64
  | s64
  | u32
  | s32
  | u8
  | f32
  | f64
  deriving DecidableEq, Repr

/-- A literal: its type and its encoded bytes. "Two values are equal when they have the same type and the same
encoded bytes" (R147), which is the equality of this structure. -/
structure Literal where
  ty : LitType
  bytes : List Byte
  deriving DecidableEq, Repr

/-! ### Text (R139, GK3) -/

/-- The UTF-8 bytes of a code point. -/
def utf8Char (c : Char) : List Byte :=
  let n := c.toNat
  if n < 0x80 then [BitVec.ofNat 8 n]
  else if n < 0x800 then [BitVec.ofNat 8 (0xC0 + n / 0x40), BitVec.ofNat 8 (0x80 + n % 0x40)]
  else if n < 0x10000 then
    [BitVec.ofNat 8 (0xE0 + n / 0x1000), BitVec.ofNat 8 (0x80 + n / 0x40 % 0x40), BitVec.ofNat 8 (0x80 + n % 0x40)]
  else
    [BitVec.ofNat 8 (0xF0 + n / 0x40000), BitVec.ofNat 8 (0x80 + n / 0x1000 % 0x40),
      BitVec.ofNat 8 (0x80 + n / 0x40 % 0x40), BitVec.ofNat 8 (0x80 + n % 0x40)]

/-- The length prefix of a text of `n` bytes (R145); a text too long for it has a free one (log 25). -/
def textLength (n : Nat) : Nat := if n < 2 ^ 32 then n else Config.longTextLength n

/-- A text literal's bytes: a 4-byte little-endian length and the UTF-8 bytes, no terminator (R145). -/
def textBytes (cs : List Char) : List Byte :=
  leBytes 4 (textLength (cs.flatMap utf8Char).length) ++ cs.flatMap utf8Char

/-! ### Numbers (R138) -/

/-- One decimal digit. -/
def digitValue (c : Char) : Option Nat := if '0' ≤ c ∧ c ≤ '9' then some (c.toNat - '0'.toNat) else none

/-- Decimal digits, most significant first, onto an accumulated value. -/
def digitsOnto : Nat → List Char → Option Nat
  | acc, [] => some acc
  | acc, c :: cs =>
    match digitValue c with
    | some d => digitsOnto (10 * acc + d) cs
    | none => none

/-- One or more decimal digits. -/
def parseDigits (cs : List Char) : Option Nat := if cs.isEmpty then none else digitsOnto 0 cs

/-- An optional `-`, and the rest. -/
def splitSign : List Char → Bool × List Char
  | '-' :: cs => (true, cs)
  | cs => (false, cs)

/-- An integer body: an optional `-` and one or more decimal digits. -/
def parseInt (body : List Char) : Option Int :=
  (parseDigits (splitSign body).2).map (fun n => if (splitSign body).1 then -(n : Int) else (n : Int))

/-- A float body: an optional `-`, digits, and optionally `.` and digits. The sign, and the absolute value as the
fraction of two naturals. -/
def parseDecimal (body : List Char) : Option (Bool × Nat × Nat) :=
  let cs := (splitSign body).2
  let whole := cs.takeWhile (· != '.')
  match cs.dropWhile (· != '.') with
  | [] => (parseDigits whole).map (fun n => ((splitSign body).1, n, 1))
  | _ :: frac =>
    match parseDigits whole, parseDigits frac with
    | some w, some f => some ((splitSign body).1, w * 10 ^ frac.length + f, 10 ^ frac.length)
    | _, _ => none

/-- Round the fraction `num / den` to a natural number, ties to even. -/
def roundEven (num den : Nat) : Nat :=
  let m := num / den
  if 2 * (num % den) > den ∨ (2 * (num % den) = den ∧ m % 2 = 1) then m + 1 else m

/-- The integer part of the binary logarithm of `num / den` (both positive). -/
def floorLog (num den : Nat) : Int :=
  let e := (Nat.log2 num : Int) - (Nat.log2 den : Int)
  if num * 2 ^ (-e).toNat < den * 2 ^ e.toNat then e - 1 else e

/-- `num / den`, positive, to the nearest number of the binary format with `expBits` exponent bits and `fracBits`
fraction bits, ties to even (R138, GK2): the bits below the sign, not yet checked against the format's largest
number. -/
def roundFloat (expBits fracBits num den : Nat) : Nat :=
  let emin : Int := 2 - 2 ^ (expBits - 1)
  let e := max (floorLog num den) emin
  let q := e - (fracBits : Int)
  (e - emin).toNat * 2 ^ fracBits + roundEven (num * 2 ^ (-q).toNat) (den * 2 ^ q.toNat)

/-- The bit pattern of a float literal, or `none` where its failure is (log 22). -/
def floatBits (expBits fracBits : Nat) (neg : Bool) (num den : Nat) : Option Nat :=
  let magnitude := if num = 0 then 0 else roundFloat expBits fracBits num den
  let sign := if neg && (magnitude != 0 || Config.negativeZeroSign) then 2 ^ (expBits + fracBits) else 0
  if magnitude < (2 ^ expBits - 1) * 2 ^ fracBits then some (sign + magnitude)
  else Config.floatOverflow expBits neg

/-! ### Suffixes (R137) -/

/-- The type a one-letter suffix selects, either case. -/
def suffixType (c : Char) : Option LitType :=
  match c.toLower with
  | 'f' => some .f32
  | 'd' => some .f64
  | 'u' => some .u32
  | 'i' => some .s32
  | 'l' => some .s64
  | 'b' => some .u8
  | _ => none

/-- The body and the type of a suffixed token; `ul` is tried before `l` and `u`. -/
def splitSuffix (t : Token) : Option (List Char × LitType) :=
  match t.reverse with
  | [] => none
  | [c] => (suffixType c).map (fun ty => ([], ty))
  | c :: d :: rest =>
    if c.toLower = 'l' ∧ d.toLower = 'u' then some (rest.reverse, .u64)
    else (suffixType c).map (fun ty => ((d :: rest).reverse, ty))

/-- The `n` bytes of an integer in the range `lo .. hi`, two's complement (R137, R138). -/
def intBytes (n : Nat) (lo hi : Int) (body : List Char) : Option (List Byte) :=
  match parseInt body with
  | some v => if lo ≤ v ∧ v ≤ hi then some (leBytes n (v % 2 ^ (8 * n)).toNat) else none
  | none => none

/-- The `n` bytes of a float body. -/
def floatBytes (n expBits fracBits : Nat) (body : List Char) : Option (List Byte) :=
  match parseDecimal body with
  | some (neg, num, den) => (floatBits expBits fracBits neg num den).map (leBytes n)
  | none => none

/-- The bytes of a numeric body of a type (R137). -/
def numberBytes (body : List Char) : LitType → Option (List Byte)
  | .text => none
  | .u64 => intBytes 8 0 (2 ^ 64 - 1) body
  | .s64 => intBytes 8 (-2 ^ 63) (2 ^ 63 - 1) body
  | .u32 => intBytes 4 0 (2 ^ 32 - 1) body
  | .s32 => intBytes 4 (-2 ^ 31) (2 ^ 31 - 1) body
  | .u8 => intBytes 1 0 255 body
  | .f32 => floatBytes 4 8 23 body
  | .f64 => floatBytes 8 11 52 body

/-- The literal a token stands for (R137): a quoted token is text; else a suffix selects the type. -/
def literalOf (t : Token) : Option Literal :=
  match t with
  | '"' :: rest => some ⟨.text, textBytes rest.dropLast⟩
  | _ =>
    match splitSuffix t with
    | some (body, ty) => (numberBytes body ty).map (fun bs => ⟨ty, bs⟩)
    | none => none

/-- `literalOf` with the failure of R149. -/
def parseLiteral (t : Token) : Except AsmError Literal :=
  match literalOf t with
  | some l => .ok l
  | none => .error (.unparsableLiteral t)

end Sys2Proof.Machine
end

