-- ==== Sys2Proof/Machine/Assembler.lean ====
section
/-! DEFINITION. The two-pass assembler (spec/49_assembler.md R136, R140-R149). -/

namespace Sys2Proof.Machine

/-- An object of the text or data sequence (R140). -/
inductive Obj where
  | op (byte : Byte)
  | lit (l : Literal)
  | addrOf (name : Token)
  | label (name : Token)
  deriving DecidableEq, Repr

/-- The size of an object in bytes (R145). -/
def Obj.size : Obj → Nat
  | .op _ => 1
  | .lit l => l.bytes.length
  | .addrOf _ => 8
  | .label _ => 0

/-- The first pass: the two sequences, the next `DTA` number, and whether the last token was `ref`. -/
structure Pass where
  text : List Obj
  data : List Obj
  nextData : Nat
  afterRef : Bool
  deriving DecidableEq, Repr

/-- Before the first token. -/
def Pass.start : Pass := { text := [], data := [], nextData := 0, afterRef := false }

/-- Append to the text sequence. -/
def Pass.emit (p : Pass) (o : Obj) : Pass := { p with text := p.text ++ [o] }

/-- Whether a label of that name is defined in either sequence. -/
def Pass.defines (p : Pass) (name : Token) : Bool := (p.text ++ p.data).contains (.label name)

/-- The synthesized name `DTA_<n>` (R147). -/
def dataLabel (n : Nat) : Token := ['D', 'T', 'A', '_'] ++ Nat.toDigits 10 n

/-- The label of an equal interned value (R147): the data sequence holds label and value in turn. -/
def findInterned (l : Literal) : List Obj → Option Token
  | .label name :: .lit l' :: rest => if l' = l then some name else findInterned l rest
  | _ :: rest => findInterned l rest
  | [] => none

/-- Define a label in the text sequence; a second definition fails (R142, D31). -/
def defineLabel (p : Pass) (name : Token) : Except AsmError Pass :=
  if p.defines name then .error (.duplicateLabel name) else .ok (p.emit (.label name))

/-- The data directive (R147): the address of the equal entry, or of a fresh one. -/
def internLiteral (p : Pass) (l : Literal) : Except AsmError Pass :=
  match findInterned l p.data with
  | some name => .ok (p.emit (.addrOf name))
  | none =>
    if p.defines (dataLabel p.nextData) then .error (.duplicateLabel (dataLabel p.nextData))
    else
      .ok { p with
        text := p.text ++ [.addrOf (dataLabel p.nextData)]
        data := p.data ++ [.label (dataLabel p.nextData), .lit l]
        nextData := p.nextData + 1 }

/-- One token of the first pass, in the order of cases of R136; the token after `ref` is an inline literal whatever it
looks like (R144, log 24). -/
def passToken (p : Pass) (t : Token) : Except AsmError Pass :=
  if p.afterRef then (parseLiteral t).map (fun l => { p.emit (.lit l) with afterRef := false })
  else if t = [','] then .ok p
  else if t.head? = some '"' then (parseLiteral t).bind (internLiteral p)
  else if t.getLast? = some ':' then defineLabel p t.dropLast
  else if t.head? = some '&' then .ok (p.emit (.addrOf t.tail))
  else if t = ['r', 'e', 'f'] then .ok { p with afterRef := true }
  else
    match opcodeOfMnemonic t with
    | some b => .ok (p.emit (.op b))
    | none => (parseLiteral t).bind (internLiteral p)

/-- The first pass over all tokens; a `ref` at the end has no literal (R144). -/
def firstPass (ts : List Token) : Except AsmError Pass :=
  match ts.foldlM passToken Pass.start with
  | .error e => .error e
  | .ok p => if p.afterRef then .error (.unparsableLiteral []) else .ok p

/-- The summed sizes of objects. -/
def objsSize (os : List Obj) : Nat := (os.map Obj.size).sum

/-- The byte offset of a label: the sizes of all objects before it, added to `acc` (R148). -/
def labelOffset (name : Token) : Nat → List Obj → Option Nat
  | _, [] => none
  | acc, o :: rest => if o = .label name then some acc else labelOffset name (acc + o.size) rest

/-- The value an address-of writes for an offset (R148); an offset past 64 bits has a free one (log 25). -/
def addressValue (n : Nat) : Nat := if n < 2 ^ 64 then n else Config.farAddress n

/-- The bytes of an object within the sequence `os` (R145, R148). -/
def objBytes (os : List Obj) : Obj → Except AsmError (List Byte)
  | .op b => .ok [b]
  | .lit l => .ok l.bytes
  | .label _ => .ok []
  | .addrOf name =>
    match labelOffset name 0 os with
    | some n => .ok (leBytes 8 (addressValue n))
    | none => .error (.undefinedLabel name)

/-- The second pass: the bytes of the objects in order (R146). -/
def serialize (os : List Obj) : List Obj → Except AsmError (List Byte)
  | [] => .ok []
  | o :: rest =>
    match objBytes os o with
    | .error e => .error e
    | .ok bs => (serialize os rest).map (fun more => bs ++ more)

/-- `Assemble(source) -> bytes` (R140): text then data, or a failure and no output. -/
def assembleWith (lc : LexConfig) (src : List Char) : Except AsmError (List Byte) :=
  match tokenize lc src with
  | .error e => .error e
  | .ok ts =>
    match firstPass ts with
    | .error e => .error e
    | .ok p => serialize (p.text ++ p.data) (p.text ++ p.data)

/-- The assembler in the decided configuration (D27). -/
def assemble (src : String) : Except AsmError (List Byte) := assembleWith LexConfig.default src.toList

end Sys2Proof.Machine
end

