-- ==== Sys2Proof/Machine/FaultInfo.lean ====
section
/-! DEFINITION. The three parts of a latched fatal condition `(cause, pc0, info)` (spec/60_exceptions.md R161, R162). -/

namespace Sys2Proof.Machine

/-- The cause's code (R162, D23). -/
def Fault.code : Fault → Nat
  | .invalidOpcode _ _ => 1
  | .privilegeViolation _ _ => 2
  | .registerIndexOutOfRange _ _ => 3
  | .flagIndexOutOfRange _ _ => 4
  | .portIndexOutOfRange _ _ => 5
  | .interruptIndexOutOfRange _ _ => 6
  | .memoryOutOfRange _ _ => 7
  | .stackUnderflow _ _ => 8
  | .stackOverflow _ _ => 9
  | .callDepthUnderflow _ => 10
  | .callDepthOverflow _ _ => 11
  | .nativeCallUnsupported _ => 12

/-- `pc0`: the address of the opcode byte, or the pc at a host's call (R161). -/
def Fault.pc0 : Fault → Word
  | .invalidOpcode p _ => p
  | .privilegeViolation p _ => p
  | .registerIndexOutOfRange p _ => p
  | .flagIndexOutOfRange p _ => p
  | .portIndexOutOfRange p _ => p
  | .interruptIndexOutOfRange p _ => p
  | .memoryOutOfRange p _ => p
  | .stackUnderflow p _ => p
  | .stackOverflow p _ => p
  | .callDepthUnderflow p => p
  | .callDepthOverflow p _ => p
  | .nativeCallUnsupported p => p

/-- `info` (R162); `NativeCallUnsupported` carries `pc0` (log 10). -/
def Fault.info : Fault → Nat
  | .invalidOpcode _ op => op.toNat
  | .privilegeViolation _ op => op.toNat
  | .registerIndexOutOfRange _ b => b.toNat
  | .flagIndexOutOfRange _ k => k.toNat
  | .portIndexOutOfRange _ port => port.toNat
  | .interruptIndexOutOfRange _ n => n
  | .memoryOutOfRange _ a => a
  | .stackUnderflow _ off => off
  | .stackOverflow _ count => count
  | .callDepthUnderflow _ => 0
  | .callDepthOverflow _ cd => cd.toNat
  | .nativeCallUnsupported p => p.toNat

end Sys2Proof.Machine
end

