-- ==== Sys2Proof/Machine/HostCalls.lean ====
section
/-! DEFINITION. The host interface (spec/60_exceptions.md R175, R185; spec/70_reset_and_hazards.md R200-R203): the
host-visible step, the host's interrupt and Reset, and its accesses to memory, ports, hook and `CW`. The host acts
between host steps only; a move that R185 does not allow in a state answers `notAllowed` (log 17). -/

namespace Sys2Proof.Machine

/-! ### Memory from the host's side (R41, R42, R50) -/

/-- `Set(a, b)`, `Set(a + 1, ...)`, ... of a memory front. -/
def emitSets (a : Nat) : List Byte → State → State
  | [], s => s
  | b :: bs, s => emitSets (a + 1) bs (s.emit (.frontSet a b))

/-- `MemWrite(a, n, v)` (R42), the host's only: with a front its `Set`, else the stored bytes. DESIGN CHOICE (log 31): a
width `n` outside {1, 2, 4, 8}, 0 included, is carried out by the same formula. -/
def memWrite (a n v : Nat) (s : State) : Except Fault State :=
  if s.inMemory a n then
    .ok (if s.cfg.memFront then emitSets a (leBytes n v) s
      else { s with mem := s.mem.writeBytes a (leBytes n v) })
  else .error (.memoryOutOfRange s.pc a)

/-- `MemRead(a, n)` from the host: the unsigned value (R41). When the host may make it is said by `HostMove.readMemory`.
DESIGN CHOICE (log 31): R41 has `n` in {1, 2, 4, 8}; any other width, 0 included, is carried out by the same formula. -/
def hostMemRead (a n : Nat) (s : State) : Except Fault (Nat × State) :=
  match memRead s.pc a n s with
  | .ok (bs, s') => .ok (leValue bs, s')
  | .error f => .error f

/-- `MemRead(a, 1)`, `MemRead(a + 1, 1)`, ...: `n` bytes, each checked by itself (R50). -/
def readEach (pc0 : Word) : Nat → Nat → State → Except Fault (List Byte × State)
  | 0, _, s => .ok ([], s)
  | n + 1, a, s =>
    match memRead pc0 a 1 s with
    | .error f => .error f
    | .ok (b, s1) =>
      match readEach pc0 n (a + 1) s1 with
      | .error f => .error f
      | .ok (bs, s2) => .ok (b ++ bs, s2)

/-- `ReadString(a)`: a 4-byte little-endian length and that many bytes (R50). -/
def readString (pc0 : Word) (a : Nat) (s : State) : Except Fault (List Byte × State) :=
  match memRead pc0 a 4 s with
  | .error f => .error f
  | .ok (bs, s1) => readEach pc0 (leValue bs) (a + 4) s1

/-- The inline form: at the pc, which advances by `4 + len` (R50). -/
def fetchString (pc0 : Word) (s : State) : Except Fault (List Byte × State) :=
  match readString pc0 s.pc.toNat s with
  | .error f => .error f
  | .ok (bs, s') => .ok (bs, s'.advance (4 + bs.length))

/-- Image byte `i` at address `a + i` (R57, R203). -/
def loadBytes (a : Nat) : List Byte → State → Except Fault State
  | [], s => .ok s
  | b :: bs, s =>
    match memWrite a 1 b.toNat s with
    | .error f => .error f
    | .ok s' => loadBytes (a + 1) bs s'

/-- The loader: the image "starting at address 0" (R57, R203 step 2). -/
def loadImage (image : List Byte) (s : State) : Except Fault State := loadBytes 0 image s

/-! ### Construction and Reset (R29, R200, R201) -/

/-- Construct an engine over a memory (R185, R203): the parameters and the host's objects, and Reset. -/
def construct (nreg : Nat) (cfg : Config) (mem : Memory) (ports : List Word) (hook : Bool) : State :=
  { cfg := cfg, regs := List.replicate nreg 0#64, pc := 0#64, cw := cfg.cwReset, cd := 0#64, stk := [], ivt := []
    halted := false, df := [], fault := none, mem := mem, ports := ports, hook := hook
    events := [], env := [], envCount := 0 }

/-- The host's Reset: R29, and `DF` and `FAULT` too (D8, R200). -/
def hostReset (s : State) : State := { s.reinit with df := [], fault := none }

/-! ### Host steps (R161, R175) -/

/-- Latch a fatal condition (R27, R161): the engine state is the one at `pc0`. Answers that a front gave to the
abandoned micro-step are not given again (log 7). -/
def latch (f : Fault) (s : State) : State :=
  { s with
    fault := some f
    env := if s.cfg.memFront then [] else s.env
    envCount := if s.cfg.memFront then s.envCount + maxInstrLength else s.envCount }

/-- How a call of the host ends. -/
inductive HostReturn where
  /-- The call returned. -/
  | returned (r : CallResult) (s : State)
  /-- The dispatch the call started has not ended within the bound on micro-steps; it may never end (R210). -/
  | running (s : State)
  /-- R185 does not let the host make this call in this state. -/
  | notAllowed
  /-- The machine refused an instruction. -/
  | refused (r : Refusal)
  deriving DecidableEq, Repr

/-- `while FAULT = none and |DF| > d: MicroStep()` (R175), at most `n` micro-steps; `r` is the call's result. -/
def runToDepth (d : Nat) (r : CallResult) : Nat → State → HostReturn
  | 0, s => if s.df.length ≤ d then .returned r s else .running s
  | n + 1, s =>
    if s.df.length ≤ d then .returned r s
    else
      match microStep s with
      | .next (t, _) => runToDepth d r n t
      | .fault f => .returned (.fault f) (latch f s)
      | .refused x => .refused x

/-- The result of a host step goes into the trace (R183). -/
def recordResult : HostReturn → HostReturn
  | .returned r s => .returned r (s.emit (.stepResult r))
  | .running s => .running s
  | .notAllowed => .notAllowed
  | .refused x => .refused x

/-- `HostStep()` (R175) with at most `n` micro-steps after the first. A latched fault is returned and nothing
executes; inside a dispatch the host has no call to make (R174, R185). -/
def hostStep (n : Nat) (s : State) : HostReturn :=
  match s.fault with
  | some f => recordResult (.returned (.fault f) s)
  | none =>
    if s.df.isEmpty then
      match microStep s with
      | .next (t, r) => recordResult (runToDepth s.df.length r n t)
      | .fault f => recordResult (.returned (.fault f) (latch f s))
      | .refused x => .refused x
    else .notAllowed

/-- The host's `Interrupt(k)` (R170, R175, R176), with at most `n` micro-steps of the handler. -/
def hostInterrupt (n k : Nat) (s : State) : HostReturn :=
  if s.fault = none ∧ s.df = [] then
    match interrupt s.pc k s with
    | .next t => runToDepth 0 .unit n t
    | .fault f => .returned (.fault f) (latch f s)
    | .refused x => .refused x
  else .notAllowed

/-! ### All the host's moves (R185) -/

/-- The engine is between host steps: no dispatch is in progress, or a fault has ended the call it was part of. -/
def betweenHostSteps (s : State) : Bool := s.df.isEmpty || s.fault.isSome

/-- The rows of R185's table, but for construction (`construct`) and for observing registers, stack, `CD` and `HALTED`,
which is looking at a field. -/
inductive HostMove where
  | step
  | interrupt (n : Nat)
  | reset
  | registerPort (port : Word)
  | setHook (present : Bool)
  /-- `MemRead(addr, n)`; `n` outside {1, 2, 4, 8} is a DESIGN CHOICE (log 31). -/
  | readMemory (addr n : Nat)
  /-- `MemWrite(addr, n, v)`; `n` outside {1, 2, 4, 8} is a DESIGN CHOICE (log 31). -/
  | writeMemory (addr n v : Nat)
  | readControlWord
  | writeControlWord (cw : Word)
  deriving DecidableEq, Repr

/-- A move that R185 allows between host steps only. -/
def betweenSteps (s : State) (r : HostReturn) : HostReturn := if betweenHostSteps s then r else .notAllowed

/-- Make a move; `n` bounds the micro-steps of a dispatch. A read or write of memory that does not fit is answered with
its condition and latches nothing (log 20); a read through a front takes its answers and is traced (R44, log 6). -/
def hostMove (n : Nat) (m : HostMove) (s : State) : HostReturn :=
  match m with
  | .step => hostStep n s
  | .interrupt k => hostInterrupt n k s
  | .reset => betweenSteps s (.returned .unit (hostReset s))
  | .registerPort p => betweenSteps s (.returned .unit { s with ports := insertPort p s.ports })
  | .setHook b => betweenSteps s (.returned .unit { s with hook := b })
  | .readMemory a k =>
    betweenSteps s <|
      match hostMemRead a k s with
      | .ok (v, s') => .returned (.value v) s'
      | .error f => .returned (.fault f) s
  | .readControlWord => betweenSteps s (.returned (.value s.cw.toNat) s)
  | .writeMemory a k v =>
    betweenSteps s <|
      match memWrite a k v s with
      | .ok s' => .returned .unit s'
      | .error f => .returned (.fault f) s
  | .writeControlWord w => betweenSteps s (.returned .unit { s with cw := w })

/-- The state a call left, when it returned. -/
def HostReturn.state? : HostReturn → Option State
  | .returned _ s => some s
  | .running s => some s
  | .notAllowed => none
  | .refused _ => none

end Sys2Proof.Machine
end

