-- ==== Sys2Proof/Safety.lean ====
section
/-! DEFINITION. What counts as a sound state and a safe run: the invariant that every step keeps, and running without
a fatal condition. -/

namespace Sys2Proof.Machine

/-- The size of the register file is within the limits of R3. -/
abbrev RegFileOk (s : State) : Prop := 1 ≤ s.regs.length ∧ s.regs.length ≤ 256

/-- Memory is in canonical form and lists only addresses below `MEM_SIZE` (R40). -/
abbrev MemoryOk (s : State) : Prop := Memory.wf s.mem ∧ ∀ c ∈ s.mem, c.1 < s.cfg.memSize

/-- The interrupt vector table is in canonical form and its numbers are 0..255 (R24). -/
abbrev HandlersOk (s : State) : Prop := mapRising s.ivt ∧ ∀ e ∈ s.ivt, e.1 ≤ 255

/-- The registered ports are in canonical form. -/
abbrev PortsOk (s : State) : Prop := (s.ports.map BitVec.toNat).Pairwise (· < ·)

/-- The stack holds no more than `STACK_MAX` words (R20). -/
abbrev StackOk (s : State) : Prop := ∀ m ∈ s.cfg.stackMax, s.stk.length ≤ m

/-- Between micro-steps the innermost dispatch is open: `CD` is not its `rec` (R173). -/
abbrev DispatchOpen (s : State) : Prop := ∀ f ∈ s.df.getLast?, s.cd ≠ f.recDepth

/-- The invariant of the machine. -/
abbrev State.Inv (s : State) : Prop :=
  Config.wf s.cfg ∧ RegFileOk s ∧ MemoryOk s ∧ HandlersOk s ∧ PortsOk s ∧ StackOk s ∧ DispatchOpen s

/-- A run of micro-steps. -/
inductive Reaches (s : State) : State → Prop where
  | here : Reaches s s
  | step {t u : State} : Reaches s t → Machine.step t = .next u → Reaches s u

/-- `k` micro-steps run without a fatal condition: what a proof about a program asks for, since a fault is "never a
final state" (R161). -/
def RunsSafely : Nat → State → Prop
  | 0, _ => True
  | k + 1, s => ∃ t, Machine.step s = .next t ∧ RunsSafely k t

/-- The engine is about to fetch: no fault is latched and it is not halted (R64). -/
abbrev Running (s : State) : Prop := s.fault = none ∧ s.halted = false

/-- No memory front: the decided default (R44). -/
abbrev NoFront (s : State) : Prop := s.cfg.memFront = false

/-- The `n` bytes of memory from `a` up. -/
def bytesAt (s : State) (a n : Nat) : List Byte := (List.range n).map (fun k => s.mem.read (a + k))

/-- The register-index bytes of an instruction, in encoding order (R60, R163). -/
def registerOperands : Instr → List Byte
  | .halt => []
  | .reset => []
  | .ncall => []
  | .movR64 ra _ => [ra]
  | .movRR ra rb => [ra, rb]
  | .ld8RR ra rb => [ra, rb]
  | .ld32RR ra rb => [ra, rb]
  | .addRR ra rb => [ra, rb]
  | .addR64 ra _ => [ra]
  | .subRR ra rb => [ra, rb]
  | .subR64 ra _ => [ra]
  | .cmpRR ra rb => [ra, rb]
  | .jmp64 _ => []
  | .je64 _ => []
  | .jl64 _ => []
  | .jg64 _ => []
  | .call64 _ => []
  | .ret => []
  | .push64 _ => []
  | .popR ra => [ra]
  | .outRR ra rb => [ra, rb]
  | .inRR ra rb => [ra, rb]
  | .int8 _ => []
  | .setint8_64 _ _ => []
  | .setf8 _ => []
  | .clrf8 _ => []

/-- The instructions that can transfer control, so that the pc after them need not be the next instruction's (R14). -/
def canTransfer : Instr → Bool
  | .jmp64 _ | .je64 _ | .jl64 _ | .jg64 _ | .call64 _ | .ret | .reset | .int8 _ => true
  | .halt | .ncall | .movR64 _ _ | .movRR _ _ | .ld8RR _ _ | .ld32RR _ _ | .addRR _ _ | .addR64 _ _ | .subRR _ _
  | .subR64 _ _ | .cmpRR _ _ | .push64 _ | .popR _ | .outRR _ _ | .inRR _ _ | .setint8_64 _ _ | .setf8 _
  | .clrf8 _ => false

/-- `CALL_64` to each address in turn (R87). -/
def callEach : List Word → State → Result
  | [], s => .next s
  | a :: rest, s =>
    match exec (.call64 a) s with
    | .next t => callEach rest t
    | .fault f => .fault f
    | .refused r => .refused r

/-- `n` times `RET` (R87). -/
def returnTimes : Nat → State → Result
  | 0, s => .next s
  | n + 1, s =>
    match exec .ret s with
    | .next t => returnTimes n t
    | .fault f => .fault f
    | .refused r => .refused r

/-- The engine rests: it is halted and no fault is latched (R196). -/
abbrev Resting (s : State) : Prop := s.halted = true ∧ s.fault = none

end Sys2Proof.Machine
end

