-- ==== Sys2Proof/Certificates/Slice0/Obligations.lean ====
section
/-! DEFINITION. The statements for the provers, each from the numbered rules of spec/. -/

open Sys2Proof Sys2Proof.Machine

/-! ### Encoding and decoding -/

/-- Decoding the encoding of any instruction, with every operand at every value, gives the instruction back and leaves
the bytes after it (30_encoding.md, formats and opcode map). -/
def Obligations.DecodeInvertsEncode : Prop :=
  ∀ (i : Instr) (rest : List Byte), decode (encode i ++ rest) = .ok (i, rest)

/-- Whatever decodes is the encoding of what it decodes to: no byte has two meanings and no bit is ignored
(93_implementation_defined.md section 2: "every bit of every operand field is used"). -/
def Obligations.EncodeInvertsDecode : Prop :=
  ∀ (bs : List Byte) (i : Instr) (rest : List Byte), decode bs = .ok (i, rest) → bs = encode i ++ rest

/-- R71: every one of the 256 byte values either selects exactly one instruction (with the operand bytes it fixes), or
raises `InvalidOpcode` when it is fetched as an opcode. -/
def Obligations.DispatchIsTotal : Prop :=
  ∀ op : Byte,
    (op.toNat ∈ [0x01, 0x02, 0x03, 0x10, 0x11, 0x12, 0x13, 0x20, 0x21, 0x22, 0x23, 0x24, 0x30, 0x31, 0x32, 0x33, 0x34,
        0x35, 0x40, 0x41, 0x50, 0x51, 0x60, 0x61, 0x62, 0x63] ∧
      ∃ n, ∀ bs : List Byte, bs.length = n → ∃ i, decode (op :: bs) = .ok (i, []) ∧ i.opcode = op) ∨
    (op.toNat ∉ [0x01, 0x02, 0x03, 0x10, 0x11, 0x12, 0x13, 0x20, 0x21, 0x22, 0x23, 0x24, 0x30, 0x31, 0x32, 0x33, 0x34,
        0x35, 0x40, 0x41, 0x50, 0x51, 0x60, 0x61, 0x62, 0x63] ∧
      ∀ s : State, Running s → s.pc.toNat < s.cfg.memSize → (readByte s.pc.toNat s).1 = op →
        step s = .fault (.invalidOpcode s.pc op))

/-- The opcode byte alone fixes the length: 1, 2, 3, 9 or 10 bytes (30_encoding.md section 1). -/
def Obligations.OpcodeFixesLength : Prop :=
  ∀ (op : Byte) (bs : List Byte) (i : Instr) (rest : List Byte), decode (op :: bs) = .ok (i, rest) →
    bs.length + 1 = i.length + rest.length ∧
    i.length =
      if op.toNat ∈ [0x01, 0x02, 0x03, 0x35] then 1
      else if op.toNat ∈ [0x41, 0x60, 0x62, 0x63] then 2
      else if op.toNat ∈ [0x11, 0x12, 0x13, 0x20, 0x22, 0x24, 0x50, 0x51] then 3
      else if op.toNat ∈ [0x30, 0x31, 0x32, 0x33, 0x34, 0x40] then 9
      else 10

/-- A few byte strings of the test vectors decode to the instructions they are written for, one per format. -/
def Obligations.WrittenBytesDecode : Prop :=
  decode [0x35#8] = .ok (.ret, []) ∧
  decode [0x41#8, 0x02#8] = .ok (.popR 2, []) ∧
  decode [0x60#8, 0x03#8] = .ok (.int8 3, []) ∧
  decode [0x20#8, 0x00#8, 0x01#8] = .ok (.addRR 0 1, []) ∧
  decode [0x34#8, 0x21#8, 0, 0, 0, 0, 0, 0, 0] = .ok (.call64 0x21, []) ∧
  decode [0x10#8, 0x03#8, 0, 0, 0, 0, 0, 0, 0, 0x80#8] = .ok (.movR64 3 0x8000000000000000, []) ∧
  decode [0x61#8, 0x03#8, 0x40#8, 0, 0, 0, 0, 0, 0, 0] = .ok (.setint8_64 3 0x40, [])

/-! ### The micro-step -/

/-- When the bytes at the pc decode to an instruction, all of it lies in memory and the mode allows it, the step is the
instruction's meaning at that state, followed by the end-of-dispatch test (R64); a fault of the meaning is the step's. -/
def Obligations.StepRunsTheDecodedInstruction : Prop :=
  ∀ (s : State) (i : Instr) (n : Nat) (rest : List Byte),
    Running s → NoFront s → s.cfg.memSize ≤ 2 ^ 64 → (i.isPrivileged = true → s.privileged = true) →
    decode (bytesAt s s.pc.toNat n) = .ok (i, rest) → s.pc.toNat + i.length ≤ s.cfg.memSize →
    step s =
      match exec i s with
      | .next t => .next (endOfDispatchTest t)
      | .fault f => .fault f
      | .refused r => .refused r

/-- With a memory front the instruction is what the host's `Get` answers: one answer per byte, in ascending address
order, before the meaning runs (20_memory.md section 1, the custom front). The split of the environment's answers is the
model's (log 5, 6). -/
def Obligations.FrontedStepRunsTheAnsweredInstruction : Prop :=
  ∀ (s : State) (i : Instr) (answers more : List Word),
    Running s → s.cfg.memFront = true → s.cfg.memSize ≤ 2 ^ 64 → (i.isPrivileged = true → s.privileged = true) →
    s.env = answers ++ more → answers.map (BitVec.setWidth 8) = encode i → s.pc.toNat + i.length ≤ s.cfg.memSize →
    ∀ u : State,
      u = { s with
        env := more
        envCount := s.envCount + i.length
        events := s.events ++ (encode i).mapIdx (fun k b => .frontGet (s.pc.toNat + k) b) } →
      step s =
        match exec i u with
        | .next t => .next (endOfDispatchTest t)
        | .fault f => .fault f
        | .refused r => .refused r

/-- R191: the privileged set. With `P = 0` an opcode of the set, read from memory or answered by a front, raises
`PrivilegeViolation` (before any operand is fetched: nothing is asked of the bytes after it); and a step raises that
condition in no other case. -/
def Obligations.PrivilegedSetFaultsInUserMode : Prop :=
  ∀ s : State, Running s →
    (s.privileged = false → s.pc.toNat < s.cfg.memSize →
      (readByte s.pc.toNat s).1.toNat ∈ [0x02, 0x50, 0x51, 0x61, 0x62, 0x63] →
      step s = .fault (.privilegeViolation s.pc (readByte s.pc.toNat s).1)) ∧
    (∀ pc0 op, step s = .fault (.privilegeViolation pc0 op) →
      s.privileged = false ∧ pc0 = s.pc ∧ op = (readByte s.pc.toNat s).1 ∧
        op.toNat ∈ [0x02, 0x50, 0x51, 0x61, 0x62, 0x63])

/-- R45: a fetch outside memory, of the opcode byte or of any operand item, raises `MemoryOutOfRange` with the address
of the item's first byte, with or without a front. (An item at address 2^64 itself has no address in the 64-bit pc;
log 14.) -/
def Obligations.FetchOutsideMemoryFaults : Prop :=
  ∀ s : State, Running s →
    (s.cfg.memSize ≤ s.pc.toNat → step s = .fault (.memoryOutOfRange s.pc s.pc.toNat)) ∧
    (∀ (row : OpRow) (before after : List Nat) (n : Nat),
      s.pc.toNat < s.cfg.memSize → rowOf (readByte s.pc.toNat s).1 = some row →
      (row.privileged = true → s.privileged = true) →
      row.format.items = before ++ n :: after →
      s.pc.toNat + 1 + before.sum < 2 ^ 64 →
      s.pc.toNat + 1 + before.sum ≤ s.cfg.memSize → s.cfg.memSize < s.pc.toNat + 1 + before.sum + n →
      step s = .fault (.memoryOutOfRange s.pc (s.pc.toNat + 1 + before.sum)))

/-- The fetch advances the pc by exactly the bytes of the instruction, with or without a front; and an instruction that
cannot transfer control ends with the pc there (10_state.md section 2). -/
def Obligations.PcAdvancesByTheLength : Prop :=
  (∀ (s t : State) (i : Instr), fetchInstr s = .ok (i, t) → t.pc = s.pc + BitVec.ofNat 64 i.length) ∧
  (∀ (s t : State) (i : Instr), canTransfer i = false → exec i s = .next t →
    t.pc = s.pc + BitVec.ofNat 64 i.length)

/-- While halted a micro-step changes nothing and returns `NONE` (R64, D24), and so does any number of them. -/
def Obligations.HaltedMicroStepIsNoOp : Prop :=
  ∀ s : State, Resting s →
    microStep s = .next (s, .idle) ∧ ∀ n, Host.Core.run Sys2Proof.core n s = .next s

/-- R27: `FAULT` is none in a constructed engine; a fatal condition latches it; once it is latched the engine takes no
further micro-step, and the host's step returns the condition and executes nothing. -/
def Obligations.FaultLatchIsTerminal : Prop :=
  (∀ nreg cfg mem ports hook, (construct nreg cfg mem ports hook).fault = none) ∧
  (∀ (n k : Nat) (s t : State) (f : Fault), s.fault = none →
    (hostStep n s = .returned (.fault f) t → t.fault = some f) ∧
    (hostInterrupt n k s = .returned (.fault f) t → t.fault = some f)) ∧
  (∀ (n k : Nat) (s : State) (f : Fault), s.fault = some f →
    step s = .fault f ∧ hostStep n s = .returned (.fault f) (s.emit (.stepResult (.fault f))) ∧
    hostInterrupt n k s = .notAllowed)

/-- A fatal condition is precise: a host step whose micro-step raises it leaves the whole state, pc included, as it was,
but for the latch, the result in the trace and, with a front, the answers given meanwhile; and the condition carries the
pc of the opcode byte (60_exceptions.md section 1). That with a front the trace holds none of the abandoned micro-step's
`Get` calls is the model's own choice (log 7), not the spec's. -/
def Obligations.FatalConditionIsPrecise : Prop :=
  ∀ (n : Nat) (s : State) (f : Fault), s.fault = none → s.df = [] → microStep s = .fault f →
    f.pc0 = s.pc ∧
    ∃ t, hostStep n s = .returned (.fault f) t ∧
      t = { s with
        fault := some f, events := s.events ++ [.stepResult (.fault f)], env := t.env, envCount := t.envCount } ∧
      (NoFront s → t.env = s.env ∧ t.envCount = s.envCount)

/-- Every fault a step raises names the instruction at the pc, in every state and mode, with or without a front
(60_exceptions.md section 1: `pc0`). -/
def Obligations.EveryFaultCarriesThePc : Prop :=
  ∀ (s : State) (f : Fault), s.fault = none → step s = .fault f → f.pc0 = s.pc

/-- No instruction is refused: a step answers a next state or a fatal condition of the spec. -/
def Obligations.StepNeverRefuses : Prop :=
  ∀ (s : State) (r : Refusal), step s ≠ .refused r

/-- The condition and the instructions behind each cause that a meaning can raise (60_exceptions.md section 1, the
table of causes). -/
def Obligations.CausesComeFromTheirInstructions : Prop :=
  ∀ (i : Instr) (s : State) (f : Fault), exec i s = .fault f →
    match f with
    | .invalidOpcode _ _ => False
    | .privilegeViolation _ op => i.isPrivileged = true ∧ op = i.opcode ∧ s.privileged = false
    | .registerIndexOutOfRange _ b => b ∈ registerOperands i ∧ s.nreg ≤ b.toNat
    | .flagIndexOutOfRange _ k => (i = .setf8 k ∨ i = .clrf8 k) ∧ 4 < k.toNat
    | .portIndexOutOfRange _ _ => False
    | .interruptIndexOutOfRange _ _ => False
    | .memoryOutOfRange _ a =>
      (∃ ra rb, i = .ld8RR ra rb ∧ a = (s.reg rb.toNat).toNat ∧ s.cfg.memSize < a + 1) ∨
      (∃ ra rb, i = .ld32RR ra rb ∧ a = (s.reg rb.toNat).toNat ∧ s.cfg.memSize < a + 4)
    | .stackUnderflow _ off => (i = .ret ∨ ∃ ra, i = .popR ra) ∧ s.stk = [] ∧ off = 0
    | .stackOverflow _ count =>
      ((∃ a, i = .call64 a) ∨ (∃ v, i = .push64 v) ∨ ∃ n, i = .int8 n) ∧
        s.cfg.stackMax = some count ∧ count = s.stk.length
    | .callDepthUnderflow _ => i = .ret ∧ s.cd = 0
    | .callDepthOverflow _ cd => ((∃ a, i = .call64 a) ∨ ∃ n, i = .int8 n) ∧ cd = s.cd ∧ s.cd.toNat = 2 ^ 64 - 1
    | .nativeCallUnsupported _ => i = .ncall

/-- R12: the first register operand out of range, in encoding order, is the fault, whatever else is wrong with the
instruction's other operands, the stack or the address; with 256 registers the check never fails. -/
def Obligations.RegisterIndexIsCheckedFirst : Prop :=
  (∀ (i : Instr) (s : State) (before after : List Byte) (b : Byte),
    (i.isPrivileged = true → s.privileged = true) → registerOperands i = before ++ b :: after →
    (∀ c ∈ before, c.toNat < s.nreg) → s.nreg ≤ b.toNat →
    exec i s = .fault (.registerIndexOutOfRange s.pc b)) ∧
  (∀ (i : Instr) (s : State) (pc0 : Word) (b : Byte), s.nreg = 256 →
    exec i s ≠ .fault (.registerIndexOutOfRange pc0 b))

/-! ### Moves, arithmetic, compare and loads -/

/-- `MOV_R_64` and `MOV_R_R` write the first register and nothing else but the pc (41_arith_move.md section 2). -/
def Obligations.MovesWriteTheFirstRegister : Prop :=
  ∀ (s : State) (ra rb : Byte) (imm : Word), ra.toNat < s.nreg →
    exec (.movR64 ra imm) s = .next { s with regs := s.regs.set ra.toNat imm, pc := s.pc + 10 } ∧
    (rb.toNat < s.nreg →
      exec (.movRR ra rb) s = .next { s with regs := s.regs.set ra.toNat (s.reg rb.toNat), pc := s.pc + 3 })

/-- Add and subtract write the first register with the exact sum or difference of the two signed values reduced modulo
2^64, set no flag and never trap (R98; 41_arith_move.md section 3). -/
def Obligations.AddAndSubtractWrap : Prop :=
  ∀ (s : State) (ra rb : Byte) (imm : Word), ra.toNat < s.nreg →
    (∃ v, exec (.addR64 ra imm) s = .next { s with regs := s.regs.set ra.toNat v, pc := s.pc + 10 } ∧
      v.toInt = ((s.reg ra.toNat).toInt + imm.toInt).bmod (2 ^ 64)) ∧
    (∃ v, exec (.subR64 ra imm) s = .next { s with regs := s.regs.set ra.toNat v, pc := s.pc + 10 } ∧
      v.toInt = ((s.reg ra.toNat).toInt - imm.toInt).bmod (2 ^ 64)) ∧
    (rb.toNat < s.nreg →
      (∃ v, exec (.addRR ra rb) s = .next { s with regs := s.regs.set ra.toNat v, pc := s.pc + 3 } ∧
        v.toInt = ((s.reg ra.toNat).toInt + (s.reg rb.toNat).toInt).bmod (2 ^ 64)) ∧
      (∃ v, exec (.subRR ra rb) s = .next { s with regs := s.regs.set ra.toNat v, pc := s.pc + 3 } ∧
        v.toInt = ((s.reg ra.toNat).toInt - (s.reg rb.toNat).toInt).bmod (2 ^ 64)))

/-- `CMP_R_R` writes `EQ`, `LT` and `GT` from the exact signed comparison, exactly one of them 1, and no other bit of
the control word, no register and nothing else but the pc (40_control_flow.md, CMP_R_R). -/
def Obligations.CompareSetsExactlyOneFlag : Prop :=
  ∀ (s : State) (ra rb : Byte), ra.toNat < s.nreg → rb.toNat < s.nreg →
    ∃ t, exec (.cmpRR ra rb) s = .next t ∧ t = { s with cw := t.cw, pc := s.pc + 3 } ∧
      t.flag 1 = decide ((s.reg ra.toNat).toInt = (s.reg rb.toNat).toInt) ∧
      t.flag 2 = decide ((s.reg ra.toNat).toInt < (s.reg rb.toNat).toInt) ∧
      t.flag 3 = decide ((s.reg ra.toNat).toInt > (s.reg rb.toNat).toInt) ∧
      (t.flag 1, t.flag 2, t.flag 3) ∈ [(true, false, false), (false, true, false), (false, false, true)] ∧
      ∀ k, k ≠ 1 → k ≠ 2 → k ≠ 3 → t.flag k = s.flag k

/-- The narrow loads read at the full 64-bit address in the second register, little-endian, sign-extend into the first
register and change nothing else but the pc; a read that does not lie wholly in memory is `MemoryOutOfRange` of that
address (41_arith_move.md section 4). -/
def Obligations.NarrowLoadsSignExtend : Prop :=
  ∀ (s : State) (ra rb : Byte) (a : Nat), NoFront s → ra.toNat < s.nreg → rb.toNat < s.nreg →
    a = (s.reg rb.toNat).toNat →
    (a + 1 ≤ s.cfg.memSize →
      exec (.ld8RR ra rb) s =
        .next { s with regs := s.regs.set ra.toNat ((s.mem.read a).signExtend 64), pc := s.pc + 3 }) ∧
    (a + 4 ≤ s.cfg.memSize →
      exec (.ld32RR ra rb) s =
        .next { s with
          regs := s.regs.set ra.toNat
            ((s.mem.read (a + 3) ++ s.mem.read (a + 2) ++ s.mem.read (a + 1) ++ s.mem.read a).signExtend 64)
          pc := s.pc + 3 }) ∧
    (s.cfg.memSize < a + 1 → exec (.ld8RR ra rb) s = .fault (.memoryOutOfRange s.pc a)) ∧
    (s.cfg.memSize < a + 4 → exec (.ld32RR ra rb) s = .fault (.memoryOutOfRange s.pc a))

/-- With a front a load takes the low 8 bits of one answer per byte, ascending, whatever the answers are and however many
the environment has ready (20_memory.md section 1, the custom front; the answers are free values, log 5; the low 8 bits
and the `Get` events are the model's choice, log 6). A load that does not lie wholly in memory is `MemoryOutOfRange` of
its address, before any `Get`. -/
def Obligations.FrontedLoadsTakeTheAnswers : Prop :=
  ∀ (s : State) (ra rb : Byte) (a : Nat), s.cfg.memFront = true → ra.toNat < s.nreg → rb.toNat < s.nreg →
    a = (s.reg rb.toNat).toNat →
    (a + 1 ≤ s.cfg.memSize →
      exec (.ld8RR ra rb) s =
        .next { s with
          regs := s.regs.set ra.toNat ((s.answer.setWidth 8).signExtend 64)
          env := s.env.tail
          envCount := s.envCount + 1
          events := s.events ++ [.frontGet a (s.answer.setWidth 8)]
          pc := s.pc + 3 }) ∧
    (∀ b0 b1 b2 b3 : Byte, a + 4 ≤ s.cfg.memSize →
      b0 = s.answer.setWidth 8 → b1 = s.answered.answer.setWidth 8 →
      b2 = s.answered.answered.answer.setWidth 8 → b3 = s.answered.answered.answered.answer.setWidth 8 →
      exec (.ld32RR ra rb) s =
        .next { s with
          regs := s.regs.set ra.toNat ((b3 ++ b2 ++ b1 ++ b0).signExtend 64)
          env := s.env.drop 4
          envCount := s.envCount + 4
          events := s.events ++
            [.frontGet a b0, .frontGet (a + 1) b1, .frontGet (a + 2) b2, .frontGet (a + 3) b3]
          pc := s.pc + 3 }) ∧
    (s.cfg.memSize < a + 1 → exec (.ld8RR ra rb) s = .fault (.memoryOutOfRange s.pc a)) ∧
    (s.cfg.memSize < a + 4 → exec (.ld32RR ra rb) s = .fault (.memoryOutOfRange s.pc a))

/-! ### Control flow and the stack -/

/-- The jumps: an unconditional one always, a conditional one exactly when its flag is 1, else to the next
instruction; nothing else changes (40_control_flow.md, JMP_64 to JG_64). -/
def Obligations.JumpsTestTheirFlag : Prop :=
  ∀ (s : State) (a : Word),
    exec (.jmp64 a) s = .next { s with pc := a } ∧
    exec (.je64 a) s = .next { s with pc := if s.flag 1 then a else s.pc + 9 } ∧
    exec (.jl64 a) s = .next { s with pc := if s.flag 2 then a else s.pc + 9 } ∧
    exec (.jg64 a) s = .next { s with pc := if s.flag 3 then a else s.pc + 9 }

/-- `CALL_64` pushes the address of the next instruction, counts `CD` up and goes to its target; a full stack is found
before a full counter (40_control_flow.md, CALL_64). -/
def Obligations.CallPushesTheReturnAddress : Prop :=
  ∀ (s : State) (a : Word),
    (s.cfg.stackMax ≠ some s.stk.length → s.cd.toNat ≠ 2 ^ 64 - 1 →
      exec (.call64 a) s = .next { s with stk := s.stk ++ [s.pc + 9], cd := s.cd + 1, pc := a }) ∧
    (s.cfg.stackMax = some s.stk.length → exec (.call64 a) s = .fault (.stackOverflow s.pc s.stk.length)) ∧
    (s.cfg.stackMax ≠ some s.stk.length → s.cd.toNat = 2 ^ 64 - 1 →
      exec (.call64 a) s = .fault (.callDepthOverflow s.pc s.cd))

/-- `RET` takes the top word as its target, unchecked, and counts `CD` down; an empty stack is found before a zero
counter (40_control_flow.md, RET). -/
def Obligations.ReturnPopsItsTarget : Prop :=
  ∀ s : State,
    (∀ (below : List Word) (w : Word), s.stk = below ++ [w] → s.cd ≠ 0 →
      exec .ret s = .next { s with stk := below, cd := s.cd - 1, pc := w }) ∧
    (s.stk = [] → exec .ret s = .fault (.stackUnderflow s.pc 0)) ∧
    (s.stk ≠ [] → s.cd = 0 → exec .ret s = .fault (.callDepthUnderflow s.pc))

/-- K nested calls followed by K returns restore the whole state and resume after the first call (40_control_flow.md,
balance: "restore CD to its pre-call value and resume IP immediately after the original Call site"). -/
def Obligations.NestedCallsAndReturnsBalance : Prop :=
  ∀ (targets : List Word) (s t : State), targets ≠ [] → callEach targets s = .next t →
    t.cd = s.cd + BitVec.ofNat 64 targets.length ∧
    returnTimes targets.length t = .next { s with pc := s.pc + 9 }

/-- `PUSH_64` puts its 64 bits on top; `POP_R` takes the top into its register; neither touches `CD`; a full or an
empty stack is a fault (42_stack.md). -/
def Obligations.PushAndPopMoveTheTop : Prop :=
  ∀ (s : State) (ra : Byte) (v : Word),
    (s.cfg.stackMax ≠ some s.stk.length →
      exec (.push64 v) s = .next { s with stk := s.stk ++ [v], pc := s.pc + 9 }) ∧
    (s.cfg.stackMax = some s.stk.length → exec (.push64 v) s = .fault (.stackOverflow s.pc s.stk.length)) ∧
    (∀ (below : List Word) (w : Word), ra.toNat < s.nreg → s.stk = below ++ [w] →
      exec (.popR ra) s = .next { s with regs := s.regs.set ra.toNat w, stk := below, pc := s.pc + 2 }) ∧
    (ra.toNat < s.nreg → s.stk = [] → exec (.popR ra) s = .fault (.stackUnderflow s.pc 0))

/-- The stack block's own operations: `Peek(off)`, `Pop(off)`, `Pop<T>` and `SetCount(n)`, with the word `off` below the
top written out, and their underflow (10_state.md section 4). That the condition carries the pc at the call is the
model's own choice (log 20): no rule gives these operations a `pc0`. -/
def Obligations.StackBlockOperations : Prop :=
  ∀ (s : State) (below above : List Word) (w : Word),
    (s.stk = below ++ w :: above →
      stackPeek above.length s = .ok w ∧
      stackPopAt above.length s = .ok (w, { s with stk := below ++ above })) ∧
    (s.stk = below ++ [w] → ∀ n,
      stackPopTyped false n s = .ok (BitVec.ofNat 64 (w.toNat % 2 ^ n), { s with stk := below }) ∧
      ∃ v, stackPopTyped true n s = .ok (v, { s with stk := below }) ∧
        (0 < n → n ≤ 64 → v.toInt = (w.toNat : Int).bmod (2 ^ n))) ∧
    (s.stk = below ++ above → stackSetCount below.length s = .ok { s with stk := below }) ∧
    (∀ n, s.stk.length ≤ n →
      stackPeek n s = .error (.stackUnderflow s.pc n) ∧ stackPopAt n s = .error (.stackUnderflow s.pc n)) ∧
    (∀ n, s.stk.length < n → stackSetCount n s = .error (.stackUnderflow s.pc n)) ∧
    (s.stk = [] → ∀ sgn n, stackPopTyped sgn n s = .error (.stackUnderflow s.pc 0))

/-! ### Ports -/

/-- `OUT_R_R` in privileged mode: the write reaches a registered port once and an unregistered one is silently ignored;
nothing else changes but the pc; with `P = 0` it is a privilege violation (43_io.md, OUT_R_R). -/
def Obligations.PortWritesReachRegisteredPorts : Prop :=
  ∀ (s : State) (ra rb : Byte),
    (s.privileged = true → ra.toNat < s.nreg → rb.toNat < s.nreg →
      (s.reg ra.toNat ∈ s.ports →
        exec (.outRR ra rb) s =
          .next { s with
            events := s.events ++ [.portWrite (s.reg ra.toNat) (s.reg rb.toNat)], pc := s.pc + 3 }) ∧
      (s.reg ra.toNat ∉ s.ports → exec (.outRR ra rb) s = .next { s with pc := s.pc + 3 })) ∧
    (s.privileged = false → exec (.outRR ra rb) s = .fault (.privilegeViolation s.pc 0x50))

/-- `IN_R_R` in privileged mode: the register takes the answer of a registered port, whatever the environment answers
(the first answer it has ready, or else a value nothing constrains), and 0 from an unregistered port, which is not
called; with `P = 0` it is a privilege violation (43_io.md, IN_R_R; the answers are free values, log 5). -/
def Obligations.PortReadsTakeTheAnswer : Prop :=
  ∀ (s : State) (ra rb : Byte),
    (s.privileged = true → ra.toNat < s.nreg → rb.toNat < s.nreg →
      (∀ (w : Word) (more : List Word), s.reg rb.toNat ∈ s.ports → s.env = w :: more →
        exec (.inRR ra rb) s =
          .next { s with
            regs := s.regs.set ra.toNat w, env := more, envCount := s.envCount + 1
            events := s.events ++ [.portRead (s.reg rb.toNat) w], pc := s.pc + 3 }) ∧
      (s.reg rb.toNat ∈ s.ports → s.env = [] →
        ∃ w, exec (.inRR ra rb) s =
          .next { s with
            regs := s.regs.set ra.toNat w, envCount := s.envCount + 1
            events := s.events ++ [.portRead (s.reg rb.toNat) w], pc := s.pc + 3 }) ∧
      (s.reg rb.toNat ∉ s.ports →
        exec (.inRR ra rb) s = .next { s with regs := s.regs.set ra.toNat 0, pc := s.pc + 3 })) ∧
    (s.privileged = false → exec (.inRR ra rb) s = .fault (.privilegeViolation s.pc 0x51))

/-! ### System instructions -/

/-- `HALT` sets `HALTED` and leaves the pc at the next instruction, in both modes (44_system.md, HALT). -/
def Obligations.HaltStopsAtTheNextInstruction : Prop :=
  ∀ s : State, exec .halt s = .next { s with halted := true, pc := s.pc + 1 }

/-- `RESET` in privileged mode: registers, pc, `CW`, `CD`, stack, table and `HALTED` take their reset values; memory,
ports, hook, dispatch frames, latch, parameters and trace stay; with `P = 0` it is a privilege violation
(44_system.md, RESET). -/
def Obligations.ResetRebuildsTheEngine : Prop :=
  ∀ s : State,
    (s.privileged = true →
      exec .reset s =
        .next { s with
          regs := List.replicate s.nreg 0, pc := 0, cw := s.cfg.cwReset, cd := 0, stk := [], ivt := []
          halted := false }) ∧
    (s.privileged = false → exec .reset s = .fault (.privilegeViolation s.pc 0x02))

/-- R121: `NCALL`, opcode `0x03`, one byte, always raises `NativeCallUnsupported`, in both modes. -/
def Obligations.NativeCallAlwaysFaults : Prop :=
  encode .ncall = [0x03#8] ∧ ∀ s : State, exec .ncall s = .fault (.nativeCallUnsupported s.pc)

/-- `INT_8` with the gate open and a handler registered: `P` is set, the hook is called if the host supplied one, the
address of the next instruction is pushed, `CD` counts up, the old `P` and the old `CD` are kept in a new frame, and
control goes to the handler. A full stack, then a full counter, is a fault (60_exceptions.md section 2, Interrupt and
DispatchEntry). -/
def Obligations.InterruptEntersItsHandler : Prop :=
  ∀ (s : State) (n : Byte) (a : Word), s.flag 4 = true → s.handler n.toNat = some a →
    (s.cfg.stackMax ≠ some s.stk.length → s.cd.toNat ≠ 2 ^ 64 - 1 →
      ∃ t, exec (.int8 n) s = .next t ∧
        t = { s with
          cw := t.cw
          events := if s.hook then s.events ++ [.hook n.toNat] else s.events
          stk := s.stk ++ [s.pc + 2]
          cd := s.cd + 1
          df := s.df ++ [⟨s.flag 0, s.cd⟩]
          pc := a } ∧
        ∀ k, t.flag k = if k = 0 then true else s.flag k) ∧
    (s.cfg.stackMax = some s.stk.length → exec (.int8 n) s = .fault (.stackOverflow s.pc s.stk.length)) ∧
    (s.cfg.stackMax ≠ some s.stk.length → s.cd.toNat = 2 ^ 64 - 1 →
      exec (.int8 n) s = .fault (.callDepthOverflow s.pc s.cd))

/-- `INT_8` with the gate closed only advances the pc; with the gate open and no handler the hook is called, `P` ends as
it was and `HALTED` is clear (60_exceptions.md section 2, Interrupt). -/
def Obligations.InterruptWithoutHandlerOrGate : Prop :=
  ∀ (s : State) (n : Byte),
    (s.flag 4 = false → exec (.int8 n) s = .next { s with pc := s.pc + 2 }) ∧
    (s.flag 4 = true → s.handler n.toNat = none →
      exec (.int8 n) s =
        .next { s with
          halted := false
          events := if s.hook then s.events ++ [.hook n.toNat] else s.events
          pc := s.pc + 2 })

/-- `SETINT_8_64` in privileged mode gives its number the handler, replacing an older one, and no other number one;
nothing else changes but the pc; with `P = 0` it is a privilege violation (44_system.md, SETINT_8_64). -/
def Obligations.SetIntRegistersOneHandler : Prop :=
  ∀ (s : State) (n : Byte) (a : Word),
    (s.privileged = true →
      ∃ t, exec (.setint8_64 n a) s = .next t ∧ t = { s with ivt := t.ivt, pc := s.pc + 10 } ∧
        ∀ m, t.handler m = if m = n.toNat then some a else s.handler m) ∧
    (s.privileged = false → exec (.setint8_64 n a) s = .fault (.privilegeViolation s.pc 0x61))

/-- `SETF_8` and `CLRF_8` in privileged mode write the one bit their index names, and nothing else but the pc; an index
above 4 is `FlagIndexOutOfRange`; with `P = 0` they are privilege violations (44_system.md, SETF_8 and CLRF_8). -/
def Obligations.FlagInstructionsWriteOneBit : Prop :=
  ∀ (s : State) (k : Byte),
    (s.privileged = true → k.toNat ≤ 4 →
      (∃ t, exec (.setf8 k) s = .next t ∧ t = { s with cw := t.cw, pc := s.pc + 2 } ∧
        ∀ j, t.flag j = if j = k.toNat then true else s.flag j) ∧
      (∃ t, exec (.clrf8 k) s = .next t ∧ t = { s with cw := t.cw, pc := s.pc + 2 } ∧
        ∀ j, t.flag j = if j = k.toNat then false else s.flag j)) ∧
    (s.privileged = true → 4 < k.toNat →
      exec (.setf8 k) s = .fault (.flagIndexOutOfRange s.pc k) ∧
      exec (.clrf8 k) s = .fault (.flagIndexOutOfRange s.pc k)) ∧
    (s.privileged = false →
      exec (.setf8 k) s = .fault (.privilegeViolation s.pc 0x62) ∧
      exec (.clrf8 k) s = .fault (.privilegeViolation s.pc 0x63))

/-! ### Dispatches -/

/-- R173: the end-of-dispatch test closes the innermost frames whose `rec` is `CD`, all of them and no other: `kept` is
what stays and its last frame, if any, has another `rec`. If any closes, `P` is the `savedP` of the outermost of them and
`HALTED` is 0; nothing else changes. -/
def Obligations.DispatchTestClosesFinishedFrames : Prop :=
  ∀ s : State, ∃ kept closed : List DispatchFrame,
    s.df = kept ++ closed ∧ (∀ f ∈ closed, f.recDepth = s.cd) ∧ (∀ f ∈ kept.getLast?, f.recDepth ≠ s.cd) ∧
    (closed = [] → endOfDispatchTest s = s) ∧
    (∀ f ∈ closed.head?,
      endOfDispatchTest s =
        { s with df := kept, halted := false, cw := (endOfDispatchTest s).cw } ∧
      ∀ k, (endOfDispatchTest s).flag k = if k = 0 then f.savedP else s.flag k)

/-- A step that leaves fewer dispatch frames than it found closed the innermost ones only, did so with `CD` at the value
recorded for the outermost of them, restored the privilege that one saved, whatever the handler did to `P`, and left the
engine running (60_exceptions.md section 2; 70_reset_and_hazards.md, changes of P are lost). -/
def Obligations.DispatchEndRestoresPrivilege : Prop :=
  ∀ s t : State, step s = .next t → t.df.length < s.df.length →
    t.df = s.df.take t.df.length ∧ t.halted = false ∧
    ∀ f ∈ s.df[t.df.length]?, t.privileged = f.savedP ∧ t.cd = f.recDepth

/-- An interrupt whose handler returns at once: `INT_8` at `s`, then `RET`, then the end-of-dispatch test. The
interrupted code resumes after the `INT_8` with `P`, `CD` and the stack as before; only the hook call is left in the
trace (60_exceptions.md section 2, "restores the pre-interrupt Privileged value, and leaves CD unchanged afterward"). -/
def Obligations.ReturningHandlerRestoresEverything : Prop :=
  ∀ (s t u : State) (n : Byte) (a : Word), DispatchOpen s → s.flag 4 = true → s.handler n.toNat = some a →
    exec (.int8 n) s = .next t → exec .ret t = .next u →
    endOfDispatchTest t = t ∧
    endOfDispatchTest u =
      { s with
        pc := s.pc + 2, halted := false, events := if s.hook then s.events ++ [.hook n.toNat] else s.events }

/-- In unprivileged mode no step changes the interrupt vector table, the interrupt gate or a reserved bit of the control
word, and none reaches a port (60_exceptions.md section 5). -/
def Obligations.UserModeCannotReachProtectedState : Prop :=
  ∀ s t : State, s.privileged = false → step s = .next t →
    t.ivt = s.ivt ∧ (∀ k, 4 ≤ k → t.flag k = s.flag k) ∧
    ∃ more, t.events = s.events ++ more ∧
      ∀ e ∈ more, (∃ n, e = .hook n) ∨ ∃ a b, e = .frontGet a b

/-- Unprivileged code becomes privileged in one step in two ways only: through `INT_8` into the handler that the table
holds for its number, keeping `P = 0` in the new frame, or by ending a dispatch that saved `P = 1` (60_exceptions.md
sections 2 and 5). -/
def Obligations.PrivilegeIsGainedThroughDispatchOnly : Prop :=
  ∀ s t : State, s.privileged = false → step s = .next t → t.privileged = true →
    (∃ n : Byte, s.handler n.toNat = some t.pc ∧ s.flag 4 = true ∧ t.df = s.df ++ [⟨false, s.cd⟩]) ∨
    (t.df.length < s.df.length ∧ ∀ f ∈ s.df[t.df.length]?, f.savedP = true)

/-- If `HALTED` is 1 while a dispatch is in progress, the dispatch never ends: however many micro-steps the host's call
may run, it is still running in the same state (70_reset_and_hazards.md, halting during a dispatch). -/
def Obligations.HaltInsideADispatchNeverEnds : Prop :=
  ∀ (s : State) (d n : Nat) (r : CallResult), Resting s → d < s.df.length → runToDepth d r n s = .running s

/-! ### Whole-machine rules -/

/-- No step writes memory, the parameters, the port table, the hook, the number of registers or the fault latch, and the
trace only grows (20_memory.md section 1: "The engine never writes memory"; 10_state.md sections 8 and 11). -/
def Obligations.StepLeavesTheHostsObjects : Prop :=
  ∀ s t : State, step s = .next t →
    t.mem = s.mem ∧ t.cfg = s.cfg ∧ t.ports = s.ports ∧ t.hook = s.hook ∧ t.nreg = s.nreg ∧ t.fault = s.fault ∧
    s.events <+: t.events

/-- The invariant is kept by every step from every state that has it: canonical memory inside `MEM_SIZE`, handler numbers
0..255, a canonical port table, a stack within its capacity, a register file of 1 to 256 registers, and between
micro-steps an innermost dispatch that is still open. -/
def Obligations.StepKeepsTheInvariant : Prop :=
  ∀ s t : State, s.Inv → step s = .next t → t.Inv

/-- The reset state has the invariant. -/
def Obligations.ResetStateHasTheInvariant : Prop :=
  State.reset.Inv

/-- Every engine the host can construct has the invariant (10_state.md section 9; the limits of 00_scope.md section 4). -/
def Obligations.ConstructedEngineHasTheInvariant : Prop :=
  ∀ (nreg : Nat) (cfg : Config) (mem : Memory) (ports : List Word) (hook : Bool),
    1 ≤ nreg → nreg ≤ 256 → cfg.wf → Memory.wf mem → (∀ c ∈ mem, c.1 < cfg.memSize) →
    (ports.map BitVec.toNat).Pairwise (· < ·) →
    (construct nreg cfg mem ports hook).Inv

/-- Every move of the host keeps the invariant, a host step or a host interrupt with all the micro-steps of its handler
included (60_exceptions.md section 4). -/
def Obligations.HostMovesKeepTheInvariant : Prop :=
  ∀ (n : Nat) (m : HostMove) (s t : State), s.Inv → (hostMove n m s).state? = some t → t.Inv

/-! ### The host interface -/

/-- The host's `Interrupt(n)` on a halted engine outside any dispatch: with the gate closed nothing at all happens; with
the gate open and no handler the engine wakes after its `HALT`; with a handler the frame is pushed but the handler never
runs and the call never returns; and `n > 255` is a fatal condition (60_exceptions.md section 6; 70_reset_and_hazards.md,
halting during a dispatch). -/
def Obligations.HostInterruptOnAHaltedEngine : Prop :=
  ∀ (s : State) (n k : Nat), Resting s → s.df = [] →
    (k ≤ 255 → s.flag 4 = false → hostInterrupt n k s = .returned .unit s) ∧
    (k ≤ 255 → s.flag 4 = true → s.handler k = none →
      hostInterrupt n k s =
        .returned .unit
          { s with halted := false, events := if s.hook then s.events ++ [.hook k] else s.events }) ∧
    (∀ a, k ≤ 255 → s.flag 4 = true → s.handler k = some a → s.cfg.stackMax ≠ some s.stk.length →
      s.cd.toNat ≠ 2 ^ 64 - 1 →
      ∃ t, hostInterrupt n k s = .running t ∧ t.halted = true ∧ t.pc = a ∧ t.stk = s.stk ++ [s.pc] ∧
        t.df = [⟨s.flag 0, s.cd⟩]) ∧
    (255 < k →
      ∃ t, hostInterrupt n k s = .returned (.fault (.interruptIndexOutOfRange s.pc k)) t ∧
        t.fault = some (.interruptIndexOutOfRange s.pc k))

/-- The host's Reset gives the state of a newly constructed engine over the same parameters, memory, ports and hook, with
no dispatch frame and no latched fault; only the model's own trace and answers go on (10_state.md section 9;
70_reset_and_hazards.md section 1). -/
def Obligations.HostResetEqualsConstruction : Prop :=
  ∀ s : State,
    hostReset s =
      { construct s.nreg s.cfg s.mem s.ports s.hook with
        events := s.events, env := s.env, envCount := s.envCount } ∧
    (betweenHostSteps s = true → ∀ n, hostMove n .reset s = .returned .unit (hostReset s))

/-- What the host writes it reads back, little-endian and cut to the width, and every other address keeps its byte
(20_memory.md section 1). Between host steps it can make both moves; inside a dispatch it can read and write neither
memory nor the control word, with or without a front (60_exceptions.md section 4). For a width other than 1, 2, 4 and 8
the spec defines no access: what the statement says there is the model's own choice (log 31). -/
def Obligations.HostWriteReadsBack : Prop :=
  (∀ (a n v : Nat) (s t : State), NoFront s → memWrite a n v s = .ok t →
    hostMemRead a n t = .ok (v % 256 ^ n, t) ∧
    (∀ k, k < n → (t.mem.read (a + k)).toNat = v / 256 ^ k % 256) ∧
    (∀ b, b < a ∨ a + n ≤ b → t.mem.read b = s.mem.read b) ∧
    t = { s with mem := t.mem }) ∧
  (∀ (a n v k : Nat) (s t : State), NoFront s → memWrite a n v s = .ok t → betweenHostSteps s = true →
    hostMove k (.writeMemory a n v) s = .returned .unit t ∧
    hostMove k (.readMemory a n) t = .returned (.value (v % 256 ^ n)) t) ∧
  (∀ (a n v k : Nat) (w : Word) (s : State), s.df ≠ [] → s.fault = none →
    hostMove k (.readMemory a n) s = .notAllowed ∧ hostMove k (.writeMemory a n v) s = .notAllowed ∧
    hostMove k .readControlWord s = .notAllowed ∧ hostMove k (.writeControlWord w) s = .notAllowed)

/-- A program image that fits stands byte for byte from address 0 after loading, and the memory past it is as before;
one that does not fit cannot be loaded (20_memory.md section 4; 70_reset_and_hazards.md section 1). What the failed load
reports is the model's own choice: the loader writes byte by byte, so the condition names the first address outside
memory (log 16), and it carries the pc at the call (log 20). -/
def Obligations.LoadedImageStandsAtZero : Prop :=
  ∀ (image : List Byte) (s : State), NoFront s →
    (image.length ≤ s.cfg.memSize →
      ∃ t, loadImage image s = .ok t ∧ t = { s with mem := t.mem } ∧
        bytesAt t 0 image.length = image ∧ ∀ a, image.length ≤ a → t.mem.read a = s.mem.read a) ∧
    (s.cfg.memSize < image.length → loadImage image s = .error (.memoryOutOfRange s.pc s.cfg.memSize))

/-- `ReadString` gives the bytes after a 4-byte little-endian length, in memory; the inline form advances the pc past
them (20_memory.md, ReadString). -/
def Obligations.ReadStringReturnsTheBytes : Prop :=
  ∀ (s : State) (pc0 : Word) (a : Nat) (text : List Byte), NoFront s → text.length < 2 ^ 32 →
    a + 4 + text.length ≤ s.cfg.memSize → bytesAt s a (4 + text.length) = leBytes 4 text.length ++ text →
    readString pc0 a s = .ok (text, s) ∧
    (a = s.pc.toNat →
      fetchString pc0 s = .ok (text, { s with pc := s.pc + BitVec.ofNat 64 (4 + text.length) }))

/-! ### Frames -/

/-- Frame of the register-only instructions: moves, add, subtract and the narrow loads change their first register and
the pc, and with a front the answers and the trace of the load. -/
def Obligations.RegisterInstructionFrame : Prop :=
  ∀ (s t : State) (i : Instr) (ra rb : Byte) (imm : Word),
    i ∈ [.movR64 ra imm, .movRR ra rb, .addRR ra rb, .addR64 ra imm, .subRR ra rb, .subR64 ra imm, .ld8RR ra rb,
      .ld32RR ra rb] →
    exec i s = .next t →
    (∀ j, j ≠ ra.toNat → t.reg j = s.reg j) ∧ t.nreg = s.nreg ∧ (∀ k, t.flag k = s.flag k) ∧ t.cd = s.cd ∧
    t.stk = s.stk ∧ t.ivt = s.ivt ∧ t.halted = s.halted ∧ t.df = s.df ∧ t.fault = s.fault ∧
    (∀ a, t.mem.read a = s.mem.read a) ∧ t.ports = s.ports ∧ t.hook = s.hook ∧ t.cfg = s.cfg ∧
    (NoFront s → t.events = s.events ∧ t.env = s.env ∧ t.envCount = s.envCount)

/-- Frame of the instructions that move the pc, the stack, the call depth or the condition flags: compare, jumps, call,
return, push, pop and halt. `POP_R` changes its register; compare changes bits 1 to 3 of the control word; call and
return change `CD` and the stack; push and pop change the stack; halt changes `HALTED`. -/
def Obligations.ControlAndStackFrame : Prop :=
  ∀ (s t : State) (i : Instr) (ra rb : Byte) (v : Word),
    i ∈ [.cmpRR ra rb, .jmp64 v, .je64 v, .jl64 v, .jg64 v, .call64 v, .ret, .push64 v, .popR ra, .halt] →
    exec i s = .next t →
    (∀ j, i = .popR ra ∧ j = ra.toNat ∨ t.reg j = s.reg j) ∧ t.nreg = s.nreg ∧
    (∀ k, i = .cmpRR ra rb ∧ 1 ≤ k ∧ k ≤ 3 ∨ t.flag k = s.flag k) ∧
    (i = .call64 v ∨ i = .ret ∨ t.cd = s.cd) ∧
    (i = .call64 v ∨ i = .ret ∨ i = .push64 v ∨ i = .popR ra ∨ t.stk = s.stk) ∧
    (i = .halt ∨ t.halted = s.halted) ∧
    t.ivt = s.ivt ∧ t.df = s.df ∧ t.fault = s.fault ∧ (∀ a, t.mem.read a = s.mem.read a) ∧ t.ports = s.ports ∧
    t.hook = s.hook ∧ t.cfg = s.cfg ∧ t.events = s.events ∧ t.env = s.env ∧ t.envCount = s.envCount

/-- Frame of the port and system instructions: `OUT_R_R`, `IN_R_R`, `INT_8`, `SETINT_8_64`, `SETF_8`, `CLRF_8`, `RESET`.
`IN_R_R` changes its register, the answers and the trace; `OUT_R_R` the trace; `INT_8` `P`, `HALTED`, the stack, `CD`,
the frames and the trace; `SETINT_8_64` the table; the flag instructions their bit; `RESET` what Reset rebuilds. -/
def Obligations.PortAndSystemFrame : Prop :=
  ∀ (s t : State) (i : Instr) (ra rb n : Byte) (v : Word),
    i ∈ [.outRR ra rb, .inRR ra rb, .int8 n, .setint8_64 n v, .setf8 n, .clrf8 n, .reset] →
    exec i s = .next t →
    (∀ j, i = .reset ∨ i = .inRR ra rb ∧ j = ra.toNat ∨ t.reg j = s.reg j) ∧ t.nreg = s.nreg ∧
    (∀ k, i = .reset ∨ (i = .setf8 n ∨ i = .clrf8 n) ∧ k = n.toNat ∨ i = .int8 n ∧ k = 0 ∨ t.flag k = s.flag k) ∧
    (i = .reset ∨ i = .int8 n ∨ t.cd = s.cd ∧ t.stk = s.stk ∧ t.halted = s.halted) ∧
    (i = .reset ∨ i = .setint8_64 n v ∨ t.ivt = s.ivt) ∧
    (i = .int8 n ∨ t.df = s.df) ∧
    (i = .inRR ra rb ∨ t.env = s.env ∧ t.envCount = s.envCount) ∧
    (i = .inRR ra rb ∨ i = .outRR ra rb ∨ i = .int8 n ∨ t.events = s.events) ∧
    t.fault = s.fault ∧ (∀ a, t.mem.read a = s.mem.read a) ∧ t.ports = s.ports ∧ t.hook = s.hook ∧ t.cfg = s.cfg

/-! ### The assembler -/

/-- No token is empty, whatever the source and the configured characters (49_assembler.md section 1). -/
def Obligations.TokensAreNonEmpty : Prop :=
  ∀ (lc : LexConfig) (src : List Char) (ts : List Token), tokenize lc src = .ok ts → ∀ t ∈ ts, t ≠ []

/-- Every address-of that the second pass writes is the summed size of the objects before its label (an offset of 2^64 or
more has no stated bytes, log 25), and one without a label fails. In an assembled image the sequence is the first pass's
text and then its data, every address-of has a label in it, and its eight bytes, at its own place in the image, are the
offset of that label (49_assembler.md section 2, resolution). -/
def Obligations.AddressOfIsItsLabelsOffset : Prop :=
  (∀ (name : Token) (before after : List Obj), .label name ∉ before → objsSize before < 2 ^ 64 →
    objBytes (before ++ .label name :: after) (.addrOf name) = .ok (leBytes 8 (objsSize before))) ∧
  (∀ (name : Token) (os before after : List Obj), .label name ∉ os → os = before ++ .addrOf name :: after →
    ∃ e, serialize os os = .error e) ∧
  (∀ (lc : LexConfig) (src : List Char) (image : List Byte), assembleWith lc src = .ok image →
    ∃ ts p, tokenize lc src = .ok ts ∧ firstPass ts = .ok p ∧
      ∀ (name : Token) (before after : List Obj), p.text ++ p.data = before ++ .addrOf name :: after →
        ∃ ahead behind : List Obj, p.text ++ p.data = ahead ++ .label name :: behind ∧ .label name ∉ ahead ∧
          (objsSize ahead < 2 ^ 64 → (image.drop (objsSize before)).take 8 = leBytes 8 (objsSize ahead)))

/-- The second pass writes the bytes of the objects in order, nothing between, as many as their sizes say; and an
assembled image is what it writes for the first pass's text sequence followed by its data sequence: the text objects'
bytes from offset 0, each at the summed size of those before it, and the data objects' bytes from the size of the text
on (49_assembler.md section 2, output). -/
def Obligations.ImageIsTheObjectsInOrder : Prop :=
  (∀ (os : List Obj) (image : List Byte), serialize os os = .ok image →
    image.length = objsSize os ∧
    ∀ (before after : List Obj) (o : Obj), os = before ++ o :: after →
      objBytes os o = .ok ((image.drop (objsSize before)).take o.size)) ∧
  (∀ (lc : LexConfig) (src : List Char) (image : List Byte), assembleWith lc src = .ok image →
    ∃ ts p, tokenize lc src = .ok ts ∧ firstPass ts = .ok p ∧
      image.length = objsSize p.text + objsSize p.data ∧
      (∀ (before after : List Obj) (o : Obj), p.text = before ++ o :: after →
        objBytes (p.text ++ p.data) o = .ok ((image.drop (objsSize before)).take o.size)) ∧
      ∀ (before after : List Obj) (o : Obj), p.data = before ++ o :: after →
        objBytes (p.text ++ p.data) o = .ok ((image.drop (objsSize p.text + objsSize before)).take o.size))

/-- R147, its core: interning a literal a second time adds nothing to the data sequence and emits the same address-of as
the first time; and the first time, if no equal entry stands there, appends one label and the value. -/
def Obligations.InterningStoresEqualLiteralsOnce : Prop :=
  ∀ (p q r : Pass) (l : Literal), internLiteral p l = .ok q → internLiteral q l = .ok r →
    r.data = q.data ∧ r.nextData = q.nextData ∧
    (∃ name, q.text = p.text ++ [.addrOf name] ∧ r.text = q.text ++ [.addrOf name]) ∧
    (findInterned l p.data = none →
      q.data = p.data ++ [.label (dataLabel p.nextData), .lit l] ∧ q.nextData = p.nextData + 1)
end

