-- ==== Sys2Proof/Laws/Assembler.lean ====
section
/-! SUPPORT. Sizes in the assembler's second pass. -/

namespace Sys2Proof.Machine

/-- An object's bytes are as many as its size says (R145). -/
theorem objBytes_length {os : List Obj} {o : Obj} {bs : List Byte} (h : objBytes os o = .ok bs) : bs.length = o.size := by
  cases o with
  | op b =>
    simp only [objBytes, Except.ok.injEq] at h
    subst h
    rfl
  | lit l =>
    simp only [objBytes, Except.ok.injEq] at h
    subst h
    rfl
  | label name =>
    simp only [objBytes, Except.ok.injEq] at h
    subst h
    rfl
  | addrOf name =>
    simp only [objBytes] at h
    split at h
    · simp only [Except.ok.injEq] at h
      subst h
      simp [Obj.size]
    · simp at h

@[simp] theorem objsSize_nil : objsSize [] = 0 := rfl

@[simp] theorem objsSize_cons (o : Obj) (os : List Obj) : objsSize (o :: os) = o.size + objsSize os := by
  simp [objsSize]

@[simp] theorem objsSize_append (os os' : List Obj) : objsSize (os ++ os') = objsSize os + objsSize os' := by
  simp [objsSize]

/-- The second pass of a sequence is its first object's bytes and then the rest's. -/
theorem serialize_cons_ok {all rest : List Obj} {o : Obj} {image : List Byte} :
    serialize all (o :: rest) = .ok image ↔
      ∃ bs more, objBytes all o = .ok bs ∧ serialize all rest = .ok more ∧ image = bs ++ more := by
  rw [serialize]
  cases objBytes all o with
  | error e => simp
  | ok bs => cases serialize all rest <;> simp [Except.map, eq_comm]

/-- Everything the assembler does when it answers an image: tokens, a first pass, and the second pass over its text
followed by its data (R140, R146). -/
theorem assembleWith_ok {lc : LexConfig} {src : List Char} {image : List Byte} :
    assembleWith lc src = .ok image ↔
      ∃ ts p, tokenize lc src = .ok ts ∧ firstPass ts = .ok p ∧
        serialize (p.text ++ p.data) (p.text ++ p.data) = .ok image := by
  unfold assembleWith
  cases tokenize lc src with
  | error e => simp
  | ok ts => cases h : firstPass ts <;> simp [h]

/-- A label that stands in a sequence has the offset of its first occurrence (R148). -/
theorem labelOffset_eq_some {name : Token} {os : List Obj} {acc n : Nat} :
    labelOffset name acc os = some n ↔
      ∃ ahead behind, os = ahead ++ .label name :: behind ∧ .label name ∉ ahead ∧ n = acc + objsSize ahead := by
  induction os generalizing acc with
  | nil => simp [labelOffset]
  | cons o os ih =>
    rw [labelOffset]
    split
    · rename_i ho
      subst ho
      constructor
      · intro h
        exact ⟨[], os, rfl, by simp, by simpa using h.symm⟩
      · rintro ⟨ahead, behind, h, hn, rfl⟩
        cases ahead with
        | nil => simp
        | cons o' ahead =>
          simp only [List.cons_append, List.cons.injEq] at h
          exact absurd h.1 (fun e => hn (by simp [← e]))
    · rename_i ho
      rw [ih]
      constructor
      · rintro ⟨ahead, behind, rfl, hn, rfl⟩
        exact ⟨o :: ahead, behind, rfl, by simp [hn, Ne.symm ho], by simp [Nat.add_assoc]⟩
      · rintro ⟨ahead, behind, h, hn, rfl⟩
        cases ahead with
        | nil =>
          simp only [List.nil_append, List.cons.injEq] at h
          exact absurd h.1 ho
        | cons o' ahead =>
          simp only [List.cons_append, List.cons.injEq] at h
          obtain ⟨rfl, rfl⟩ := h
          exact ⟨ahead, behind, rfl, fun e => hn (by simp [e]), by simp [Nat.add_assoc]⟩

end Sys2Proof.Machine
end

