-- ==== Sys2Proof/Laws/State.lean ====
section
/-! SUPPORT. For every named update of the state, what each field is after it. -/

namespace Sys2Proof.Machine

section
variable (s : State)

/-! `setReg` -/

@[simp] theorem State.setReg_cfg (i : Nat) (v : Word) : (s.setReg i v).cfg = s.cfg := rfl
@[simp] theorem State.setReg_regs (i : Nat) (v : Word) : (s.setReg i v).regs = s.regs.set i v := rfl
@[simp] theorem State.setReg_pc (i : Nat) (v : Word) : (s.setReg i v).pc = s.pc := rfl
@[simp] theorem State.setReg_cw (i : Nat) (v : Word) : (s.setReg i v).cw = s.cw := rfl
@[simp] theorem State.setReg_cd (i : Nat) (v : Word) : (s.setReg i v).cd = s.cd := rfl
@[simp] theorem State.setReg_stk (i : Nat) (v : Word) : (s.setReg i v).stk = s.stk := rfl
@[simp] theorem State.setReg_ivt (i : Nat) (v : Word) : (s.setReg i v).ivt = s.ivt := rfl
@[simp] theorem State.setReg_halted (i : Nat) (v : Word) : (s.setReg i v).halted = s.halted := rfl
@[simp] theorem State.setReg_df (i : Nat) (v : Word) : (s.setReg i v).df = s.df := rfl
@[simp] theorem State.setReg_fault (i : Nat) (v : Word) : (s.setReg i v).fault = s.fault := rfl
@[simp] theorem State.setReg_mem (i : Nat) (v : Word) : (s.setReg i v).mem = s.mem := rfl
@[simp] theorem State.setReg_ports (i : Nat) (v : Word) : (s.setReg i v).ports = s.ports := rfl
@[simp] theorem State.setReg_hook (i : Nat) (v : Word) : (s.setReg i v).hook = s.hook := rfl
@[simp] theorem State.setReg_events (i : Nat) (v : Word) : (s.setReg i v).events = s.events := rfl
@[simp] theorem State.setReg_env (i : Nat) (v : Word) : (s.setReg i v).env = s.env := rfl
@[simp] theorem State.setReg_envCount (i : Nat) (v : Word) : (s.setReg i v).envCount = s.envCount := rfl

/-! `setFlag` -/

@[simp] theorem State.setFlag_cfg (k : Nat) (b : Bool) : (s.setFlag k b).cfg = s.cfg := rfl
@[simp] theorem State.setFlag_regs (k : Nat) (b : Bool) : (s.setFlag k b).regs = s.regs := rfl
@[simp] theorem State.setFlag_pc (k : Nat) (b : Bool) : (s.setFlag k b).pc = s.pc := rfl
@[simp] theorem State.setFlag_cw (k : Nat) (b : Bool) : (s.setFlag k b).cw = setBit s.cw k b := rfl
@[simp] theorem State.setFlag_cd (k : Nat) (b : Bool) : (s.setFlag k b).cd = s.cd := rfl
@[simp] theorem State.setFlag_stk (k : Nat) (b : Bool) : (s.setFlag k b).stk = s.stk := rfl
@[simp] theorem State.setFlag_ivt (k : Nat) (b : Bool) : (s.setFlag k b).ivt = s.ivt := rfl
@[simp] theorem State.setFlag_halted (k : Nat) (b : Bool) : (s.setFlag k b).halted = s.halted := rfl
@[simp] theorem State.setFlag_df (k : Nat) (b : Bool) : (s.setFlag k b).df = s.df := rfl
@[simp] theorem State.setFlag_fault (k : Nat) (b : Bool) : (s.setFlag k b).fault = s.fault := rfl
@[simp] theorem State.setFlag_mem (k : Nat) (b : Bool) : (s.setFlag k b).mem = s.mem := rfl
@[simp] theorem State.setFlag_ports (k : Nat) (b : Bool) : (s.setFlag k b).ports = s.ports := rfl
@[simp] theorem State.setFlag_hook (k : Nat) (b : Bool) : (s.setFlag k b).hook = s.hook := rfl
@[simp] theorem State.setFlag_events (k : Nat) (b : Bool) : (s.setFlag k b).events = s.events := rfl
@[simp] theorem State.setFlag_env (k : Nat) (b : Bool) : (s.setFlag k b).env = s.env := rfl
@[simp] theorem State.setFlag_envCount (k : Nat) (b : Bool) : (s.setFlag k b).envCount = s.envCount := rfl

/-! `advance` -/

@[simp] theorem State.advance_cfg (n : Nat) : (s.advance n).cfg = s.cfg := rfl
@[simp] theorem State.advance_regs (n : Nat) : (s.advance n).regs = s.regs := rfl
@[simp] theorem State.advance_pc (n : Nat) : (s.advance n).pc = s.pc + BitVec.ofNat 64 n := rfl
@[simp] theorem State.advance_cw (n : Nat) : (s.advance n).cw = s.cw := rfl
@[simp] theorem State.advance_cd (n : Nat) : (s.advance n).cd = s.cd := rfl
@[simp] theorem State.advance_stk (n : Nat) : (s.advance n).stk = s.stk := rfl
@[simp] theorem State.advance_ivt (n : Nat) : (s.advance n).ivt = s.ivt := rfl
@[simp] theorem State.advance_halted (n : Nat) : (s.advance n).halted = s.halted := rfl
@[simp] theorem State.advance_df (n : Nat) : (s.advance n).df = s.df := rfl
@[simp] theorem State.advance_fault (n : Nat) : (s.advance n).fault = s.fault := rfl
@[simp] theorem State.advance_mem (n : Nat) : (s.advance n).mem = s.mem := rfl
@[simp] theorem State.advance_ports (n : Nat) : (s.advance n).ports = s.ports := rfl
@[simp] theorem State.advance_hook (n : Nat) : (s.advance n).hook = s.hook := rfl
@[simp] theorem State.advance_events (n : Nat) : (s.advance n).events = s.events := rfl
@[simp] theorem State.advance_env (n : Nat) : (s.advance n).env = s.env := rfl
@[simp] theorem State.advance_envCount (n : Nat) : (s.advance n).envCount = s.envCount := rfl

/-! `jump` -/

@[simp] theorem State.jump_cfg (t : Word) : (s.jump t).cfg = s.cfg := rfl
@[simp] theorem State.jump_regs (t : Word) : (s.jump t).regs = s.regs := rfl
@[simp] theorem State.jump_pc (t : Word) : (s.jump t).pc = t := rfl
@[simp] theorem State.jump_cw (t : Word) : (s.jump t).cw = s.cw := rfl
@[simp] theorem State.jump_cd (t : Word) : (s.jump t).cd = s.cd := rfl
@[simp] theorem State.jump_stk (t : Word) : (s.jump t).stk = s.stk := rfl
@[simp] theorem State.jump_ivt (t : Word) : (s.jump t).ivt = s.ivt := rfl
@[simp] theorem State.jump_halted (t : Word) : (s.jump t).halted = s.halted := rfl
@[simp] theorem State.jump_df (t : Word) : (s.jump t).df = s.df := rfl
@[simp] theorem State.jump_fault (t : Word) : (s.jump t).fault = s.fault := rfl
@[simp] theorem State.jump_mem (t : Word) : (s.jump t).mem = s.mem := rfl
@[simp] theorem State.jump_ports (t : Word) : (s.jump t).ports = s.ports := rfl
@[simp] theorem State.jump_hook (t : Word) : (s.jump t).hook = s.hook := rfl
@[simp] theorem State.jump_events (t : Word) : (s.jump t).events = s.events := rfl
@[simp] theorem State.jump_env (t : Word) : (s.jump t).env = s.env := rfl
@[simp] theorem State.jump_envCount (t : Word) : (s.jump t).envCount = s.envCount := rfl

/-! `push` -/

@[simp] theorem State.push_cfg (w : Word) : (s.push w).cfg = s.cfg := rfl
@[simp] theorem State.push_regs (w : Word) : (s.push w).regs = s.regs := rfl
@[simp] theorem State.push_pc (w : Word) : (s.push w).pc = s.pc := rfl
@[simp] theorem State.push_cw (w : Word) : (s.push w).cw = s.cw := rfl
@[simp] theorem State.push_cd (w : Word) : (s.push w).cd = s.cd := rfl
@[simp] theorem State.push_stk (w : Word) : (s.push w).stk = s.stk ++ [w] := rfl
@[simp] theorem State.push_ivt (w : Word) : (s.push w).ivt = s.ivt := rfl
@[simp] theorem State.push_halted (w : Word) : (s.push w).halted = s.halted := rfl
@[simp] theorem State.push_df (w : Word) : (s.push w).df = s.df := rfl
@[simp] theorem State.push_fault (w : Word) : (s.push w).fault = s.fault := rfl
@[simp] theorem State.push_mem (w : Word) : (s.push w).mem = s.mem := rfl
@[simp] theorem State.push_ports (w : Word) : (s.push w).ports = s.ports := rfl
@[simp] theorem State.push_hook (w : Word) : (s.push w).hook = s.hook := rfl
@[simp] theorem State.push_events (w : Word) : (s.push w).events = s.events := rfl
@[simp] theorem State.push_env (w : Word) : (s.push w).env = s.env := rfl
@[simp] theorem State.push_envCount (w : Word) : (s.push w).envCount = s.envCount := rfl

/-! `emit` -/

@[simp] theorem State.emit_cfg (e : Event) : (s.emit e).cfg = s.cfg := rfl
@[simp] theorem State.emit_regs (e : Event) : (s.emit e).regs = s.regs := rfl
@[simp] theorem State.emit_pc (e : Event) : (s.emit e).pc = s.pc := rfl
@[simp] theorem State.emit_cw (e : Event) : (s.emit e).cw = s.cw := rfl
@[simp] theorem State.emit_cd (e : Event) : (s.emit e).cd = s.cd := rfl
@[simp] theorem State.emit_stk (e : Event) : (s.emit e).stk = s.stk := rfl
@[simp] theorem State.emit_ivt (e : Event) : (s.emit e).ivt = s.ivt := rfl
@[simp] theorem State.emit_halted (e : Event) : (s.emit e).halted = s.halted := rfl
@[simp] theorem State.emit_df (e : Event) : (s.emit e).df = s.df := rfl
@[simp] theorem State.emit_fault (e : Event) : (s.emit e).fault = s.fault := rfl
@[simp] theorem State.emit_mem (e : Event) : (s.emit e).mem = s.mem := rfl
@[simp] theorem State.emit_ports (e : Event) : (s.emit e).ports = s.ports := rfl
@[simp] theorem State.emit_hook (e : Event) : (s.emit e).hook = s.hook := rfl
@[simp] theorem State.emit_events (e : Event) : (s.emit e).events = s.events ++ [e] := rfl
@[simp] theorem State.emit_env (e : Event) : (s.emit e).env = s.env := rfl
@[simp] theorem State.emit_envCount (e : Event) : (s.emit e).envCount = s.envCount := rfl

/-! `answered` -/

@[simp] theorem State.answered_cfg : (s.answered).cfg = s.cfg := rfl
@[simp] theorem State.answered_regs : (s.answered).regs = s.regs := rfl
@[simp] theorem State.answered_pc : (s.answered).pc = s.pc := rfl
@[simp] theorem State.answered_cw : (s.answered).cw = s.cw := rfl
@[simp] theorem State.answered_cd : (s.answered).cd = s.cd := rfl
@[simp] theorem State.answered_stk : (s.answered).stk = s.stk := rfl
@[simp] theorem State.answered_ivt : (s.answered).ivt = s.ivt := rfl
@[simp] theorem State.answered_halted : (s.answered).halted = s.halted := rfl
@[simp] theorem State.answered_df : (s.answered).df = s.df := rfl
@[simp] theorem State.answered_fault : (s.answered).fault = s.fault := rfl
@[simp] theorem State.answered_mem : (s.answered).mem = s.mem := rfl
@[simp] theorem State.answered_ports : (s.answered).ports = s.ports := rfl
@[simp] theorem State.answered_hook : (s.answered).hook = s.hook := rfl
@[simp] theorem State.answered_events : (s.answered).events = s.events := rfl
@[simp] theorem State.answered_env : (s.answered).env = s.env.tail := rfl
@[simp] theorem State.answered_envCount : (s.answered).envCount = s.envCount + 1 := rfl

/-! `callHook` -/

@[simp] theorem State.callHook_cfg (n : Nat) : (s.callHook n).cfg = s.cfg := by unfold State.callHook; split <;> rfl
@[simp] theorem State.callHook_regs (n : Nat) : (s.callHook n).regs = s.regs := by unfold State.callHook; split <;> rfl
@[simp] theorem State.callHook_pc (n : Nat) : (s.callHook n).pc = s.pc := by unfold State.callHook; split <;> rfl
@[simp] theorem State.callHook_cw (n : Nat) : (s.callHook n).cw = s.cw := by unfold State.callHook; split <;> rfl
@[simp] theorem State.callHook_cd (n : Nat) : (s.callHook n).cd = s.cd := by unfold State.callHook; split <;> rfl
@[simp] theorem State.callHook_stk (n : Nat) : (s.callHook n).stk = s.stk := by unfold State.callHook; split <;> rfl
@[simp] theorem State.callHook_ivt (n : Nat) : (s.callHook n).ivt = s.ivt := by unfold State.callHook; split <;> rfl
@[simp] theorem State.callHook_halted (n : Nat) : (s.callHook n).halted = s.halted := by unfold State.callHook; split <;> rfl
@[simp] theorem State.callHook_df (n : Nat) : (s.callHook n).df = s.df := by unfold State.callHook; split <;> rfl
@[simp] theorem State.callHook_fault (n : Nat) : (s.callHook n).fault = s.fault := by unfold State.callHook; split <;> rfl
@[simp] theorem State.callHook_mem (n : Nat) : (s.callHook n).mem = s.mem := by unfold State.callHook; split <;> rfl
@[simp] theorem State.callHook_ports (n : Nat) : (s.callHook n).ports = s.ports := by unfold State.callHook; split <;> rfl
@[simp] theorem State.callHook_hook (n : Nat) : (s.callHook n).hook = s.hook := by unfold State.callHook; split <;> rfl
@[simp] theorem State.callHook_events (n : Nat) : (s.callHook n).events = if s.hook then s.events ++ [.hook n] else s.events := by unfold State.callHook; split <;> rfl
@[simp] theorem State.callHook_env (n : Nat) : (s.callHook n).env = s.env := by unfold State.callHook; split <;> rfl
@[simp] theorem State.callHook_envCount (n : Nat) : (s.callHook n).envCount = s.envCount := by unfold State.callHook; split <;> rfl

/-! `reinit` -/

@[simp] theorem State.reinit_cfg : (s.reinit).cfg = s.cfg := rfl
@[simp] theorem State.reinit_regs : (s.reinit).regs = List.replicate s.regs.length 0#64 := rfl
@[simp] theorem State.reinit_pc : (s.reinit).pc = 0#64 := rfl
@[simp] theorem State.reinit_cw : (s.reinit).cw = s.cfg.cwReset := rfl
@[simp] theorem State.reinit_cd : (s.reinit).cd = 0#64 := rfl
@[simp] theorem State.reinit_stk : (s.reinit).stk = [] := rfl
@[simp] theorem State.reinit_ivt : (s.reinit).ivt = [] := rfl
@[simp] theorem State.reinit_halted : (s.reinit).halted = false := rfl
@[simp] theorem State.reinit_df : (s.reinit).df = s.df := rfl
@[simp] theorem State.reinit_fault : (s.reinit).fault = s.fault := rfl
@[simp] theorem State.reinit_mem : (s.reinit).mem = s.mem := rfl
@[simp] theorem State.reinit_ports : (s.reinit).ports = s.ports := rfl
@[simp] theorem State.reinit_hook : (s.reinit).hook = s.hook := rfl
@[simp] theorem State.reinit_events : (s.reinit).events = s.events := rfl
@[simp] theorem State.reinit_env : (s.reinit).env = s.env := rfl
@[simp] theorem State.reinit_envCount : (s.reinit).envCount = s.envCount := rfl

/-! `wake` -/

@[simp] theorem State.wake_cfg : (s.wake).cfg = s.cfg := rfl
@[simp] theorem State.wake_regs : (s.wake).regs = s.regs := rfl
@[simp] theorem State.wake_pc : (s.wake).pc = s.pc := rfl
@[simp] theorem State.wake_cw : (s.wake).cw = s.cw := rfl
@[simp] theorem State.wake_cd : (s.wake).cd = s.cd := rfl
@[simp] theorem State.wake_stk : (s.wake).stk = s.stk := rfl
@[simp] theorem State.wake_ivt : (s.wake).ivt = s.ivt := rfl
@[simp] theorem State.wake_halted : (s.wake).halted = false := rfl
@[simp] theorem State.wake_df : (s.wake).df = s.df := rfl
@[simp] theorem State.wake_fault : (s.wake).fault = s.fault := rfl
@[simp] theorem State.wake_mem : (s.wake).mem = s.mem := rfl
@[simp] theorem State.wake_ports : (s.wake).ports = s.ports := rfl
@[simp] theorem State.wake_hook : (s.wake).hook = s.hook := rfl
@[simp] theorem State.wake_events : (s.wake).events = s.events := rfl
@[simp] theorem State.wake_env : (s.wake).env = s.env := rfl
@[simp] theorem State.wake_envCount : (s.wake).envCount = s.envCount := rfl

/-! `dispatchEntry` -/

@[simp] theorem dispatchEntry_cfg (t : Word) (p : Bool) : (dispatchEntry t p s).cfg = s.cfg := rfl
@[simp] theorem dispatchEntry_regs (t : Word) (p : Bool) : (dispatchEntry t p s).regs = s.regs := rfl
@[simp] theorem dispatchEntry_pc (t : Word) (p : Bool) : (dispatchEntry t p s).pc = t := rfl
@[simp] theorem dispatchEntry_cw (t : Word) (p : Bool) : (dispatchEntry t p s).cw = s.cw := rfl
@[simp] theorem dispatchEntry_cd (t : Word) (p : Bool) : (dispatchEntry t p s).cd = s.cd + 1#64 := rfl
@[simp] theorem dispatchEntry_stk (t : Word) (p : Bool) : (dispatchEntry t p s).stk = s.stk ++ [s.pc] := rfl
@[simp] theorem dispatchEntry_ivt (t : Word) (p : Bool) : (dispatchEntry t p s).ivt = s.ivt := rfl
@[simp] theorem dispatchEntry_halted (t : Word) (p : Bool) : (dispatchEntry t p s).halted = s.halted := rfl
@[simp] theorem dispatchEntry_df (t : Word) (p : Bool) : (dispatchEntry t p s).df = s.df ++ [⟨p, s.cd⟩] := rfl
@[simp] theorem dispatchEntry_fault (t : Word) (p : Bool) : (dispatchEntry t p s).fault = s.fault := rfl
@[simp] theorem dispatchEntry_mem (t : Word) (p : Bool) : (dispatchEntry t p s).mem = s.mem := rfl
@[simp] theorem dispatchEntry_ports (t : Word) (p : Bool) : (dispatchEntry t p s).ports = s.ports := rfl
@[simp] theorem dispatchEntry_hook (t : Word) (p : Bool) : (dispatchEntry t p s).hook = s.hook := rfl
@[simp] theorem dispatchEntry_events (t : Word) (p : Bool) : (dispatchEntry t p s).events = s.events := rfl
@[simp] theorem dispatchEntry_env (t : Word) (p : Bool) : (dispatchEntry t p s).env = s.env := rfl
@[simp] theorem dispatchEntry_envCount (t : Word) (p : Bool) : (dispatchEntry t p s).envCount = s.envCount := rfl

/-! `endFrame` -/

@[simp] theorem endFrame_cfg (f : DispatchFrame) : (endFrame f s).cfg = s.cfg := rfl
@[simp] theorem endFrame_regs (f : DispatchFrame) : (endFrame f s).regs = s.regs := rfl
@[simp] theorem endFrame_pc (f : DispatchFrame) : (endFrame f s).pc = s.pc := rfl
@[simp] theorem endFrame_cw (f : DispatchFrame) : (endFrame f s).cw = setBit s.cw bitP f.savedP := rfl
@[simp] theorem endFrame_cd (f : DispatchFrame) : (endFrame f s).cd = s.cd := rfl
@[simp] theorem endFrame_stk (f : DispatchFrame) : (endFrame f s).stk = s.stk := rfl
@[simp] theorem endFrame_ivt (f : DispatchFrame) : (endFrame f s).ivt = s.ivt := rfl
@[simp] theorem endFrame_halted (f : DispatchFrame) : (endFrame f s).halted = false := rfl
@[simp] theorem endFrame_df (f : DispatchFrame) : (endFrame f s).df = s.df.dropLast := rfl
@[simp] theorem endFrame_fault (f : DispatchFrame) : (endFrame f s).fault = s.fault := rfl
@[simp] theorem endFrame_mem (f : DispatchFrame) : (endFrame f s).mem = s.mem := rfl
@[simp] theorem endFrame_ports (f : DispatchFrame) : (endFrame f s).ports = s.ports := rfl
@[simp] theorem endFrame_hook (f : DispatchFrame) : (endFrame f s).hook = s.hook := rfl
@[simp] theorem endFrame_events (f : DispatchFrame) : (endFrame f s).events = s.events := rfl
@[simp] theorem endFrame_env (f : DispatchFrame) : (endFrame f s).env = s.env := rfl
@[simp] theorem endFrame_envCount (f : DispatchFrame) : (endFrame f s).envCount = s.envCount := rfl

end

end Sys2Proof.Machine
end

