-- ==== Sys2Proof/Laws/Flags.lean ====
section
/-! SUPPORT. The bits of the control word after a flag write. -/

namespace Sys2Proof.Machine

/-- A flag write changes its own bit only. -/
theorem getLsbD_setBit (cw : Word) (k j : Nat) (b : Bool) (hk : k < 64) :
    (setBit cw k b).getLsbD j = if j = k then b else cw.getLsbD j := by
  unfold setBit
  by_cases hj : j < 64
  · by_cases h : j = k
    · subst j
      cases b <;> simp [hk]
    · have h1 : (decide (j < 64) && !decide (j < k) && decide (j - k = 0)) = false := by
        by_cases h2 : j < k
        · simp [h2]
        · have : j - k ≠ 0 := by omega
          simp [this]
      cases b <;> simp [h, hj] <;> omega
  · have h : j ≠ k := by omega
    have h2 : 64 ≤ j := by omega
    simp [h, BitVec.getLsbD_of_ge _ _ h2]

theorem State.flag_setFlag (s : State) (k j : Nat) (b : Bool) (hk : k < 64) :
    (s.setFlag k b).flag j = if j = k then b else s.flag j := getLsbD_setBit s.cw k j b hk

/-- Writing back the value a bit has changes nothing. -/
theorem setBit_self (cw : Word) (k : Nat) (hk : k < 64) : setBit cw k (cw.getLsbD k) = cw := by
  apply BitVec.eq_of_getLsbD_eq
  intro i hi
  rw [getLsbD_setBit _ _ _ _ hk]
  split <;> simp_all

/-- The last of two writes of one bit counts. -/
theorem setBit_setBit (cw : Word) (k : Nat) (b c : Bool) (hk : k < 64) :
    setBit (setBit cw k b) k c = setBit cw k c := by
  apply BitVec.eq_of_getLsbD_eq
  intro i hi
  rw [getLsbD_setBit _ _ _ _ hk, getLsbD_setBit _ _ _ _ hk, getLsbD_setBit _ _ _ _ hk]
  split <;> rfl

/-- The bits after Compare (R80). -/
theorem getLsbD_compareFlags (cw a b : Word) (j : Nat) :
    (compareFlags cw a b).getLsbD j =
      if j = bitGT then decide (b.toInt < a.toInt)
      else if j = bitLT then decide (a.toInt < b.toInt)
      else if j = bitEQ then decide (a.toInt = b.toInt)
      else cw.getLsbD j := by
  unfold compareFlags
  rw [getLsbD_setBit _ _ _ _ (by decide), getLsbD_setBit _ _ _ _ (by decide), getLsbD_setBit _ _ _ _ (by decide)]

end Sys2Proof.Machine
end

