-- ==== Sys2Proof/Laws/EndOfDispatch.lean ====
section
/-! SUPPORT. What the end-of-dispatch test (R173) can do: it closes the innermost `k` dispatches, and touches nothing
but `P`, `DF` and `HALTED`. -/

namespace Sys2Proof.Machine

/-- The test touches only `CW`, `DF` and `HALTED`. -/
theorem endDispatches_eq (n : Nat) (s : State) :
    endDispatches n s =
      { s with cw := (endDispatches n s).cw, df := (endDispatches n s).df, halted := (endDispatches n s).halted } := by
  induction n generalizing s with
  | zero => rfl
  | succ n ih =>
    unfold endDispatches
    split
    · split
      · rw [ih]
        rfl
      · rfl
    · rfl

theorem endOfDispatchTest_eq (s : State) :
    endOfDispatchTest s =
      { s with
        cw := (endOfDispatchTest s).cw
        df := (endOfDispatchTest s).df
        halted := (endOfDispatchTest s).halted } := endDispatches_eq _ s

section
variable (s : State)

@[simp] theorem endOfDispatchTest_cfg : (endOfDispatchTest s).cfg = s.cfg := by rw [endOfDispatchTest_eq]
@[simp] theorem endOfDispatchTest_regs : (endOfDispatchTest s).regs = s.regs := by rw [endOfDispatchTest_eq]
@[simp] theorem endOfDispatchTest_pc : (endOfDispatchTest s).pc = s.pc := by rw [endOfDispatchTest_eq]
@[simp] theorem endOfDispatchTest_cd : (endOfDispatchTest s).cd = s.cd := by rw [endOfDispatchTest_eq]
@[simp] theorem endOfDispatchTest_stk : (endOfDispatchTest s).stk = s.stk := by rw [endOfDispatchTest_eq]
@[simp] theorem endOfDispatchTest_ivt : (endOfDispatchTest s).ivt = s.ivt := by rw [endOfDispatchTest_eq]
@[simp] theorem endOfDispatchTest_fault : (endOfDispatchTest s).fault = s.fault := by rw [endOfDispatchTest_eq]
@[simp] theorem endOfDispatchTest_mem : (endOfDispatchTest s).mem = s.mem := by rw [endOfDispatchTest_eq]
@[simp] theorem endOfDispatchTest_ports : (endOfDispatchTest s).ports = s.ports := by rw [endOfDispatchTest_eq]
@[simp] theorem endOfDispatchTest_hook : (endOfDispatchTest s).hook = s.hook := by rw [endOfDispatchTest_eq]
@[simp] theorem endOfDispatchTest_events : (endOfDispatchTest s).events = s.events := by rw [endOfDispatchTest_eq]
@[simp] theorem endOfDispatchTest_env : (endOfDispatchTest s).env = s.env := by rw [endOfDispatchTest_eq]
@[simp] theorem endOfDispatchTest_envCount : (endOfDispatchTest s).envCount = s.envCount := by
  rw [endOfDispatchTest_eq]

end

/-- Only bit `P` of the control word can change. -/
theorem endDispatches_flag (n : Nat) (s : State) {k : Nat} (hk : k ≠ bitP) :
    (endDispatches n s).flag k = s.flag k := by
  induction n generalizing s with
  | zero => rfl
  | succ n ih =>
    unfold endDispatches
    split
    · split
      · rw [ih]
        simp [State.flag, getLsbD_setBit _ _ _ _ (show bitP < 64 by decide), hk]
      · rfl
    · rfl

theorem endOfDispatchTest_flag (s : State) {k : Nat} (hk : k ≠ bitP) :
    (endOfDispatchTest s).flag k = s.flag k := endDispatches_flag _ s hk

/-- The test with the innermost dispatch open changes nothing. -/
theorem endOfDispatchTest_open (s : State) (h : ∀ f ∈ s.df.getLast?, s.cd ≠ f.recDepth) :
    endOfDispatchTest s = s := by
  unfold endOfDispatchTest
  cases hn : s.df.length with
  | zero => rfl
  | succ n =>
    unfold endDispatches
    split
    · rename_i f hf
      rw [if_neg (h f (by simp [hf]))]
    · rfl

/-- One turn of the loop: the innermost frame is closed and the test goes on with the rest. -/
theorem endOfDispatchTest_close (s : State) (f : DispatchFrame) (hf : s.df.getLast? = some f)
    (hc : s.cd = f.recDepth) : endOfDispatchTest s = endOfDispatchTest (endFrame f s) := by
  unfold endOfDispatchTest
  have hne : s.df ≠ [] := by rintro e; simp [e] at hf
  have hlen : s.df.length = (endFrame f s).df.length + 1 := by
    have := List.length_pos_iff.2 hne
    simp
    omega
  rw [hlen, endDispatches, hf]
  simp [hc]

end Sys2Proof.Machine
end

