-- ==== Sys2Proof/Laws/Memory.lean ====
section
/-! SUPPORT. Finite maps: a read after a write, and the canonical form that every operation keeps. -/

namespace Sys2Proof.Machine

section
variable {α : Type}

@[simp] theorem mapLookup_nil (k : Nat) : mapLookup k ([] : List (Nat × α)) = none := rfl

theorem mapLookup_insert (m : List (Nat × α)) (k j : Nat) (v : α) :
    mapLookup j (mapInsert k v m) = if j = k then some v else mapLookup j m := by
  induction m with
  | nil => by_cases h : k = j <;> simp [mapInsert, mapLookup, h, eq_comm]
  | cons c m ih =>
    obtain ⟨a, w⟩ := c
    unfold mapInsert
    split
    · by_cases h : k = j <;> simp [mapLookup, h, eq_comm]
    · split
      · subst a
        by_cases h : k = j
        · simp [mapLookup, h]
        · simp [mapLookup, h, Ne.symm h]
      · rename_i h1 h2
        by_cases h : a = j
        · have : j ≠ k := by omega
          simp [mapLookup, h, this]
        · simp [mapLookup, h, ih]

theorem mapLookup_erase (m : List (Nat × α)) (k j : Nat) :
    mapLookup j (mapErase k m) = if j = k then none else mapLookup j m := by
  induction m with
  | nil => simp [mapErase]
  | cons c m ih =>
    obtain ⟨a, w⟩ := c
    unfold mapErase at ih ⊢
    by_cases hk : a = k
    · rw [List.filter_cons_of_neg (by simpa using hk), ih]
      by_cases h : j = k
      · simp [h]
      · have : a ≠ j := by omega
        simp [mapLookup, h, this]
    · rw [List.filter_cons_of_pos (by simpa using hk)]
      by_cases h : a = j
      · have : j ≠ k := by omega
        simp [mapLookup, h, this]
      · simp only [mapLookup, h, if_false, ih]

theorem mem_mapInsert {m : List (Nat × α)} {k : Nat} {v : α} {c : Nat × α} (h : c ∈ mapInsert k v m) :
    c = (k, v) ∨ c ∈ m := by
  induction m with
  | nil => simpa [mapInsert] using h
  | cons d m ih =>
    obtain ⟨a, w⟩ := d
    unfold mapInsert at h
    split at h
    · simpa using h
    · split at h
      · simp only [List.mem_cons] at h ⊢
        tauto
      · simp only [List.mem_cons] at h ⊢
        rcases h with h | h
        · exact .inr (.inl h)
        · exact (ih h).imp_right .inr

theorem mapInsert_rising {m : List (Nat × α)} (k : Nat) (v : α) (h : mapRising m) : mapRising (mapInsert k v m) := by
  induction m with
  | nil => simp [mapInsert, mapRising]
  | cons c m ih =>
    obtain ⟨a, w⟩ := c
    have h' := h
    simp only [mapRising, List.map_cons, List.pairwise_cons] at h'
    unfold mapInsert
    split
    · rename_i hk
      simp only [mapRising, List.map_cons, List.pairwise_cons, List.mem_cons]
      refine ⟨?_, h'⟩
      rintro b (rfl | hb)
      · exact hk
      · exact hk.trans (h'.1 b hb)
    · split
      · subst a
        simpa [mapRising] using h'
      · rename_i h1 h2
        simp only [mapRising, List.map_cons, List.pairwise_cons]
        refine ⟨?_, ih h'.2⟩
        intro b hb
        obtain ⟨d, hd, rfl⟩ := List.mem_map.1 hb
        rcases mem_mapInsert hd with rfl | hd
        · simp only; omega
        · exact h'.1 _ (List.mem_map_of_mem hd)

theorem mapErase_rising {m : List (Nat × α)} (k : Nat) (h : mapRising m) : mapRising (mapErase k m) :=
  h.sublist ((List.filter_sublist).map Prod.fst)

theorem mem_mapErase {m : List (Nat × α)} {k : Nat} {c : Nat × α} (h : c ∈ mapErase k m) : c ∈ m :=
  (List.mem_filter.1 h).1

end

/-- A byte reads as written, and every other address as before. -/
theorem Memory.read_write (m : Memory) (a b : Nat) (v : Byte) :
    (m.write a v).read b = if b = a then v else m.read b := by
  unfold Memory.write Memory.read
  split
  · rename_i h
    rw [mapLookup_erase]
    split <;> simp [h]
  · rw [mapLookup_insert]
    split <;> simp

theorem Memory.write_wf {m : Memory} (a : Nat) (v : Byte) (h : m.wf) : (m.write a v).wf := by
  unfold Memory.write
  split
  · exact ⟨mapErase_rising a h.1, fun c hc => h.2 c (mem_mapErase hc)⟩
  · rename_i hv
    refine ⟨mapInsert_rising a v h.1, fun c hc => ?_⟩
    rcases mem_mapInsert hc with rfl | hc
    · exact hv
    · exact h.2 c hc

theorem Memory.mem_write {m : Memory} {a : Nat} {v : Byte} {c : Host.Cell} (h : c ∈ m.write a v) :
    c.1 = a ∨ c ∈ m := by
  unfold Memory.write at h
  split at h
  · exact .inr (mem_mapErase h)
  · rcases mem_mapInsert h with rfl | h
    · exact .inl rfl
    · exact .inr h

theorem Memory.writeBytes_wf {m : Memory} (a : Nat) (bs : List Byte) (h : m.wf) : (m.writeBytes a bs).wf := by
  induction bs generalizing m a with
  | nil => exact h
  | cons b bs ih => exact ih (a + 1) (Memory.write_wf a b h)

theorem Memory.mem_writeBytes {m : Memory} {a : Nat} {bs : List Byte} {c : Host.Cell} (h : c ∈ m.writeBytes a bs) :
    (a ≤ c.1 ∧ c.1 < a + bs.length) ∨ c ∈ m := by
  induction bs generalizing m a with
  | nil => exact .inr h
  | cons b bs ih =>
    rcases ih h with h | h
    · left; simp only [List.length_cons]; omega
    · rcases Memory.mem_write h with h | h
      · left; simp only [List.length_cons]; omega
      · exact .inr h

/-- Bytes read as written, and every address outside them as before. -/
theorem Memory.read_writeBytes (m : Memory) (a b : Nat) (bs : List Byte) :
    (m.writeBytes a bs).read b = if a ≤ b then bs[b - a]?.getD (m.read b) else m.read b := by
  induction bs generalizing m a with
  | nil => simp [Memory.writeBytes]
  | cons x bs ih =>
    rw [Memory.writeBytes, ih, Memory.read_write]
    rcases Nat.lt_trichotomy a b with h | h | h
    · have h1 : b - a = (b - (a + 1)) + 1 := by omega
      have h2 : b ≠ a := by omega
      have h3 : a + 1 ≤ b := h
      simp [h3, h2, h.le, h1]
    · subst b; simp
    · have h1 : ¬ a ≤ b := by omega
      have h2 : ¬ a + 1 ≤ b := by omega
      have h3 : b ≠ a := by omega
      simp [h1, h2, h3]

theorem insertPort_mem {p q : Word} {ps : List Word} : q ∈ insertPort p ps ↔ q = p ∨ q ∈ ps := by
  induction ps with
  | nil => simp [insertPort]
  | cons r ps ih =>
    unfold insertPort
    split
    · simp
    · split
      · subst r; simp
      · simp only [List.mem_cons, ih]; tauto

theorem insertPort_rising {p : Word} {ps : List Word} (h : (ps.map BitVec.toNat).Pairwise (· < ·)) :
    ((insertPort p ps).map BitVec.toNat).Pairwise (· < ·) := by
  induction ps with
  | nil => simp [insertPort]
  | cons r ps ih =>
    have h' := h
    simp only [List.map_cons, List.pairwise_cons] at h'
    unfold insertPort
    split
    · rename_i hp
      simp only [List.map_cons, List.pairwise_cons, List.mem_cons]
      refine ⟨?_, h'⟩
      rintro b (rfl | hb)
      · exact hp
      · exact hp.trans (h'.1 b hb)
    · split
      · exact h
      · rename_i h1 h2
        simp only [List.map_cons, List.pairwise_cons]
        refine ⟨?_, ih h'.2⟩
        intro b hb
        obtain ⟨q, hq, rfl⟩ := List.mem_map.1 hb
        rcases insertPort_mem.1 hq with rfl | hq
        · have : r.toNat ≠ q.toNat := fun e => h2 (BitVec.eq_of_toNat_eq e)
          omega
        · exact h'.1 _ (List.mem_map_of_mem hq)

end Sys2Proof.Machine
end

