-- ==== Sys2Proof/Laws/Ops.lean ====
section
/-! SUPPORT. What each shared operation of the meanings can answer: for each, when it answers a next state, when it
faults, and that it refuses only if the rest does. -/

namespace Sys2Proof.Machine

section
variable {s t : State} {f : Fault} {r : Refusal} {pc0 w : Word} {b ra rb op : Byte}

/-! ### Checks and operand forms -/

@[simp] theorem raise_next : raise f ≠ .next t := by simp [raise]

@[simp] theorem raise_fault {g : Fault} : raise g = .fault f ↔ f = g := by
  simp only [raise, Host.Outcome.fault.injEq]
  exact eq_comm

/-- A fault answered, read from the answer's side. -/
theorem fault_eq_fault {g : Fault} : (Host.Outcome.fault g : Result) = .fault f ↔ f = g := by
  simp only [Host.Outcome.fault.injEq]
  exact eq_comm

/-- A next state answered, read from the answer's side. -/
theorem next_eq_next {u : State} : (Host.Outcome.next u : Result) = .next t ↔ t = u := by
  simp only [Host.Outcome.next.injEq]
  exact eq_comm

@[simp] theorem raise_refused : raise f ≠ .refused r := by simp [raise]

theorem whenPrivileged_next {x : Result} :
    whenPrivileged op s x = .next t ↔ s.privileged = true ∧ x = .next t := by
  unfold whenPrivileged
  split <;> simp_all

theorem whenPrivileged_fault {x : Result} :
    whenPrivileged op s x = .fault f ↔
      (s.privileged = true ∧ x = .fault f) ∨ (s.privileged = false ∧ f = .privilegeViolation s.pc op) := by
  unfold whenPrivileged
  split <;> simp_all [-Host.Outcome.fault.injEq]

theorem whenPrivileged_refused {x : Result} :
    whenPrivileged op s x = .refused r ↔ s.privileged = true ∧ x = .refused r := by
  unfold whenPrivileged
  split <;> simp_all

theorem withReg_next {k : Nat → Result} : withReg b s k = .next t ↔ b.toNat < s.nreg ∧ k b.toNat = .next t := by
  unfold withReg
  split <;> simp_all

theorem withReg_fault {k : Nat → Result} :
    withReg b s k = .fault f ↔
      (b.toNat < s.nreg ∧ k b.toNat = .fault f) ∨ (s.nreg ≤ b.toNat ∧ f = .registerIndexOutOfRange s.pc b) := by
  unfold withReg
  split
  · have : ¬ s.nreg ≤ b.toNat := by omega
    simp_all
  · have : s.nreg ≤ b.toNat := by omega
    simp_all [-Host.Outcome.fault.injEq]

theorem withReg_refused {k : Nat → Result} :
    withReg b s k = .refused r ↔ b.toNat < s.nreg ∧ k b.toNat = .refused r := by
  unfold withReg
  split <;> simp_all

theorem withRegs_next {k : Nat → Nat → Result} :
    withRegs ra rb s k = .next t ↔
      ra.toNat < s.nreg ∧ rb.toNat < s.nreg ∧ k ra.toNat rb.toNat = .next t := by
  simp [withRegs, withReg_next]

theorem withRegs_fault {k : Nat → Nat → Result} :
    withRegs ra rb s k = .fault f ↔
      (ra.toNat < s.nreg ∧ rb.toNat < s.nreg ∧ k ra.toNat rb.toNat = .fault f) ∨
      (ra.toNat < s.nreg ∧ s.nreg ≤ rb.toNat ∧ f = .registerIndexOutOfRange s.pc rb) ∨
      (s.nreg ≤ ra.toNat ∧ f = .registerIndexOutOfRange s.pc ra) := by
  simp only [withRegs, withReg_fault]
  tauto

theorem withRegs_refused {k : Nat → Nat → Result} :
    withRegs ra rb s k = .refused r ↔
      ra.toNat < s.nreg ∧ rb.toNat < s.nreg ∧ k ra.toNat rb.toNat = .refused r := by
  simp [withRegs, withReg_refused]

theorem withFlag_next {k : Nat → Result} : withFlag b s k = .next t ↔ b.toNat ≤ 4 ∧ k b.toNat = .next t := by
  unfold withFlag
  split <;> simp_all

theorem withFlag_fault {k : Nat → Result} :
    withFlag b s k = .fault f ↔
      (b.toNat ≤ 4 ∧ k b.toNat = .fault f) ∨ (4 < b.toNat ∧ f = .flagIndexOutOfRange s.pc b) := by
  unfold withFlag
  split
  · have : ¬ 4 < b.toNat := by omega
    simp_all
  · have : 4 < b.toNat := by omega
    simp_all [-Host.Outcome.fault.injEq]

theorem withFlag_refused {k : Nat → Result} :
    withFlag b s k = .refused r ↔ b.toNat ≤ 4 ∧ k b.toNat = .refused r := by
  unfold withFlag
  split <;> simp_all

/-! ### Stack and call depth -/

theorem withPush_next {k : State → Result} :
    withPush pc0 w s k = .next t ↔ s.stackFull = false ∧ k (s.push w) = .next t := by
  unfold withPush
  split <;> simp_all

theorem withPush_fault {k : State → Result} :
    withPush pc0 w s k = .fault f ↔
      (s.stackFull = false ∧ k (s.push w) = .fault f) ∨
      (s.stackFull = true ∧ f = .stackOverflow pc0 s.stk.length) := by
  unfold withPush
  split <;> simp_all [-Host.Outcome.fault.injEq, fault_eq_fault]

theorem withPush_refused {k : State → Result} :
    withPush pc0 w s k = .refused r ↔ s.stackFull = false ∧ k (s.push w) = .refused r := by
  unfold withPush
  split <;> simp_all

theorem withPop_next {k : Word → State → Result} :
    withPop pc0 s k = .next t ↔
      ∃ v, s.stk.getLast? = some v ∧ k v { s with stk := s.stk.dropLast } = .next t := by
  unfold withPop
  split <;> simp_all

theorem withPop_fault {k : Word → State → Result} :
    withPop pc0 s k = .fault f ↔
      (∃ v, s.stk.getLast? = some v ∧ k v { s with stk := s.stk.dropLast } = .fault f) ∨
      (s.stk = [] ∧ f = .stackUnderflow pc0 0) := by
  unfold withPop
  split
  · rename_i h
    simp_all [-Host.Outcome.fault.injEq, fault_eq_fault]
  · rename_i v h
    have : s.stk ≠ [] := by rintro e; simp [e] at h
    simp_all

theorem withPop_refused {k : Word → State → Result} :
    withPop pc0 s k = .refused r ↔
      ∃ v, s.stk.getLast? = some v ∧ k v { s with stk := s.stk.dropLast } = .refused r := by
  unfold withPop
  split <;> simp_all

theorem withDeeper_next {k : State → Result} :
    withDeeper pc0 s k = .next t ↔ s.cd ≠ maxDepth ∧ k { s with cd := s.cd + 1#64 } = .next t := by
  unfold withDeeper
  split <;> simp_all

theorem withDeeper_fault {k : State → Result} :
    withDeeper pc0 s k = .fault f ↔
      (s.cd ≠ maxDepth ∧ k { s with cd := s.cd + 1#64 } = .fault f) ∨
      (s.cd = maxDepth ∧ f = .callDepthOverflow pc0 s.cd) := by
  unfold withDeeper
  split <;> simp_all [-Host.Outcome.fault.injEq, fault_eq_fault]

theorem withDeeper_refused {k : State → Result} :
    withDeeper pc0 s k = .refused r ↔ s.cd ≠ maxDepth ∧ k { s with cd := s.cd + 1#64 } = .refused r := by
  unfold withDeeper
  split <;> simp_all

theorem withShallower_next {k : State → Result} :
    withShallower pc0 s k = .next t ↔ s.cd ≠ 0#64 ∧ k { s with cd := s.cd - 1#64 } = .next t := by
  unfold withShallower
  split <;> simp_all

theorem withShallower_fault {k : State → Result} :
    withShallower pc0 s k = .fault f ↔
      (s.cd ≠ 0#64 ∧ k { s with cd := s.cd - 1#64 } = .fault f) ∨
      (s.cd = 0#64 ∧ f = .callDepthUnderflow pc0) := by
  unfold withShallower
  split <;> simp_all [-Host.Outcome.fault.injEq, fault_eq_fault]

theorem withShallower_refused {k : State → Result} :
    withShallower pc0 s k = .refused r ↔ s.cd ≠ 0#64 ∧ k { s with cd := s.cd - 1#64 } = .refused r := by
  unfold withShallower
  split <;> simp_all

/-! ### Memory reads -/

/-- A read changes only what the environment and the trace hold; with the front absent, nothing. -/
structure SameButAnswers (s t : State) : Prop where
  same : t = { s with events := t.events, env := t.env, envCount := t.envCount }
  noFront : s.cfg.memFront = false → t = s

theorem SameButAnswers.refl (s : State) : SameButAnswers s s := ⟨rfl, fun _ => rfl⟩

theorem SameButAnswers.trans {s t u : State} (h : SameButAnswers s t) (k : SameButAnswers t u) :
    SameButAnswers s u := by
  obtain ⟨h1, h2⟩ := h
  obtain ⟨k1, k2⟩ := k
  refine ⟨?_, fun hf => ?_⟩
  · rw [k1, h1]
  · have := h2 hf
    subst this
    exact k2 hf

theorem readByte_same (a : Nat) (s : State) : SameButAnswers s (readByte a s).2 := by
  unfold readByte
  split
  · rename_i h
    exact ⟨rfl, fun h' => by simp [h] at h'⟩
  · exact .refl s

theorem readBytes_same (n a : Nat) (s : State) : SameButAnswers s (readBytes n a s).2 := by
  induction n generalizing a s with
  | zero => exact .refl s
  | succ n ih => exact (readByte_same a s).trans (ih (a + 1) _)

@[simp] theorem readBytes_length (n a : Nat) (s : State) : (readBytes n a s).1.length = n := by
  induction n generalizing a s with
  | zero => rfl
  | succ n ih => simp [readBytes, ih]

/-- With the front absent the bytes are memory's. -/
theorem readBytes_noFront (n a : Nat) (s : State) (h : s.cfg.memFront = false) :
    readBytes n a s = ((List.range n).map (fun k => s.mem.read (a + k)), s) := by
  induction n generalizing a with
  | zero => rfl
  | succ n ih =>
    have h1 : readByte a s = (s.mem.read a, s) := by simp [readByte, h]
    simp only [readBytes, h1, ih (a + 1), List.range_succ_eq_map, List.map_cons, List.map_map, Nat.add_zero,
      Function.comp_def, Nat.succ_eq_add_one, Nat.add_assoc, Nat.add_comm 1]

theorem memRead_ok {a n : Nat} {bs : List Byte} :
    memRead pc0 a n s = .ok (bs, t) ↔ a + n ≤ s.cfg.memSize ∧ readBytes n a s = (bs, t) := by
  unfold memRead State.inMemory
  split <;> simp_all

theorem memRead_error {a n : Nat} :
    memRead pc0 a n s = .error f ↔ s.cfg.memSize < a + n ∧ f = .memoryOutOfRange pc0 a := by
  unfold memRead State.inMemory
  by_cases h : a + n ≤ s.cfg.memSize
  · have h2 : ¬ s.cfg.memSize < a + n := by omega
    simp [h, h2]
  · have h2 : s.cfg.memSize < a + n := by omega
    simp only [h, h2, decide_false, Bool.false_eq_true, if_false, Except.error.injEq, true_and]
    exact eq_comm

theorem withMem_next {a n : Nat} {k : List Byte → State → Result} :
    withMem pc0 a n s k = .next t ↔
      a + n ≤ s.cfg.memSize ∧ k (readBytes n a s).1 (readBytes n a s).2 = .next t := by
  unfold withMem memRead State.inMemory
  by_cases h : a + n ≤ s.cfg.memSize <;> simp [h]

theorem withMem_fault {a n : Nat} {k : List Byte → State → Result} :
    withMem pc0 a n s k = .fault f ↔
      (a + n ≤ s.cfg.memSize ∧ k (readBytes n a s).1 (readBytes n a s).2 = .fault f) ∨
      (s.cfg.memSize < a + n ∧ f = .memoryOutOfRange pc0 a) := by
  unfold withMem memRead State.inMemory
  by_cases h : a + n ≤ s.cfg.memSize
  · have h2 : ¬ s.cfg.memSize < a + n := by omega
    simp [h, h2]
  · have h2 : s.cfg.memSize < a + n := by omega
    simp [h, h2, -Host.Outcome.fault.injEq, fault_eq_fault]

theorem withMem_refused {a n : Nat} {k : List Byte → State → Result} :
    withMem pc0 a n s k = .refused r ↔
      a + n ≤ s.cfg.memSize ∧ k (readBytes n a s).1 (readBytes n a s).2 = .refused r := by
  unfold withMem memRead State.inMemory
  by_cases h : a + n ≤ s.cfg.memSize <;> simp [h]

/-! ### The interrupt operation (R170) -/

/-- Everything `Interrupt(n)` does when it answers a next state: nothing behind a closed gate, the dispatch entry, or
the hook and the wake. -/
theorem interrupt_next {n : Nat} :
    interrupt pc0 n s = .next t ↔
      n ≤ 255 ∧
        ((s.interruptsEnabled = false ∧ t = s) ∨
         (s.interruptsEnabled = true ∧ ∃ a, s.handler n = some a ∧ s.stackFull = false ∧ s.cd ≠ maxDepth ∧
            t = dispatchEntry a s.privileged ((s.setFlag bitP true).callHook n)) ∨
         (s.interruptsEnabled = true ∧ s.handler n = none ∧
            t = (((s.setFlag bitP true).callHook n).setFlag bitP s.privileged).wake)) := by
  unfold interrupt
  by_cases h1 : 255 < n
  · have : ¬ n ≤ 255 := by omega
    simp [h1, this]
  · have h1' : n ≤ 255 := by omega
    by_cases h2 : s.interruptsEnabled
    · cases h3 : s.handler n with
      | none => simp [h1, h1', h2, -Host.Outcome.next.injEq, next_eq_next]
      | some a =>
        by_cases h4 : s.stackFull <;> by_cases h5 : s.cd = maxDepth <;> simp [h1, h1', h2, h4, h5, -Host.Outcome.next.injEq, next_eq_next]
    · simp [h1, h1', h2, -Host.Outcome.next.injEq, next_eq_next]

theorem interrupt_fault {n : Nat} :
    interrupt pc0 n s = .fault f ↔
      (255 < n ∧ f = .interruptIndexOutOfRange pc0 n) ∨
      (n ≤ 255 ∧ s.interruptsEnabled = true ∧ (∃ a, s.handler n = some a) ∧
        ((s.stackFull = true ∧ f = .stackOverflow pc0 s.stk.length) ∨
         (s.stackFull = false ∧ s.cd = maxDepth ∧ f = .callDepthOverflow pc0 s.cd))) := by
  unfold interrupt
  by_cases h1 : 255 < n
  · have : ¬ n ≤ 255 := by omega
    simp [h1, this]
  · have h1' : n ≤ 255 := by omega
    by_cases h2 : s.interruptsEnabled
    · cases h3 : s.handler n with
      | none => simp [h1, h2]
      | some a =>
        by_cases h4 : s.stackFull <;> by_cases h5 : s.cd = maxDepth <;> simp [h1, h1', h2, h4, h5]
    · simp [h1, h2]

theorem interrupt_refused {n : Nat} : interrupt pc0 n s ≠ .refused r := by
  unfold interrupt
  split
  · simp
  · split
    · split
      · split
        · simp
        · split <;> simp
      · simp
    · simp

end

/-- What the hook call leaves of the state. -/
theorem callHook_eq (s : State) (n : Nat) : s.callHook n = { s with events := (s.callHook n).events } := by
  unfold State.callHook
  split <;> rfl

end Sys2Proof.Machine
end

