-- ==== Sys2Proof/Laws/Exec.lean ====
section
/-! SUPPORT. For each instruction, everything its meaning does when it answers a next state: one inversion lemma per
meaning, which proofs about all steps cite. -/

namespace Sys2Proof.Machine

section
variable {s t : State} {ra rb n k : Byte} {imm a : Word}

theorem exec_halt_next : exec .halt s = .next t ↔ t = { s with halted := true }.advance 1 := by
  simp only [exec, execHalt, next_eq_next]

theorem exec_reset_next : exec .reset s = .next t ↔ s.privileged = true ∧ t = s.reinit := by
  simp only [exec, execReset, whenPrivileged_next, next_eq_next]

theorem exec_ncall_next : exec .ncall s ≠ .next t := by
  simp [exec, execNcall]

theorem exec_movR64_next :
    exec (.movR64 ra imm) s = .next t ↔ ra.toNat < s.nreg ∧ t = (s.setReg ra.toNat imm).advance 10 := by
  simp only [exec, execMovR64, withReg_next, next_eq_next]

theorem exec_movRR_next :
    exec (.movRR ra rb) s = .next t ↔
      ra.toNat < s.nreg ∧ rb.toNat < s.nreg ∧ t = (s.setReg ra.toNat (s.reg rb.toNat)).advance 3 := by
  simp only [exec, execMovRR, withRegs_next, next_eq_next]

theorem loadSigned_next {m : Nat} :
    loadSigned m ra rb s = .next t ↔
      ra.toNat < s.nreg ∧ rb.toNat < s.nreg ∧ (s.reg rb.toNat).toNat + m ≤ s.cfg.memSize ∧
        t = ((readBytes m (s.reg rb.toNat).toNat s).2.setReg ra.toNat
              (sextBytes (readBytes m (s.reg rb.toNat).toNat s).1)).advance 3 := by
  simp only [loadSigned, withRegs_next, withMem_next, next_eq_next]

theorem exec_ld8RR_next : exec (.ld8RR ra rb) s = .next t ↔ loadSigned 1 ra rb s = .next t := Iff.rfl

theorem exec_ld32RR_next : exec (.ld32RR ra rb) s = .next t ↔ loadSigned 4 ra rb s = .next t := Iff.rfl

theorem exec_addRR_next :
    exec (.addRR ra rb) s = .next t ↔
      ra.toNat < s.nreg ∧ rb.toNat < s.nreg ∧
        t = (s.setReg ra.toNat (s.reg ra.toNat + s.reg rb.toNat)).advance 3 := by
  simp only [exec, execAddRR, withRegs_next, next_eq_next]

theorem exec_addR64_next :
    exec (.addR64 ra imm) s = .next t ↔
      ra.toNat < s.nreg ∧ t = (s.setReg ra.toNat (s.reg ra.toNat + imm)).advance 10 := by
  simp only [exec, execAddR64, withReg_next, next_eq_next]

theorem exec_subRR_next :
    exec (.subRR ra rb) s = .next t ↔
      ra.toNat < s.nreg ∧ rb.toNat < s.nreg ∧
        t = (s.setReg ra.toNat (s.reg ra.toNat - s.reg rb.toNat)).advance 3 := by
  simp only [exec, execSubRR, withRegs_next, next_eq_next]

theorem exec_subR64_next :
    exec (.subR64 ra imm) s = .next t ↔
      ra.toNat < s.nreg ∧ t = (s.setReg ra.toNat (s.reg ra.toNat - imm)).advance 10 := by
  simp only [exec, execSubR64, withReg_next, next_eq_next]

theorem exec_cmpRR_next :
    exec (.cmpRR ra rb) s = .next t ↔
      ra.toNat < s.nreg ∧ rb.toNat < s.nreg ∧
        t = { s with cw := compareFlags s.cw (s.reg ra.toNat) (s.reg rb.toNat) }.advance 3 := by
  simp only [exec, execCmpRR, withRegs_next, next_eq_next]

theorem exec_jmp64_next : exec (.jmp64 a) s = .next t ↔ t = s.jump a := by
  simp only [exec, execJmp64, next_eq_next]

theorem exec_je64_next : exec (.je64 a) s = .next t ↔ t = if s.flag bitEQ then s.jump a else s.advance 9 := by
  simp only [exec, execJe64, jumpIf, next_eq_next]

theorem exec_jl64_next : exec (.jl64 a) s = .next t ↔ t = if s.flag bitLT then s.jump a else s.advance 9 := by
  simp only [exec, execJl64, jumpIf, next_eq_next]

theorem exec_jg64_next : exec (.jg64 a) s = .next t ↔ t = if s.flag bitGT then s.jump a else s.advance 9 := by
  simp only [exec, execJg64, jumpIf, next_eq_next]

theorem exec_call64_next :
    exec (.call64 a) s = .next t ↔
      s.stackFull = false ∧ s.cd ≠ maxDepth ∧
        t = { s with stk := s.stk ++ [s.pc + 9#64], cd := s.cd + 1#64, pc := a } := by
  simp only [exec, execCall64, withPush_next, withDeeper_next, next_eq_next, State.push_cd]
  rfl

theorem exec_ret_next :
    exec .ret s = .next t ↔
      ∃ w, s.stk.getLast? = some w ∧ s.cd ≠ 0#64 ∧
        t = { s with stk := s.stk.dropLast, cd := s.cd - 1#64, pc := w } := by
  simp only [exec, execRet, withPop_next, withShallower_next, next_eq_next]
  rfl

theorem exec_push64_next :
    exec (.push64 imm) s = .next t ↔ s.stackFull = false ∧ t = (s.push imm).advance 9 := by
  simp only [exec, execPush64, withPush_next, next_eq_next]

theorem exec_popR_next :
    exec (.popR ra) s = .next t ↔
      ra.toNat < s.nreg ∧ ∃ w, s.stk.getLast? = some w ∧
        t = (State.setReg { s with stk := s.stk.dropLast } ra.toNat w).advance 2 := by
  simp only [exec, execPopR, withReg_next, withPop_next, next_eq_next]

theorem exec_outRR_next :
    exec (.outRR ra rb) s = .next t ↔
      s.privileged = true ∧ ra.toNat < s.nreg ∧ rb.toNat < s.nreg ∧
        t = if s.portRegistered (s.reg ra.toNat)
            then (s.emit (.portWrite (s.reg ra.toNat) (s.reg rb.toNat))).advance 3 else s.advance 3 := by
  simp only [exec, execOutRR, whenPrivileged_next, withRegs_next]
  split <;> simp only [next_eq_next]

theorem exec_inRR_next :
    exec (.inRR ra rb) s = .next t ↔
      s.privileged = true ∧ ra.toNat < s.nreg ∧ rb.toNat < s.nreg ∧
        t = if s.portRegistered (s.reg rb.toNat)
            then ((s.answered.emit (.portRead (s.reg rb.toNat) s.answer)).setReg ra.toNat s.answer).advance 3
            else (s.setReg ra.toNat 0#64).advance 3 := by
  simp only [exec, execInRR, whenPrivileged_next, withRegs_next]
  split <;> simp only [next_eq_next]

theorem exec_int8_next : exec (.int8 n) s = .next t ↔ interrupt s.pc n.toNat (s.advance 2) = .next t := Iff.rfl

theorem exec_setint8_64_next :
    exec (.setint8_64 n a) s = .next t ↔
      s.privileged = true ∧ t = { s with ivt := mapInsert n.toNat a s.ivt }.advance 10 := by
  simp only [exec, execSetint8_64, whenPrivileged_next, next_eq_next, interruptNumber]

theorem exec_setf8_next :
    exec (.setf8 k) s = .next t ↔
      s.privileged = true ∧ k.toNat ≤ 4 ∧ t = (s.setFlag k.toNat true).advance 2 := by
  simp only [exec, execSetf8, whenPrivileged_next, withFlag_next, next_eq_next]

theorem exec_clrf8_next :
    exec (.clrf8 k) s = .next t ↔
      s.privileged = true ∧ k.toNat ≤ 4 ∧ t = (s.setFlag k.toNat false).advance 2 := by
  simp only [exec, execClrf8, whenPrivileged_next, withFlag_next, next_eq_next]

end

end Sys2Proof.Machine
end

