-- ==== Sys2Proof/Laws/Step.lean ====
section
/-! SUPPORT. Fetching an instruction, and everything a step can do: it faults, it rests while halted, or it runs a
fetched instruction's meaning and the end-of-dispatch test. -/

namespace Sys2Proof.Machine

section
variable {s t : State} {f : Fault} {i : Instr} {pc0 : Word}

/-! ### Fetch -/

theorem fetchBytes_ok {n : Nat} {bs : List Byte} :
    fetchBytes pc0 n s = .ok (bs, t) ↔
      s.pc.toNat + n ≤ s.cfg.memSize ∧
        bs = (readBytes n s.pc.toNat s).1 ∧ t = (readBytes n s.pc.toNat s).2.advance n := by
  unfold fetchBytes memRead State.inMemory
  by_cases h : s.pc.toNat + n ≤ s.cfg.memSize <;> simp [h, eq_comm]

theorem fetchBytes_error {n : Nat} :
    fetchBytes pc0 n s = .error f ↔
      s.cfg.memSize < s.pc.toNat + n ∧ f = .memoryOutOfRange pc0 s.pc.toNat := by
  unfold fetchBytes memRead State.inMemory
  by_cases h : s.pc.toNat + n ≤ s.cfg.memSize
  · have h2 : ¬ s.cfg.memSize < s.pc.toNat + n := by omega
    simp [h, h2]
  · have h2 : s.cfg.memSize < s.pc.toNat + n := by omega
    simp [h, h2, eq_comm]

/-- Reading changes answers and trace, and advancing changes the pc: apart from the pc the state is as before. -/
theorem SameButAnswers.jump_advance {u v : State} (h : SameButAnswers u v) (n : Nat) (p : Word) :
    SameButAnswers (u.jump p) ((v.advance n).jump p) := by
  obtain ⟨h1, h2⟩ := h
  refine ⟨?_, fun hf => ?_⟩
  · conv_lhs => rw [h1]
    rfl
  · have := h2 hf
    subst this
    rfl

theorem fetchItems_same {ns : List Nat} {bs : List Byte} (p : Word)
    (h : fetchItems pc0 ns s = .ok (bs, t)) : SameButAnswers (s.jump p) (t.jump p) := by
  induction ns generalizing s bs with
  | nil =>
    simp only [fetchItems, Except.ok.injEq, Prod.mk.injEq] at h
    obtain ⟨-, rfl⟩ := h
    exact .refl _
  | cons n ns ih =>
    unfold fetchItems at h
    split at h
    · simp at h
    · rename_i b s1 h1
      split at h
      · simp at h
      · rename_i c s2 h2
        simp only [Except.ok.injEq, Prod.mk.injEq] at h
        obtain ⟨-, rfl⟩ := h
        obtain ⟨-, -, rfl⟩ := fetchBytes_ok.1 h1
        exact ((readBytes_same n s.pc.toNat s).jump_advance n p).trans (ih h2)

/-- A completed fetch passed the bounds check of the opcode byte, the opcode check and the privilege check, and the
meaning starts from the same state but for answers and trace. -/
theorem fetchInstr_ok (h : fetchInstr s = .ok (i, t)) :
    s.pc.toNat + 1 ≤ s.cfg.memSize ∧
    SameButAnswers s (t.jump s.pc) ∧
    ∃ row bs rest, rowOf ((readBytes 1 s.pc.toNat s).1.headD 0#8) = some row ∧
      (row.privileged = true → s.privileged = true) ∧ decode (row.opcode :: bs) = .ok (i, rest) := by
  unfold fetchInstr at h
  split at h
  · simp at h
  · rename_i b s1 h1
    obtain ⟨hlen, rfl, rfl⟩ := fetchBytes_ok.1 h1
    split at h
    · simp at h
    · rename_i row hrow
      split at h
      · simp at h
      · rename_i hpriv
        unfold fetchOperands at h
        split at h
        · simp at h
        · rename_i bs s2 h2
          split at h
          · rename_i j rest hd
            simp only [Except.ok.injEq, Prod.mk.injEq] at h
            obtain ⟨rfl, rfl⟩ := h
            refine ⟨hlen, ?_, row, bs, rest, hrow, by simpa using hpriv, hd⟩
            have h3 := fetchItems_same s.pc h2
            have h4 := (readBytes_same 1 s.pc.toNat s).jump_advance 1 s.pc
            exact h4.trans h3
          · simp at h

/-! ### The step -/

/-- Everything a step does when it answers a next state. -/
theorem step_next :
    step s = .next t ↔
      s.fault = none ∧
        ((s.halted = true ∧ t = s) ∨
         (s.halted = false ∧ ∃ i s1 u, fetchInstr s = .ok (i, s1) ∧ exec i (s1.jump s.pc) = .next u ∧
            t = endOfDispatchTest u)) := by
  unfold step microStep
  cases hf : s.fault with
  | some f => simp [dropResult]
  | none =>
    by_cases hh : s.halted
    · simp [dropResult, hh, eq_comm]
    · cases hi : fetchInstr s with
      | error f => simp [dropResult, hh]
      | ok p =>
        obtain ⟨i, s1⟩ := p
        cases he : exec i (s1.jump s.pc) <;> simp [dropResult, hh, finishMicroStep, he, eq_comm]

/-- Everything a step does when it faults. -/
theorem step_fault :
    step s = .fault f ↔
      s.fault = some f ∨
        (s.fault = none ∧ s.halted = false ∧
          (fetchInstr s = .error f ∨ ∃ i s1, fetchInstr s = .ok (i, s1) ∧ exec i (s1.jump s.pc) = .fault f)) := by
  unfold step microStep
  cases hf : s.fault with
  | some g => simp [dropResult]
  | none =>
    by_cases hh : s.halted
    · simp [dropResult, hh]
    · cases hi : fetchInstr s with
      | error g => simp [dropResult, hh]
      | ok p =>
        obtain ⟨i, s1⟩ := p
        cases he : exec i (s1.jump s.pc) <;> simp [dropResult, hh, finishMicroStep, he]

end

end Sys2Proof.Machine
end

