-- ==== Sys2Proof/Laws/HostCalls.lean ====
section
/-! SUPPORT. What the host's operations can do: memory writes, the micro-step behind a host step, and the run of a
dispatch. -/

namespace Sys2Proof.Machine

section
variable {s t : State} {f : Fault}

/-! ### Memory from the host's side -/

/-- The front's `Set` calls only add to the trace. -/
theorem emitSets_eq (a : Nat) (bs : List Byte) (s : State) :
    emitSets a bs s = { s with events := (emitSets a bs s).events } := by
  induction bs generalizing a s with
  | nil => rfl
  | cons b bs ih =>
    rw [emitSets, ih]
    rfl

theorem memWrite_ok {a n v : Nat} :
    memWrite a n v s = .ok t ↔
      a + n ≤ s.cfg.memSize ∧
        t = if s.cfg.memFront then emitSets a (leBytes n v) s
          else { s with mem := s.mem.writeBytes a (leBytes n v) } := by
  unfold memWrite State.inMemory
  by_cases h : a + n ≤ s.cfg.memSize
  · simp only [h, decide_true, if_true, Except.ok.injEq, true_and]
    exact eq_comm
  · simp [h]

theorem memWrite_error {a n v : Nat} :
    memWrite a n v s = .error f ↔ s.cfg.memSize < a + n ∧ f = .memoryOutOfRange s.pc a := by
  unfold memWrite State.inMemory
  by_cases h : a + n ≤ s.cfg.memSize
  · have h2 : ¬ s.cfg.memSize < a + n := by omega
    simp [h, h2]
  · have h2 : s.cfg.memSize < a + n := by omega
    simp [h, h2, eq_comm]

theorem hostMemRead_ok {a n v : Nat} :
    hostMemRead a n s = .ok (v, t) ↔
      a + n ≤ s.cfg.memSize ∧ v = leValue (readBytes n a s).1 ∧ t = (readBytes n a s).2 := by
  unfold hostMemRead memRead State.inMemory
  by_cases h : a + n ≤ s.cfg.memSize <;> simp [h, eq_comm]

theorem hostMemRead_error {a n : Nat} :
    hostMemRead a n s = .error f ↔ s.cfg.memSize < a + n ∧ f = .memoryOutOfRange s.pc a := by
  unfold hostMemRead
  rw [← memRead_error]
  cases memRead s.pc a n s <;> simp

/-- A host's read changes only answers and trace, and without a front nothing. -/
theorem hostMemRead_same {a n v : Nat} (h : hostMemRead a n s = .ok (v, t)) : SameButAnswers s t := by
  obtain ⟨-, -, rfl⟩ := hostMemRead_ok.1 h
  exact readBytes_same n a s

/-! ### When the host may act (R185) -/

theorem betweenSteps_allowed {r : HostReturn} (h : betweenHostSteps s = true) : betweenSteps s r = r := if_pos h

theorem betweenSteps_notAllowed {r : HostReturn} (h : betweenHostSteps s = false) : betweenSteps s r = .notAllowed := by
  simp [betweenSteps, h]

/-! ### The micro-step and the step -/

/-- A step is a micro-step without its result. -/
theorem step_of_microStep {r : CallResult} (h : microStep s = .next (t, r)) : step s = .next t := by
  simp [step, h, dropResult]

theorem step_fault_iff_microStep : step s = .fault f ↔ microStep s = .fault f := by
  unfold step
  cases microStep s <;> simp [dropResult]

/-- While halted a micro-step changes nothing (R64). -/
theorem microStep_halted (hf : s.fault = none) (hh : s.halted = true) : microStep s = .next (s, .idle) := by
  simp [microStep, hf, hh]

/-- A micro-step that completes answers an opcode byte or `NONE`. -/
theorem microStep_result {r : CallResult} (h : microStep s = .next (t, r)) : (∃ op, r = .executed op) ∨ r = .idle := by
  unfold microStep at h
  split at h
  · simp at h
  · split at h
    · simp only [Host.Outcome.next.injEq, Prod.mk.injEq] at h
      exact .inr h.2.symm
    · split at h
      · simp at h
      · rename_i i s1 _
        cases he : exec i (s1.jump s.pc) <;> simp [finishMicroStep, he] at h
        exact .inl ⟨_, h.2.symm⟩

/-! ### The run of a dispatch (R175) -/

section
variable {d n : Nat} {r : CallResult}

/-- Nothing runs once the frames are down to `d`. -/
theorem runToDepth_done (h : s.df.length ≤ d) : runToDepth d r n s = .returned r s := by
  cases n <;> simp [runToDepth, h]

theorem runToDepth_zero (h : d < s.df.length) : runToDepth d r 0 s = .running s := by
  have : ¬ s.df.length ≤ d := by omega
  simp [runToDepth, this]

theorem runToDepth_next {r' : CallResult} (h : d < s.df.length) (hm : microStep s = .next (t, r')) :
    runToDepth d r (n + 1) s = runToDepth d r n t := by
  have : ¬ s.df.length ≤ d := by omega
  simp [runToDepth, this, hm]

theorem runToDepth_fault (h : d < s.df.length) (hm : microStep s = .fault f) :
    runToDepth d r (n + 1) s = .returned (.fault f) (latch f s) := by
  have : ¬ s.df.length ≤ d := by omega
  simp [runToDepth, this, hm]

end

/-- Latching keeps everything but the latch and the answers. -/
theorem latch_eq (f : Fault) (s : State) :
    latch f s = { s with fault := some f, env := (latch f s).env, envCount := (latch f s).envCount } := rfl

end

end Sys2Proof.Machine
end

