-- ==== Sys2Proof/Laws/PerInstr.lean ====
section
/-! SUPPORT. Facts about every instruction as syntax, one lemma per constructor: the encoding has the length that the
format of the opcode's row fixes (R60, R68), whatever the operands. -/

namespace Sys2Proof.Laws.EncodedLength

/-- The instruction's opcode has a row, and the encoding is as long as the row's format says. -/
def Statement (i : Instr) : Prop :=
  (rowOf i.opcode).map (fun r => r.format.length) = some (encode i).length

theorem halt : Statement .halt := rfl
theorem reset : Statement .reset := rfl
theorem ncall : Statement .ncall := rfl
theorem movR64 (ra : Byte) (imm : Word) : Statement (.movR64 ra imm) := rfl
theorem movRR (ra rb : Byte) : Statement (.movRR ra rb) := rfl
theorem ld8RR (ra rb : Byte) : Statement (.ld8RR ra rb) := rfl
theorem ld32RR (ra rb : Byte) : Statement (.ld32RR ra rb) := rfl
theorem addRR (ra rb : Byte) : Statement (.addRR ra rb) := rfl
theorem addR64 (ra : Byte) (imm : Word) : Statement (.addR64 ra imm) := rfl
theorem subRR (ra rb : Byte) : Statement (.subRR ra rb) := rfl
theorem subR64 (ra : Byte) (imm : Word) : Statement (.subR64 ra imm) := rfl
theorem cmpRR (ra rb : Byte) : Statement (.cmpRR ra rb) := rfl
theorem jmp64 (target : Word) : Statement (.jmp64 target) := rfl
theorem je64 (target : Word) : Statement (.je64 target) := rfl
theorem jl64 (target : Word) : Statement (.jl64 target) := rfl
theorem jg64 (target : Word) : Statement (.jg64 target) := rfl
theorem call64 (target : Word) : Statement (.call64 target) := rfl
theorem ret : Statement .ret := rfl
theorem push64 (imm : Word) : Statement (.push64 imm) := rfl
theorem popR (ra : Byte) : Statement (.popR ra) := rfl
theorem outRR (ra rb : Byte) : Statement (.outRR ra rb) := rfl
theorem inRR (ra rb : Byte) : Statement (.inRR ra rb) := rfl
theorem int8 (n : Byte) : Statement (.int8 n) := rfl
theorem setint8_64 (n : Byte) (target : Word) : Statement (.setint8_64 n target) := rfl
theorem setf8 (k : Byte) : Statement (.setf8 k) := rfl
theorem clrf8 (k : Byte) : Statement (.clrf8 k) := rfl

end Sys2Proof.Laws.EncodedLength
end

