-- ==== Sys2Proof/Laws/Tokenizer.lean ====
section
/-! SUPPORT. How the tokenizer goes on: one character, then the rest; and where a comment ends. -/

namespace Sys2Proof.Machine

section
variable {lc : LexConfig} {m : LexMode} {c : Char} {cs : List Char} {ts : List Token}

/-- Everything lexing a character and then the rest does when it succeeds. -/
theorem lexFrom_cons_ok :
    lexFrom lc m (c :: cs) = .ok ts ↔
      ∃ more, lexFrom lc (lexChar lc m c).2 cs = .ok more ∧ ts = (lexChar lc m c).1 ++ more := by
  have h : lexFrom lc m (c :: cs) = (lexFrom lc (lexChar lc m c).2 cs).map (fun ts => (lexChar lc m c).1 ++ ts) := by
    cases m <;> rfl
  rw [h]
  cases lexFrom lc (lexChar lc m c).2 cs <;> simp [Except.map, eq_comm]

/-- The line feed that ends a comment is lexed in normal mode with no pending token (R131). -/
theorem lexFrom_comment_lineFeed : lexFrom lc .comment ('\n' :: cs) = lexFrom lc (.normal []) ('\n' :: cs) := rfl

/-- Any other character of a comment is dropped (R131). -/
theorem lexFrom_comment_drop (h : c ≠ '\n') : lexFrom lc .comment (c :: cs) = lexFrom lc .comment cs := by
  rw [lexFrom, lexChar, if_neg h]
  cases lexFrom lc .comment cs <;> rfl

end

end Sys2Proof.Machine
end

