-- ==== Sys2Proof/Tests/Slice0.lean ====
section
/-! SUPPORT. Tests: ill-formed instructions, decoding, one step per vector of spec/95_test_vectors.md, host calls, the
assembler, and for every statement with hypotheses a state and operands that meet them. -/

open Sys2Proof Sys2Proof.Machine

namespace Sys2Proof.Tests

/-! ### Helpers -/

/-- The reset state of the vectors' conventions, with bytes in memory from an address up. -/
def boot (a : Nat) (bs : List Byte) : State := { State.reset with mem := Memory.writeBytes [] a bs }

/-- The state a meaning or a step answers. -/
def nextOf : Result → Option State
  | .next t => some t
  | .fault _ => none
  | .refused _ => none

/-- The fault a meaning or a step answers. -/
def faultOf : Result → Option Fault
  | .next _ => none
  | .fault f => some f
  | .refused _ => none

/-- One field of the state after one step. -/
def after {α : Type} (s : State) (g : State → α) : Option α := (nextOf (step s)).map g

/-- The fault of one step, its code, `pc0` and `info` (R162). -/
def faultAfter (s : State) : Option (Nat × Word × Nat) := (faultOf (step s)).map (fun f => (f.code, f.pc0, f.info))

/-- What a call of the host gave back, its trace and one field of the state it left. -/
def returnedWith {α : Type} (g : State → α) : HostReturn → Option (CallResult × α)
  | .returned r t => some (r, g t)
  | .running _ => none
  | .notAllowed => none
  | .refused _ => none

/-! ### WellFormed refuses each ill-formed field (R12, R18) -/

theorem test_wf_refuses_first_register :
    Instr.wf 16 (.movR64 16 0) = false ∧ Instr.wf 16 (.movRR 16 0) = false ∧ Instr.wf 16 (.ld8RR 16 0) = false ∧
    Instr.wf 16 (.ld32RR 16 0) = false ∧ Instr.wf 16 (.addRR 16 0) = false ∧ Instr.wf 16 (.addR64 16 0) = false ∧
    Instr.wf 16 (.subRR 16 0) = false ∧ Instr.wf 16 (.subR64 16 0) = false ∧ Instr.wf 16 (.cmpRR 16 0) = false ∧
    Instr.wf 16 (.popR 16) = false ∧ Instr.wf 16 (.outRR 16 0) = false ∧ Instr.wf 16 (.inRR 16 0) = false := by decide

theorem test_wf_refuses_second_register :
    Instr.wf 16 (.movRR 0 16) = false ∧ Instr.wf 16 (.ld8RR 0 16) = false ∧ Instr.wf 16 (.ld32RR 0 16) = false ∧
    Instr.wf 16 (.addRR 0 16) = false ∧ Instr.wf 16 (.subRR 0 16) = false ∧ Instr.wf 16 (.cmpRR 0 16) = false ∧
    Instr.wf 16 (.outRR 0 16) = false ∧ Instr.wf 16 (.inRR 0 255) = false := by decide

theorem test_wf_refuses_flag_index :
    Instr.wf 16 (.setf8 5) = false ∧ Instr.wf 16 (.clrf8 255) = false ∧ Instr.wf 16 (.setf8 4) = true := by decide

theorem test_wf_accepts_last_register : Instr.wf 16 (.movRR 15 15) = true ∧ Instr.wf 256 (.movRR 255 255) = true := by
  decide

/-! ### Decoding: bytes written out from the opcode map and the formats (R60, R65) -/

theorem test_decode_halt : decode [0x01] = .ok (.halt, []) := rfl
theorem test_decode_reset : decode [0x02] = .ok (.reset, []) := rfl
theorem test_decode_ncall : decode [0x03] = .ok (.ncall, []) := rfl
theorem test_decode_mov_r_64 :
    decode [0x10, 0x03, 0x08, 0x07, 0x06, 0x05, 0x04, 0x03, 0x02, 0x01] = .ok (.movR64 3 0x0102030405060708, []) := rfl
theorem test_decode_mov_r_r : decode [0x11, 0x02, 0x01] = .ok (.movRR 2 1, []) := rfl
theorem test_decode_ld8_r_r : decode [0x12, 0x02, 0x01] = .ok (.ld8RR 2 1, []) := rfl
theorem test_decode_ld32_r_r : decode [0x13, 0x02, 0x01] = .ok (.ld32RR 2 1, []) := rfl
theorem test_decode_add_r_r : decode [0x20, 0x02, 0x01] = .ok (.addRR 2 1, []) := rfl
theorem test_decode_add_r_64 :
    decode [0x21, 0x02, 0xFF, 0xFF, 0xFF, 0xFF, 0xFF, 0xFF, 0xFF, 0x7F] = .ok (.addR64 2 0x7FFFFFFFFFFFFFFF, []) := rfl
theorem test_decode_sub_r_r : decode [0x22, 0x02, 0x01] = .ok (.subRR 2 1, []) := rfl
theorem test_decode_sub_r_64 :
    decode [0x23, 0x02, 0x01, 0, 0, 0, 0, 0, 0, 0x80] = .ok (.subR64 2 0x8000000000000001, []) := rfl
theorem test_decode_cmp_r_r : decode [0x24, 0x02, 0x01] = .ok (.cmpRR 2 1, []) := rfl
theorem test_decode_jmp_64 : decode [0x30, 0x40, 0x01, 0, 0, 0, 0, 0, 0] = .ok (.jmp64 0x140, []) := rfl
theorem test_decode_je_64 : decode [0x31, 0x40, 0x01, 0, 0, 0, 0, 0, 0] = .ok (.je64 0x140, []) := rfl
theorem test_decode_jl_64 : decode [0x32, 0x40, 0x01, 0, 0, 0, 0, 0, 0] = .ok (.jl64 0x140, []) := rfl
theorem test_decode_jg_64 : decode [0x33, 0x40, 0x01, 0, 0, 0, 0, 0, 0] = .ok (.jg64 0x140, []) := rfl
theorem test_decode_call_64 : decode [0x34, 0x40, 0x01, 0, 0, 0, 0, 0, 0] = .ok (.call64 0x140, []) := rfl
theorem test_decode_ret : decode [0x35, 0x35] = .ok (.ret, [0x35]) := rfl
theorem test_decode_push_64 : decode [0x40, 0x63, 0, 0, 0, 0, 0, 0, 0x80] = .ok (.push64 0x8000000000000063, []) := rfl
theorem test_decode_pop_r : decode [0x41, 0x02] = .ok (.popR 2, []) := rfl
theorem test_decode_out_r_r : decode [0x50, 0x02, 0x01] = .ok (.outRR 2 1, []) := rfl
theorem test_decode_in_r_r : decode [0x51, 0x02, 0x01] = .ok (.inRR 2 1, []) := rfl
theorem test_decode_int_8 : decode [0x60, 0xFF] = .ok (.int8 255, []) := rfl
theorem test_decode_setint_8_64 :
    decode [0x61, 0x03, 0x40, 0, 0, 0, 0, 0, 0, 0x01] = .ok (.setint8_64 3 0x0100000000000040, []) := rfl
theorem test_decode_setf_8 : decode [0x62, 0x04] = .ok (.setf8 4, []) := rfl
theorem test_decode_clrf_8 : decode [0x63, 0x00] = .ok (.clrf8 0, []) := rfl

theorem test_decode_rejects : decode [0x00] = .error (.invalidOpcode 0x00) ∧ decode [0x36] = .error (.invalidOpcode 0x36) ∧
    decode [0x64] = .error (.invalidOpcode 0x64) ∧ decode [0x30, 0, 0, 0] = .error .truncated :=
  ⟨rfl, rfl, rfl, rfl⟩

/-- A table word: the first byte in bits 7..0. -/
theorem test_table_word : decodeTableWord 80 0x80000000000000000310 = some (.movR64 3 0x8000000000000000) ∧
    decodeTableWord 8 0x35 = some .ret ∧ decodeTableWord 8 0x36 = none := by decide

theorem test_with_fetch_word : after (State.reset.withFetchWord 80 0x2A0310) (fun t => (t.reg 3, t.pc)) = some (42, 10) := by
  decide

/-! ### Single steps (vectors V1-V95) -/

/-- V3: signed -/
theorem test_cmp_is_signed :
    after ((boot 0 [0x24, 0, 1]).setReg 0 (-1) |>.setReg 1 1) (fun t => (t.cw, t.pc)) = some (0x15, 3) := by decide

/-- V4 -/
theorem test_cmp_keeps_p_and_ie :
    after { boot 0 [0x24, 0, 1] with regs := 3 :: 2 :: List.replicate 14 0, cw := 0x1F } (·.cw) = some 0x19 := by decide

/-- V17, first step -/
theorem test_jmp_any_target :
    after (boot 0 [0x30, 0xFF, 0xFF, 0xFF, 0xFF, 0xFF, 0xFF, 0xFF, 0xFF]) (·.pc) = some 0xFFFFFFFFFFFFFFFF := by decide

/-- V18: the immediate does not fit -/
theorem test_jmp_truncated :
    faultAfter { boot 0xFFFC [0x30] with pc := 0xFFFC } = some (7, 0xFFFC, 0xFFFD) := by decide

/-- V7 -/
theorem test_je_taken : after { boot 0 [0x31, 0x40] with cw := 0x13 } (·.pc) = some 0x40 := by decide
/-- V8 -/
theorem test_je_not_taken : after { boot 0 [0x31, 0x40] with cw := 0x15 } (·.pc) = some 9 := by decide
/-- V9 -/
theorem test_jl_taken : after { boot 0 [0x32, 0x40] with cw := 0x15 } (·.pc) = some 0x40 := by decide
theorem test_jl_not_taken : after { boot 0 [0x32, 0x40] with cw := 0x1B } (·.pc) = some 9 := by decide
/-- V10 -/
theorem test_jg_taken : after { boot 0 [0x33, 0x40] with cw := 0x19 } (·.pc) = some 0x40 := by decide
/-- V11 -/
theorem test_jg_not_taken : after (boot 0 [0x33, 0x40]) (·.pc) = some 9 := by decide

/-- V12 -/
theorem test_call :
    after { boot 0x10 [0x34, 0x40] with pc := 0x10 } (fun t => (t.stk, t.cd, t.pc)) = some ([0x19], 1, 0x40) := by decide

/-- R85 with the stack of V55: no room for the return address -/
theorem test_call_stack_full :
    faultAfter { boot 0 [0x34, 0x40] with stk := [1, 2], cfg := { Config.default with stackMax := some 2 } } =
      some (9, 0, 2) := by decide

/-- V13 -/
theorem test_ret :
    after { boot 0x40 [0x35] with pc := 0x40, stk := [0x19], cd := 1 } (fun t => (t.stk, t.cd, t.pc)) =
      some ([], 0, 0x19) := by decide

/-- V21 -/
theorem test_mov_r_64 :
    after (boot 0 [0x10, 3, 0, 0, 0, 0, 0, 0, 0, 0x80]) (fun t => (t.reg 3, t.pc)) = some (0x8000000000000000, 10) := by
  decide

/-- V94: the truncated immediate is reported, not the bad register -/
theorem test_mov_r_64_truncated :
    faultAfter { boot 0xFFFB [0x10, 0x20, 1, 2, 3] with pc := 0xFFFB } = some (7, 0xFFFB, 0xFFFD) := by decide

/-- V23 -/
theorem test_mov_r_r : after ((boot 0 [0x11, 0, 1]).setReg 1 (-7)) (fun t => (t.reg 0, t.pc)) = some (-7, 3) := by decide
/-- V38 -/
theorem test_mov_r_r_index : faultAfter (boot 0 [0x11, 0x10, 0]) = some (3, 0, 16) := by decide

/-- V31 -/
theorem test_ld8_sign :
    after { boot 0 [0x12, 0, 1] with
      mem := [(0, 0x12), (2, 1), (0x100, 0x80)], regs := 0 :: 0x100 :: List.replicate 14 0 } (·.reg 0) =
      some (-128) := by decide

/-- V36 -/
theorem test_ld8_negative_address :
    faultAfter ((boot 0 [0x12, 0, 1]).setReg 1 (-1)) = some (7, 0, 0xFFFFFFFFFFFFFFFF) := by decide

/-- V32 -/
theorem test_ld32_little_endian :
    after { boot 0 [0x13, 0, 1] with
      mem := Memory.writeBytes [(0, 0x13), (2, 1)] 0x100 [0x78, 0x56, 0x34, 0x12]
      regs := 0 :: 0x100 :: List.replicate 14 0 } (·.reg 0) = some 0x12345678 := by decide

/-- V34 -/
theorem test_ld32_straddles : faultAfter ((boot 0 [0x13, 0, 1]).setReg 1 0xFFFD) = some (7, 0, 0xFFFD) := by decide

/-- V24 -/
theorem test_add_wraps :
    after { boot 0 [0x20, 0, 1] with regs := 0x7FFFFFFFFFFFFFFF :: 1 :: List.replicate 14 0 }
      (fun t => (t.reg 0, t.cw)) = some (0x8000000000000000, 0x11) := by decide

/-- V25 -/
theorem test_add_same_register : after ((boot 0 [0x20, 2, 2]).setReg 2 21) (·.reg 2) = some 42 := by decide

/-- V26 -/
theorem test_add_immediate :
    after ((boot 0 [0x21, 0, 0xFF, 0xFF, 0xFF, 0xFF, 0xFF, 0xFF, 0xFF, 0xFF]).setReg 0 10)
      (fun t => (t.reg 0, t.pc)) = some (9, 10) := by decide

/-- V27 -/
theorem test_sub :
    after { boot 0 [0x22, 0, 1] with regs := 5 :: 7 :: List.replicate 14 0 } (·.reg 0) = some (-2) := by decide

/-- V28 -/
theorem test_sub_immediate_wraps :
    after ((boot 0 [0x23, 0, 1]).setReg 0 0x8000000000000000) (·.reg 0) = some 0x7FFFFFFFFFFFFFFF := by decide

/-- V50 -/
theorem test_push :
    after (boot 0 [0x40, 0xFF, 0xFF, 0xFF, 0xFF, 0xFF, 0xFF, 0xFF, 0xFF]) (fun t => (t.stk, t.pc, t.cd)) =
      some ([0xFFFFFFFFFFFFFFFF], 9, 0) := by decide

/-- V55 -/
theorem test_push_full :
    faultAfter { boot 0 [0x40, 3] with stk := [1, 2], cfg := { Config.default with stackMax := some 2 } } =
      some (9, 0, 2) := by decide

/-- V52 -/
theorem test_pop :
    after { boot 0 [0x41, 3] with stk := [1, 2] } (fun t => (t.reg 3, t.stk, t.pc)) = some (2, [1], 2) := by decide

/-- V54: the index check precedes the stack check -/
theorem test_pop_index_first : faultAfter (boot 0 [0x41, 0x20]) = some (3, 0, 32) := by decide

/-- V62 -/
theorem test_out :
    after { boot 0 [0x50, 0, 1] with
      regs := -1 :: -2 :: List.replicate 14 0, ports := [0xFFFFFFFFFFFFFFFF] } (fun t => (t.events, t.pc)) =
      some ([.portWrite 0xFFFFFFFFFFFFFFFF 0xFFFFFFFFFFFFFFFE], 3) := by decide

/-- V66 -/
theorem test_out_unprivileged :
    faultAfter { boot 0 [0x50, 0, 1] with cw := 0x10, ports := [0] } = some (2, 0, 0x50) := by decide

/-- V65 -/
theorem test_in :
    after { boot 0 [0x51, 2, 2] with regs := 0 :: 0 :: 7 :: List.replicate 13 0, ports := [7], env := [9, 8] }
      (fun t => (t.reg 2, t.events, t.env)) = some (9, [.portRead 7 9], [8]) := by decide

/-- V64 -/
theorem test_in_unregistered :
    after { boot 0 [0x51, 0, 1] with regs := 5 :: 7 :: List.replicate 14 0 } (fun t => (t.reg 0, t.events)) =
      some (0, []) := by decide

/-- V70 -/
theorem test_halt : after (boot 0 [0x01]) (fun t => (t.halted, t.pc)) = some (true, 1) := by decide

/-- V72 -/
theorem test_reset :
    after { (boot 0x30 [0x02]).setReg 3 9 with
        stk := [1, 2], cd := 2, ivt := [(5, 0x40)], cw := 0x0B, pc := 0x30 } id =
      some (boot 0x30 [0x02]) := by decide

/-- V74 -/
theorem test_ncall : faultAfter (boot 0 [0x03]) = some (12, 0, 0) := by decide

/-- V76 -/
theorem test_setint_replaces :
    after { boot 0 [0x61, 3, 0x80] with ivt := [(3, 0x40)] } (fun t => (t.ivt, t.pc)) = some ([(3, 0x80)], 10) := by decide

/-- V95: privilege before operand fetch -/
theorem test_setint_privilege_first :
    faultAfter { boot 0xFFFF [0x61] with pc := 0xFFFF, cw := 0x10 } = some (2, 0xFFFF, 0x61) := by decide

/-- V77 -/
theorem test_setf : after { boot 0 [0x62, 4] with cw := 0x01 } (fun t => (t.cw, t.pc)) = some (0x11, 2) := by decide
/-- V80 -/
theorem test_setf_index : faultAfter (boot 0 [0x62, 5]) = some (4, 0, 5) := by decide
/-- V78 -/
theorem test_clrf : after (boot 0 [0x63, 0]) (fun t => (t.cw, t.pc)) = some (0x10, 2) := by decide
/-- V81 -/
theorem test_clrf_index : faultAfter (boot 0 [0x63, 0xFF]) = some (4, 0, 255) := by decide

/-- V82 -/
theorem test_int :
    after { boot 0x10 [0x60, 3] with pc := 0x10, cw := 0x10, ivt := [(3, 0x40)] }
      (fun t => (t.events, t.stk, t.cw, t.df, t.pc)) =
      some ([.hook 3], [0x12], 0x11, [⟨false, 0⟩], 0x40) := by decide

/-- V83 -/
theorem test_int_no_handler :
    after { boot 0 [0x60, 3] with cw := 0x10 } (fun t => (t.events, t.cw, t.pc, t.df)) =
      some ([.hook 3], 0x10, 2, []) := by decide

/-- V91: bytes outside the table -/
theorem test_invalid_opcode : faultAfter (boot 0 [0xFF]) = some (1, 0, 0xFF) := by decide

/-- V93 -/
theorem test_fetch_outside : faultAfter { boot 0 [] with pc := 0x10000 } = some (7, 0x10000, 0x10000) := by decide

/-- P8, micro-step 6: the inner dispatch ends, the outer one stays open. -/
theorem test_ret_ends_inner_dispatch :
    after { boot 0x2E [0x35] with pc := 0x2E, stk := [0x16, 0x19], cd := 2, df := [⟨true, 0⟩, ⟨true, 1⟩] }
      (fun t => (t.stk, t.cd, t.pc, t.df)) = some ([0x16], 1, 0x19, [⟨true, 0⟩]) := by decide

/-- P10: `RESET` in a handler entered from unprivileged code ends the dispatch and loses `P`. -/
theorem test_reset_in_handler :
    after { boot 0x0F [0x02] with pc := 0x0F, stk := [0x0E], cd := 1, df := [⟨false, 0⟩], ivt := [(3, 0x0F)] }
      (fun t => (t.pc, t.cw, t.df, t.stk)) = some (0, 0x10, [], []) := by decide

/-- R44: with a front every byte is one answer, ascending. -/
theorem test_front_fetch :
    after { State.reset with cfg := { Config.default with memFront := true }, env := [0x41, 0x102], stk := [5] }
      (fun t => (t.reg 2, t.events, t.env)) = some (5, [.frontGet 0 0x41, .frontGet 1 2], []) := by decide

/-! ### Host calls (V71, V100-V105) and construction -/

/-- V71 -/
theorem test_step_while_halted :
    returnedWith id (hostStep 5 { boot 0 [0x01] with halted := true, pc := 1 }) =
      some (.idle, { boot 0 [0x01] with halted := true, pc := 1, events := [.stepResult .idle] }) := by decide

/-- R175: a host step of `INT_8` runs the handler to its `RET`. -/
theorem test_host_step_runs_the_handler :
    returnedWith (fun t => (t.pc, t.cd, t.df, t.events)) (hostStep 1 { boot 0 [0x60, 3, 0x35] with ivt := [(3, 2)] }) =
      some (.executed 0x60, 2, 0, [], [.hook 3, .stepResult (.executed 0x60)]) := by decide

/-- V100 -/
theorem test_host_interrupt_wakes :
    returnedWith (fun t => (t.halted, t.cw, t.events))
        (hostInterrupt 0 5 { State.reset with halted := true, pc := 1, cw := 0x10 }) =
      some (.unit, false, 0x10, [.hook 5]) := by decide

/-- V101 -/
theorem test_host_interrupt_gated :
    returnedWith (fun t => (t.halted, t.events)) (hostInterrupt 0 5 { State.reset with halted := true, cw := 0x01 }) =
      some (.unit, true, []) := by decide

/-- V102 -/
theorem test_host_interrupt_index :
    returnedWith (·.fault) (hostInterrupt 0 300 { State.reset with pc := 0x20 }) =
      some (.fault (.interruptIndexOutOfRange 0x20 300), some (.interruptIndexOutOfRange 0x20 300)) := by decide

/-- V103: still running after any number of micro-steps; four here -/
theorem test_host_interrupt_hangs :
    hostInterrupt 4 5 { State.reset with halted := true, pc := 1, ivt := [(5, 0x40)] } =
      .running { State.reset with
        halted := true, pc := 0x40, ivt := [(5, 0x40)], stk := [1], cd := 1, df := [⟨true, 0⟩], events := [.hook 5] } := by
  decide

/-- V104 -/
theorem test_latched_fault_is_returned :
    returnedWith (·.fault) (hostStep 3 { boot 0 [0x01] with fault := some (.callDepthUnderflow 7) }) =
      some (.fault (.callDepthUnderflow 7), some (.callDepthUnderflow 7)) := by decide

/-- V105 -/
theorem test_host_reset :
    returnedWith id (hostMove 0 .reset { (boot 0 [0x01]).setReg 1 4 with
        stk := [9], halted := true, fault := some (.invalidOpcode 0 0), df := [⟨true, 0⟩] }) =
      some (.unit, boot 0 [0x01]) := by decide

/-- The reset state is the engine as constructed with the defaults. -/
theorem test_reset_is_construction : State.reset = construct 16 Config.default [] [] true := rfl

theorem test_host_memory_write :
    (memWrite 0xFFFE 2 0x11223 State.reset).toOption.map (·.mem) = some [(0xFFFE, 0x23), (0xFFFF, 0x12)] ∧
    (memWrite 0xFFFF 2 0 State.reset).toOption = none := by decide

/-- R185, R44: a read is a move between host steps; with a front it takes one answer per byte and is traced. -/
theorem test_host_memory_read :
    returnedWith (·.mem) (hostMove 0 (.readMemory 0x35 2) (boot 0x35 [2, 1])) = some (.value 0x102, [(0x35, 2), (0x36, 1)]) ∧
    returnedWith (fun t => (t.env, t.events)) (hostMove 0 (.readMemory 8 2)
        { State.reset with cfg := { Config.default with memFront := true }, env := [0x141, 2, 7] }) =
      some (.value 0x241, [7], [.frontGet 8 0x41, .frontGet 9 2]) ∧
    returnedWith (·.fault) (hostMove 0 (.readMemory 0xFFFF 2) State.reset) =
      some (.fault (.memoryOutOfRange 0 0xFFFF), none) ∧
    hostMove 0 (.readMemory 0 1) { State.reset with df := [⟨true, 0⟩], cd := 1 } = .notAllowed ∧
    returnedWith (·.cw) (hostMove 0 .readControlWord State.reset) = some (.value 0x11, 0x11) := by decide

theorem test_read_string :
    (readString 0 0x35 (boot 0x35 [2, 0, 0, 0, 0x41, 0x42])).toOption.map Prod.fst = some [0x41, 0x42] := by decide

/-! ### The stack block (V110-V117) -/

theorem test_stack_block :
    (stackPeek 0 { State.reset with stk := [10, 20, 30] }).toOption = some 30 ∧
    (stackPeek 1 { State.reset with stk := [10, 20, 30] }).toOption = some 20 ∧
    (stackPopAt 2 { State.reset with stk := [10, 20, 30] }).toOption.map (fun p => (p.1, p.2.stk)) =
      some (10, [20, 30]) ∧
    (stackSetCount 1 { State.reset with stk := [10, 20, 30] }).toOption.map (·.stk) = some [10] := by decide

theorem test_stack_block_underflow :
    stackPopAt 3 { State.reset with stk := [10, 20, 30] } = .error (.stackUnderflow 0 3) ∧
    stackSetCount 2 { State.reset with stk := [10] } = .error (.stackUnderflow 0 2) := ⟨rfl, rfl⟩

theorem test_typed_pop :
    (stackPopTyped false 8 { State.reset with stk := [0x1FF] }).toOption.map Prod.fst = some 255 ∧
    (stackPopTyped true 8 { State.reset with stk := [0x80] }).toOption.map Prod.fst = some (-128) := by decide

/-! ### The assembler (V120-V139) -/

/-- The image of a source text, if it assembles. -/
def imageOf (src : String) : Option (List Byte) := (assemble src).toOption

/-- The failure of a source text, if it does not assemble. -/
def failureOf (src : String) : Option AsmError :=
  match assemble src with
  | .ok _ => none
  | .error e => some e

/-- V120-V123, V126 -/
theorem test_asm_integers :
    imageOf "ref -1l" = some (List.replicate 8 0xFF) ∧ imageOf "ref 255b" = some [0xFF] ∧
    imageOf "ref 65535u ref -2i" = some [0xFF, 0xFF, 0, 0, 0xFE, 0xFF, 0xFF, 0xFF] ∧
    imageOf "ref 18446744073709551615ul" = some (List.replicate 8 0xFF) ∧
    imageOf "ref 5L" = some [5, 0, 0, 0, 0, 0, 0, 0] := by decide

/-- V124 -/
theorem test_asm_float32 : imageOf "ref 1.5f" = some [0, 0, 0xC0, 0x3F] := by decide
/-- V125 -/
theorem test_asm_float64 : imageOf "ref -2d" = some [0, 0, 0, 0, 0, 0, 0, 0xC0] := by decide
/-- IEEE 754: 0.1 in binary64 is 0x3FB999999999999A; 2^24 + 1 in binary32 is a tie and goes to the even 2^24. -/
theorem test_asm_float_rounding :
    imageOf "ref 0.1d" = some [0x9A, 0x99, 0x99, 0x99, 0x99, 0x99, 0xB9, 0x3F] ∧
    imageOf "ref 16777217f" = some [0, 0, 0x80, 0x4B] := by decide

/-- V127 -/
theorem test_asm_text_escape :
    imageOf "\"a\\tb\"" = some [8, 0, 0, 0, 0, 0, 0, 0, 3, 0, 0, 0, 0x61, 0x09, 0x62] := by decide

/-- V128 -/
theorem test_asm_interning :
    imageOf "5l 5ul 5l" = some ([0x18, 0, 0, 0, 0, 0, 0, 0] ++ [0x20, 0, 0, 0, 0, 0, 0, 0] ++ [0x18, 0, 0, 0, 0, 0, 0, 0] ++
      [5, 0, 0, 0, 0, 0, 0, 0] ++ [5, 0, 0, 0, 0, 0, 0, 0]) := by decide

/-- V129 -/
theorem test_asm_label_named_like_a_mnemonic : imageOf "HALT: &HALT" = some (List.replicate 8 0) := by decide
/-- V130, V131 -/
theorem test_asm_comma_and_comment :
    imageOf "HALT,HALT" = some [1, 1] ∧ imageOf "HALT;comment HALT\nHALT" = some [1, 1] := by decide

/-- R131: the line feed after a comment is not part of it, so a configuration that makes it a symbol gets its token; and
where it is the comment character it begins the next comment. -/
theorem test_lex_line_feed_after_comment :
    (tokenize { comment := ';', symbols := ['\n'] } "a;b\nc".toList).toOption = some [['a'], ['\n'], ['c']] ∧
    (tokenize { comment := '\n', symbols := [] } "a\nb\nc".toList).toOption = some [['a']] := by decide

/-- V132-V135 -/
theorem test_asm_failures :
    failureOf "JMP_64 &nowhere" = some (.undefinedLabel ['n', 'o', 'w', 'h', 'e', 'r', 'e']) ∧
    failureOf "MOV_R_64 0, 5" = some (.unparsableLiteral ['0']) ∧
    failureOf "x: x: HALT" = some (.duplicateLabel ['x']) ∧
    failureOf "MOV_R_64 ref 0b, \"abc" = some .malformedQuoting := by decide

/-- V136-V139 -/
theorem test_asm_bad_literals :
    failureOf "ref 300b" = some (.unparsableLiteral ['3', '0', '0', 'b']) ∧
    failureOf "ref 0x10l" = some (.unparsableLiteral ['0', 'x', '1', '0', 'l']) ∧
    failureOf "halt" = some (.unparsableLiteral ['h', 'a', 'l', 't']) ∧
    failureOf "b" = some (.unparsableLiteral ['b']) := by decide

/-- Scenario C: one data entry, two equal addresses. -/
theorem test_asm_scenario_c :
    imageOf "MOV_R_64 ref 0b, \"same string\"\nMOV_R_64 ref 1b, \"same string\"\nHALT\n" =
      some ([0x10, 0, 0x15, 0, 0, 0, 0, 0, 0, 0] ++ [0x10, 1, 0x15, 0, 0, 0, 0, 0, 0, 0] ++ [0x01] ++
        [0x0B, 0, 0, 0, 0x73, 0x61, 0x6D, 0x65, 0x20, 0x73, 0x74, 0x72, 0x69, 0x6E, 0x67]) := by decide

/-! ### Witnesses: states and operands that meet each statement's hypotheses -/

/-- Unprivileged reset state. -/
def user : State := { State.reset with cw := 0x10 }

/-- A handler for 3 is registered. -/
def withHandler : State := { State.reset with ivt := [(3, 0x40)] }

/-- A stack of capacity 2 that is full. -/
def fullStack : State := { withHandler with stk := [1, 2], cfg := { Config.default with stackMax := some 2 } }

/-- The largest call depth. -/
def deepest : State := { withHandler with cd := 0xFFFFFFFFFFFFFFFF }

/-- A memory front with answers ready. -/
def fronted (answers : List Word) : State :=
  { State.reset with cfg := { Config.default with memFront := true }, env := answers }

/-- 256 registers. -/
def allRegisters : State := construct 256 Config.default [] [] true

theorem witness_EncodeInvertsDecode : decode [0x41, 2, 7] = .ok (.popR 2, [7]) := rfl

theorem witness_DispatchIsTotal :
    (∃ i, decode [0x10, 3, 0, 0, 0, 0, 0, 0, 0, 0] = .ok (i, []) ∧ i.opcode = 0x10) ∧
    Running (boot 0 [0xFF]) ∧ (boot 0 [0xFF]).pc.toNat < (boot 0 [0xFF]).cfg.memSize ∧
    (readByte (boot 0 [0xFF]).pc.toNat (boot 0 [0xFF])).1 = 0xFF ∧
    (readByte 0 (fronted [0x3FF])).1 = 0xFF := ⟨⟨_, rfl, rfl⟩, by decide⟩

theorem witness_OpcodeFixesLength :
    decode [0x35] = .ok (.ret, []) ∧ decode [0x41, 0] = .ok (.popR 0, []) ∧
    decode [0x51, 0, 1, 9] = .ok (.inRR 0 1, [9]) ∧ decode [0x40, 0, 0, 0, 0, 0, 0, 0, 0] = .ok (.push64 0, []) ∧
    decode [0x61, 0, 0, 0, 0, 0, 0, 0, 0, 0] = .ok (.setint8_64 0 0, []) := ⟨rfl, rfl, rfl, rfl, rfl⟩

/-- The last byte of memory, and a privileged instruction of 10 bytes. -/
theorem witness_StepRunsTheDecodedInstruction :
    (Running { boot 0xFFFF [0x35] with pc := 0xFFFF } ∧ NoFront { boot 0xFFFF [0x35] with pc := 0xFFFF } ∧
      decode (bytesAt { boot 0xFFFF [0x35] with pc := 0xFFFF } 0xFFFF 1) = .ok (.ret, []) ∧
      0xFFFF + Instr.ret.length ≤ Config.default.memSize ∧ Config.default.memSize ≤ 2 ^ 64) ∧
    (Running (boot 0 [0x61, 3, 0x40]) ∧ (boot 0 [0x61, 3, 0x40]).privileged = true ∧
      Instr.isPrivileged (.setint8_64 3 0x40) = true ∧
      decode (bytesAt (boot 0 [0x61, 3, 0x40]) 0 10) = .ok (.setint8_64 3 0x40, [])) :=
  ⟨⟨by decide, by decide, rfl, by decide, by decide⟩, by decide, by decide, by decide, rfl⟩

theorem witness_FrontedStepRunsTheAnsweredInstruction :
    Running (fronted [0x141, 2, 7]) ∧ (fronted [0x141, 2, 7]).cfg.memFront = true ∧
    (fronted [0x141, 2, 7]).cfg.memSize ≤ 2 ^ 64 ∧ Instr.isPrivileged (.popR 2) = false ∧
    (fronted [0x141, 2, 7]).env = [0x141, 2] ++ [7] ∧
    ([0x141, 2] : List Word).map (BitVec.setWidth 8) = encode (.popR 2) ∧
    (fronted [0x141, 2, 7]).pc.toNat + Instr.length (.popR 2) ≤ (fronted [0x141, 2, 7]).cfg.memSize := by decide

theorem witness_PrivilegedSetFaultsInUserMode :
    (let s := { user with mem := [(0, 0x63)] }
     Running s ∧ s.privileged = false ∧ s.pc.toNat < s.cfg.memSize ∧
      (readByte s.pc.toNat s).1.toNat ∈ [0x02, 0x50, 0x51, 0x61, 0x62, 0x63]) ∧
    step { user with mem := [(0, 0x63)] } = .fault (.privilegeViolation 0 0x63) := ⟨by decide, rfl⟩

/-- At the end of memory; and one byte short for the second item of `FR64` and for the only item of `F64`. -/
theorem witness_FetchOutsideMemoryFaults :
    (let s := { State.reset with pc := 0x10000 }
     Running s ∧ s.cfg.memSize ≤ s.pc.toNat) ∧
    (let s := { boot 0xFFF7 [0x10] with pc := 0xFFF7 }
     Running s ∧ s.pc.toNat < s.cfg.memSize ∧
      (rowOf (readByte s.pc.toNat s).1).map (·.format.items) = some ([1] ++ 8 :: []) ∧
      s.pc.toNat + 1 + ([1] : List Nat).sum < 2 ^ 64 ∧ s.pc.toNat + 1 + ([1] : List Nat).sum ≤ s.cfg.memSize ∧
      s.cfg.memSize < s.pc.toNat + 1 + ([1] : List Nat).sum + 8) ∧
    (let s := { boot 0xFFF8 [0x30] with pc := 0xFFF8 }
     (rowOf (readByte s.pc.toNat s).1).map (·.format.items) = some ([] ++ 8 :: []) ∧
      s.cfg.memSize < s.pc.toNat + 1 + ([] : List Nat).sum + 8) := by decide

theorem witness_PcAdvancesByTheLength :
    (∃ t, fetchInstr (boot 0 [0x41, 2]) = .ok (.popR 2, t)) ∧
    (canTransfer .halt = false ∧ ∃ t, exec .halt State.reset = .next t) := ⟨⟨_, rfl⟩, rfl, _, rfl⟩

theorem witness_HaltedMicroStepIsNoOp : Resting { State.reset with halted := true } := by decide

theorem witness_FaultLatchIsTerminal :
    (State.reset.fault = none ∧ ∃ t, hostStep 0 State.reset = .returned (.fault (.invalidOpcode 0 0)) t) ∧
    (∃ t, hostInterrupt 0 256 State.reset = .returned (.fault (.interruptIndexOutOfRange 0 256)) t) ∧
    { State.reset with fault := some (.invalidOpcode 0 0) }.fault = some (.invalidOpcode 0 0) :=
  ⟨⟨rfl, _, rfl⟩, ⟨_, rfl⟩, rfl⟩

theorem witness_FatalConditionIsPrecise :
    State.reset.fault = none ∧ State.reset.df = [] ∧ microStep State.reset = .fault (.invalidOpcode 0 0) ∧
    NoFront State.reset ∧ microStep (fronted [0]) = .fault (.invalidOpcode 0 0) := ⟨rfl, rfl, rfl, rfl, rfl⟩

theorem witness_EveryFaultCarriesThePc :
    State.reset.fault = none ∧ step State.reset = .fault (.invalidOpcode 0 0) := ⟨rfl, rfl⟩

/-- One fault of each cause that a meaning raises. -/
theorem witness_CausesComeFromTheirInstructions :
    exec .reset user = .fault (.privilegeViolation 0 0x02) ∧
    exec (.movRR 0 16) State.reset = .fault (.registerIndexOutOfRange 0 16) ∧
    exec (.setf8 5) State.reset = .fault (.flagIndexOutOfRange 0 5) ∧
    exec (.ld8RR 0 1) (State.reset.setReg 1 0x10000) = .fault (.memoryOutOfRange 0 0x10000) ∧
    exec (.ld32RR 0 1) (State.reset.setReg 1 0xFFFD) = .fault (.memoryOutOfRange 0 0xFFFD) ∧
    exec (.popR 0) State.reset = .fault (.stackUnderflow 0 0) ∧ exec .ret State.reset = .fault (.stackUnderflow 0 0) ∧
    exec (.push64 9) fullStack = .fault (.stackOverflow 0 2) ∧ exec (.int8 3) fullStack = .fault (.stackOverflow 0 2) ∧
    exec .ret { State.reset with stk := [5] } = .fault (.callDepthUnderflow 0) ∧
    exec (.call64 9) deepest = .fault (.callDepthOverflow 0 0xFFFFFFFFFFFFFFFF) ∧
    exec .ncall State.reset = .fault (.nativeCallUnsupported 0) :=
  ⟨rfl, rfl, rfl, rfl, rfl, rfl, rfl, rfl, rfl, rfl, rfl, rfl⟩

theorem witness_RegisterIndexIsCheckedFirst :
    (Instr.isPrivileged (.addRR 15 16) = false ∧ registerOperands (.addRR 15 16) = [15] ++ 16 :: [] ∧
      (∀ c ∈ ([15] : List Byte), c.toNat < State.reset.nreg) ∧ State.reset.nreg ≤ (16 : Byte).toNat) ∧
    (registerOperands (.inRR 16 17) = [] ++ 16 :: [17] ∧ State.reset.privileged = true) ∧
    allRegisters.nreg = 256 :=
  ⟨by decide, by decide, by rw [State.nreg, allRegisters, construct, List.length_replicate]⟩

theorem witness_MovesWriteTheFirstRegister : (15 : Byte).toNat < State.reset.nreg ∧ (0 : Byte).toNat < State.reset.nreg := by
  decide

theorem witness_AddAndSubtractWrap : (0 : Byte).toNat < State.reset.nreg ∧ (15 : Byte).toNat < State.reset.nreg := by
  decide

theorem witness_CompareSetsExactlyOneFlag : (3 : Byte).toNat < State.reset.nreg ∧ (3 : Byte).toNat < State.reset.nreg := by
  decide

/-- Each clause at the last address that fits and the first that does not. -/
theorem witness_NarrowLoadsSignExtend :
    NoFront State.reset ∧ (0 : Byte).toNat < State.reset.nreg ∧ (1 : Byte).toNat < State.reset.nreg ∧
    ((State.reset.setReg 1 0xFFFF).reg 1).toNat = 0xFFFF ∧ 0xFFFF + 1 ≤ State.reset.cfg.memSize ∧
    0xFFFC + 4 ≤ State.reset.cfg.memSize ∧ State.reset.cfg.memSize < 0x10000 + 1 ∧
    State.reset.cfg.memSize < 0xFFFD + 4 := by decide

/-- Wide answers; the last addresses that fit and the first that do not. With fewer than four answers ready the rest are
free values, which any byte may equal. -/
theorem witness_FrontedLoadsTakeTheAnswers :
    (let s := fronted [0x101, 0x202, 3, 0xFFFFFFFFFFFFFF80]
     s.cfg.memFront = true ∧ (0 : Byte).toNat < s.nreg ∧ (1 : Byte).toNat < s.nreg ∧
      0 = (s.reg (0 : Byte).toNat).toNat ∧ 0 + 4 ≤ s.cfg.memSize ∧
      1 = s.answer.setWidth 8 ∧ 2 = s.answered.answer.setWidth 8 ∧ 3 = s.answered.answered.answer.setWidth 8 ∧
      (0x80 : Byte) = s.answered.answered.answered.answer.setWidth 8) ∧
    (let s := (fronted [7]).setReg 1 0xFFFF
     s.cfg.memFront = true ∧ 0xFFFF = (s.reg (1 : Byte).toNat).toNat ∧ 0xFFFF + 1 ≤ s.cfg.memSize ∧
      s.cfg.memSize < 0xFFFF + 4) ∧
    (let s := (fronted [7]).setReg 1 0x10000
     s.cfg.memFront = true ∧ 0x10000 = (s.reg (1 : Byte).toNat).toNat ∧ s.cfg.memSize < 0x10000 + 1) := by
  decide

theorem witness_CallPushesTheReturnAddress :
    (State.reset.cfg.stackMax ≠ some State.reset.stk.length ∧ State.reset.cd.toNat ≠ 2 ^ 64 - 1) ∧
    fullStack.cfg.stackMax = some fullStack.stk.length ∧
    (deepest.cfg.stackMax ≠ some deepest.stk.length ∧ deepest.cd.toNat = 2 ^ 64 - 1) := by decide

theorem witness_ReturnPopsItsTarget :
    (let s := { State.reset with stk := [0x19], cd := 1 }
     s.stk = [] ++ [0x19] ∧ s.cd ≠ 0) ∧
    State.reset.stk = [] ∧
    (let s := { State.reset with stk := [5] }
     s.stk ≠ [] ∧ s.cd = 0) := by decide

theorem witness_NestedCallsAndReturnsBalance :
    ([0x40, 0x80] : List Word) ≠ [] ∧ ∃ t, callEach [0x40, 0x80] State.reset = .next t := ⟨by decide, _, rfl⟩

theorem witness_PushAndPopMoveTheTop :
    State.reset.cfg.stackMax ≠ some State.reset.stk.length ∧ fullStack.cfg.stackMax = some fullStack.stk.length ∧
    (3 : Byte).toNat < fullStack.nreg ∧ fullStack.stk = [1] ++ [2] ∧ State.reset.stk = [] := by decide

theorem witness_StackBlockOperations :
    (let s := { State.reset with stk := [10, 20, 30] }
     s.stk = [] ++ 10 :: [20, 30] ∧ s.stk = [10, 20] ++ [30] ∧ s.stk = [10] ++ [20, 30] ∧ s.stk.length ≤ 3 ∧
      s.stk.length < 4) ∧
    State.reset.stk = [] ∧ 0 < 1 ∧ 64 ≤ 64 := by decide

theorem witness_PortWritesReachRegisteredPorts :
    (let s := { State.reset with ports := [0] }
     s.privileged = true ∧ (0 : Byte).toNat < s.nreg ∧ s.reg (0 : Byte).toNat ∈ s.ports) ∧
    State.reset.reg (0 : Byte).toNat ∉ State.reset.ports ∧ user.privileged = false := by decide

theorem witness_PortReadsTakeTheAnswer :
    (let s := { State.reset with ports := [0], env := [41] }
     s.privileged = true ∧ (0 : Byte).toNat < s.nreg ∧ s.reg (0 : Byte).toNat ∈ s.ports ∧ s.env = 41 :: []) ∧
    (let s := { State.reset with ports := [0] }
     s.reg (0 : Byte).toNat ∈ s.ports ∧ s.env = []) ∧
    State.reset.reg (0 : Byte).toNat ∉ State.reset.ports ∧ user.privileged = false := by decide

theorem witness_ResetRebuildsTheEngine : State.reset.privileged = true ∧ user.privileged = false := by decide

theorem witness_InterruptEntersItsHandler :
    (withHandler.flag 4 = true ∧ withHandler.handler (3 : Byte).toNat = some 0x40 ∧
      withHandler.cfg.stackMax ≠ some withHandler.stk.length ∧ withHandler.cd.toNat ≠ 2 ^ 64 - 1) ∧
    (fullStack.flag 4 = true ∧ fullStack.handler (3 : Byte).toNat = some 0x40 ∧
      fullStack.cfg.stackMax = some fullStack.stk.length) ∧
    (deepest.flag 4 = true ∧ deepest.handler (3 : Byte).toNat = some 0x40 ∧
      deepest.cfg.stackMax ≠ some deepest.stk.length ∧ deepest.cd.toNat = 2 ^ 64 - 1) := by decide

theorem witness_InterruptWithoutHandlerOrGate :
    { withHandler with cw := 0x01 }.flag 4 = false ∧ State.reset.flag 4 = true ∧
    State.reset.handler (255 : Byte).toNat = none := by decide

theorem witness_SetIntRegistersOneHandler : State.reset.privileged = true ∧ user.privileged = false := by decide

theorem witness_FlagInstructionsWriteOneBit :
    State.reset.privileged = true ∧ (4 : Byte).toNat ≤ 4 ∧ 4 < (5 : Byte).toNat ∧ user.privileged = false := by decide

/-- Both outcomes: no frame to close, and two frames of one `rec` that close together. -/
theorem witness_DispatchTestClosesFinishedFrames :
    endOfDispatchTest { State.reset with cd := 1, df := [⟨true, 0⟩] } = { State.reset with cd := 1, df := [⟨true, 0⟩] } ∧
    endOfDispatchTest { State.reset with df := [⟨true, 7⟩, ⟨false, 0⟩, ⟨true, 0⟩], halted := true } =
      { State.reset with df := [⟨true, 7⟩], cw := 0x10 } := by decide

/-- `RET` of the handler of a dispatch from unprivileged code. -/
def returning : State := { boot 0x40 [0x35] with pc := 0x40, stk := [0x12], cd := 1, df := [⟨false, 0⟩] }

theorem witness_DispatchEndRestoresPrivilege :
    ∃ t, step returning = .next t ∧ t.df.length < returning.df.length ∧ returning.df[t.df.length]? = some ⟨false, 0⟩ :=
  ⟨_, rfl, by decide, by decide⟩

theorem witness_ReturningHandlerRestoresEverything :
    DispatchOpen withHandler ∧ withHandler.flag 4 = true ∧ withHandler.handler (3 : Byte).toNat = some 0x40 ∧
    ∃ t u, exec (.int8 3) withHandler = .next t ∧ exec .ret t = .next u :=
  ⟨by decide, by decide, by decide, _, _, rfl, rfl⟩

theorem witness_UserModeCannotReachProtectedState :
    { user with mem := [(0, 0x01)] }.privileged = false ∧ ∃ t, step { user with mem := [(0, 0x01)] } = .next t :=
  ⟨by decide, _, rfl⟩

/-- Through the dispatch of `INT_8 3`, and by the end of a dispatch that saved `P = 1`. -/
theorem witness_PrivilegeIsGainedThroughDispatchOnly :
    (let s := { user with mem := [(0, 0x60), (1, 3)], ivt := [(3, 0x40)] }
     s.privileged = false ∧ ∃ t, step s = .next t ∧ t.privileged = true) ∧
    (let s := { returning with cw := 0x10, df := [⟨true, 0⟩] }
     s.privileged = false ∧ ∃ t, step s = .next t ∧ t.privileged = true) :=
  ⟨⟨by decide, _, rfl, by decide⟩, by decide, _, rfl, by decide⟩

theorem witness_HaltInsideADispatchNeverEnds :
    (let s := { State.reset with halted := true, cd := 1, df := [⟨true, 0⟩] }
     Resting s ∧ 0 < s.df.length) := by decide

theorem witness_StepLeavesTheHostsObjects : ∃ t, step (boot 0 [0x01]) = .next t := ⟨_, rfl⟩

theorem witness_StepKeepsTheInvariant : (boot 0 [0x01]).Inv ∧ ∃ t, step (boot 0 [0x01]) = .next t :=
  ⟨by decide, _, rfl⟩

/-- The smallest and the largest register file, and the largest memory. -/
theorem witness_ConstructedEngineHasTheInvariant :
    1 ≤ 1 ∧ 256 ≤ 256 ∧ Config.wf { Config.default with memSize := 2 ^ 64 } ∧ Memory.wf [(0, 1), (9, 2)] ∧
    (∀ c ∈ ([(0, 1), (9, 2)] : Memory), c.1 < 10) ∧ (([3, 7] : List Word).map BitVec.toNat).Pairwise (· < ·) := by decide

/-- One for each kind of move. -/
theorem witness_HostMovesKeepTheInvariant :
    (boot 0 [0x01]).Inv ∧ (∃ t, (hostMove 1 .step (boot 0 [0x01])).state? = some t) ∧
    (∃ t, (hostMove 1 (.interrupt 3) withHandler).state? = some t) ∧ withHandler.Inv ∧
    (∃ t, (hostMove 0 .reset State.reset).state? = some t) ∧
    (∃ t, (hostMove 0 (.registerPort 7) State.reset).state? = some t) ∧
    (∃ t, (hostMove 0 (.setHook false) State.reset).state? = some t) ∧
    (∃ t, (hostMove 0 (.writeMemory 5 4 0x11223344) State.reset).state? = some t) ∧
    (∃ t, (hostMove 0 (.writeControlWord 0) State.reset).state? = some t) ∧
    (∃ t, (hostMove 0 (.readMemory 5 4) (fronted [1])).state? = some t) ∧
    (∃ t, (hostMove 0 .readControlWord State.reset).state? = some t) :=
  ⟨by decide, ⟨_, rfl⟩, ⟨_, rfl⟩, by decide, ⟨_, rfl⟩, ⟨_, rfl⟩, ⟨_, rfl⟩, ⟨_, rfl⟩, ⟨_, rfl⟩, ⟨_, rfl⟩, ⟨_, rfl⟩⟩

theorem witness_HostInterruptOnAHaltedEngine :
    (let s := { withHandler with halted := true }
     Resting s ∧ s.df = [] ∧ 255 ≤ 255 ∧ s.flag 4 = true ∧ s.handler 255 = none ∧ s.handler 3 = some 0x40 ∧
      s.cfg.stackMax ≠ some s.stk.length ∧ s.cd.toNat ≠ 2 ^ 64 - 1 ∧ 255 < 256) ∧
    (let s := { withHandler with halted := true, cw := 0x01 }
     Resting s ∧ s.df = [] ∧ s.flag 4 = false) := by decide

/-- Between host steps: no dispatch in progress, or a fault latched inside one. -/
theorem witness_HostResetEqualsConstruction :
    betweenHostSteps State.reset = true ∧
    betweenHostSteps { State.reset with df := [⟨true, 0⟩], fault := some (.invalidOpcode 0 0) } = true := by decide

/-- A write of eight bytes that ends with memory, and one of none; and a dispatch in progress. -/
theorem witness_HostWriteReadsBack :
    NoFront State.reset ∧ (∃ t, memWrite 0xFFF8 8 (2 ^ 64 + 5) State.reset = .ok t) ∧
    (∃ t, memWrite 0x10000 0 5 State.reset = .ok t) ∧ betweenHostSteps State.reset = true ∧
    (returning.df ≠ [] ∧ returning.fault = none) := ⟨by decide, ⟨_, rfl⟩, ⟨_, rfl⟩, by decide, by decide⟩

theorem witness_LoadedImageStandsAtZero :
    NoFront { State.reset with cfg := { Config.default with memSize := 2 } } ∧
    ([1, 2] : List Byte).length ≤ { Config.default with memSize := 2 }.memSize ∧
    { Config.default with memSize := 2 }.memSize < ([1, 2, 3] : List Byte).length := by decide

/-- At the end of memory, at the pc. -/
theorem witness_ReadStringReturnsTheBytes :
    (let s := { boot 0xFFFA [2, 0, 0, 0, 0x41, 0x42] with pc := 0xFFFA }
     NoFront s ∧ ([0x41, 0x42] : List Byte).length < 2 ^ 32 ∧ 0xFFFA + 4 + 2 ≤ s.cfg.memSize ∧
      bytesAt s 0xFFFA (4 + 2) = leBytes 4 2 ++ [0x41, 0x42] ∧ 0xFFFA = s.pc.toNat) := by decide

theorem witness_RegisterInstructionFrame :
    (Instr.addRR 0 1) ∈ [Instr.movR64 0 0, .movRR 0 1, .addRR 0 1, .addR64 0 0, .subRR 0 1, .subR64 0 0, .ld8RR 0 1,
      .ld32RR 0 1] ∧
    ∃ t, exec (.addRR 0 1) State.reset = .next t := ⟨by decide, _, rfl⟩

theorem witness_ControlAndStackFrame :
    (Instr.call64 9) ∈ [Instr.cmpRR 0 1, .jmp64 9, .je64 9, .jl64 9, .jg64 9, .call64 9, .ret, .push64 9, .popR 0,
      .halt] ∧
    ∃ t, exec (.call64 9) State.reset = .next t := ⟨by decide, _, rfl⟩

theorem witness_PortAndSystemFrame :
    (Instr.int8 3) ∈ [Instr.outRR 0 1, .inRR 0 1, .int8 3, .setint8_64 3 9, .setf8 3, .clrf8 3, .reset] ∧
    ∃ t, exec (.int8 3) withHandler = .next t := ⟨by decide, _, rfl⟩

theorem witness_TokensAreNonEmpty :
    tokenize LexConfig.default "a \"\" ,b".toList = .ok [['a'], ['"', '"'], [','], ['b']] := rfl

/-- The first pass of a source with a jump, a label and a literal to intern. -/
def assembled : Option Pass := ((tokenize LexConfig.default "JMP_64 &x x: 5b".toList).bind firstPass).toOption

/-- `x` stands at 9 and the datum at 17. -/
theorem witness_assembled_image :
    imageOf "JMP_64 &x x: 5b" = some ([0x30] ++ [9, 0, 0, 0, 0, 0, 0, 0] ++ [17, 0, 0, 0, 0, 0, 0, 0] ++ [5]) := by
  decide

theorem witness_AddressOfIsItsLabelsOffset :
    (Obj.label ['x']) ∉ [Obj.op 1, .addrOf ['x']] ∧ objsSize [Obj.op 1, .addrOf ['x']] < 2 ^ 64 ∧
    ([Obj.op 1, .addrOf ['x'], .op 1] = [Obj.op 1] ++ .addrOf ['x'] :: [.op 1] ∧
      (Obj.label ['x']) ∉ [Obj.op 1, .addrOf ['x'], .op 1]) ∧
    assembled.bind (fun p => some (p.text ++ p.data)) =
      some ([.op 0x30] ++ .addrOf ['x'] :: [.label ['x'], .addrOf (dataLabel 0), .label (dataLabel 0), .lit ⟨.u8, [5]⟩]) := by
  decide

theorem witness_ImageIsTheObjectsInOrder :
    serialize [.op 0x35, .label ['x'], .addrOf ['x']] [.op 0x35, .label ['x'], .addrOf ['x']] =
      .ok [0x35, 1, 0, 0, 0, 0, 0, 0, 0] ∧
    [Obj.op 0x35, .label ['x'], .addrOf ['x']] = [Obj.op 0x35, .label ['x']] ++ .addrOf ['x'] :: [] ∧
    assembled.map (·.text) = some ([.op 0x30] ++ .addrOf ['x'] :: [.label ['x'], .addrOf (dataLabel 0)]) ∧
    assembled.map (·.data) = some ([.label (dataLabel 0)] ++ .lit ⟨.u8, [5]⟩ :: []) :=
  ⟨rfl, rfl, by decide, by decide⟩

theorem witness_InterningStoresEqualLiteralsOnce :
    (∃ q r, internLiteral Pass.start ⟨.u8, [5]⟩ = .ok q ∧ internLiteral q ⟨.u8, [5]⟩ = .ok r) ∧
    findInterned ⟨.u8, [5]⟩ Pass.start.data = none := ⟨⟨_, _, rfl, rfl⟩, rfl⟩

end Sys2Proof.Tests
end

/-! The fault latch (R27): what the host's step and interrupt answer, and that a fatal condition they report is latched
in the state they leave. -/

namespace Sys2Proof.Machine

section
variable {s t : State} {f : Fault} {r : CallResult} {n : Nat}

/-! ### What a call of the host answers (R175) -/

theorem recordResult_returned {x : HostReturn} :
    recordResult x = .returned r t ↔ ∃ u, x = .returned r u ∧ t = u.emit (.stepResult r) := by
  cases x with
  | returned r' u =>
    simp only [recordResult, HostReturn.returned.injEq]
    constructor
    · rintro ⟨rfl, rfl⟩
      exact ⟨u, ⟨rfl, rfl⟩, rfl⟩
    · rintro ⟨v, ⟨rfl, rfl⟩, rfl⟩
      exact ⟨rfl, rfl⟩
  | running | notAllowed | refused => simp [recordResult]

/-- A run of a dispatch returns the call's result, or a fatal condition that it has latched. -/
theorem runToDepth_returned {d : Nat} {r₀ : CallResult} (h : runToDepth d r₀ n s = .returned r t) :
    r = r₀ ∨ ∃ f, r = .fault f ∧ t.fault = some f := by
  induction n generalizing s with
  | zero =>
    by_cases hd : s.df.length ≤ d
    · rw [runToDepth_done hd, HostReturn.returned.injEq] at h
      exact .inl h.1.symm
    · simp [runToDepth_zero (not_le.1 hd)] at h
  | succ n ih =>
    by_cases hd : s.df.length ≤ d
    · rw [runToDepth_done hd, HostReturn.returned.injEq] at h
      exact .inl h.1.symm
    · cases hm : microStep s with
      | next p => exact ih (runToDepth_next (not_le.1 hd) hm ▸ h)
      | fault f =>
        rw [runToDepth_fault (not_le.1 hd) hm, HostReturn.returned.injEq] at h
        obtain ⟨rfl, rfl⟩ := h
        exact .inr ⟨f, rfl, rfl⟩
      | refused x => simp [runToDepth, hd, hm] at h

/-- Once a condition is latched the host's step returns it, and the trace of that result is all it adds. -/
theorem hostStep_latched (hf : s.fault = some f) :
    hostStep n s = .returned (.fault f) (s.emit (.stepResult (.fault f))) := by
  simp [hostStep, hf, recordResult]

/-- Everything a host step does when it returns and no condition was latched before. -/
theorem hostStep_returned (hf : s.fault = none) :
    hostStep n s = .returned r t ↔
      s.df = [] ∧ ∃ u, t = u.emit (.stepResult r) ∧
        ((∃ v r₀, microStep s = .next (v, r₀) ∧ runToDepth 0 r₀ n v = .returned r u) ∨
         (∃ f, microStep s = .fault f ∧ r = .fault f ∧ u = latch f s)) := by
  by_cases hd : s.df = []
  · cases hm : microStep s with
    | next p => simp [hostStep, hf, hd, hm, recordResult_returned, Prod.ext_iff, ← and_assoc, and_comm]
    | fault f => simp [hostStep, hf, hd, hm, recordResult_returned, and_comm, eq_comm (b := r)]
    | refused x => simp [hostStep, hf, hd, hm]
  · simp [hostStep, hf, hd]

/-- Everything the host's interrupt does when it returns. -/
theorem hostInterrupt_returned {k : Nat} :
    hostInterrupt n k s = .returned r t ↔
      s.fault = none ∧ s.df = [] ∧
        ((∃ v, interrupt s.pc k s = .next v ∧ runToDepth 0 .unit n v = .returned r t) ∨
         (∃ f, interrupt s.pc k s = .fault f ∧ r = .fault f ∧ t = latch f s)) := by
  by_cases ha : s.fault = none ∧ s.df = []
  · cases hi : interrupt s.pc k s <;> simp [hostInterrupt, ha, hi, eq_comm]
  · simp only [hostInterrupt, ha, if_false]
    tauto

/-! ### A reported condition is latched (R27, R161) -/

theorem hostStep_fault_latched (hf : s.fault = none) (h : hostStep n s = .returned (.fault f) t) :
    t.fault = some f := by
  obtain ⟨-, u, rfl, ⟨v, r₀, hm, hr⟩ | ⟨g, -, hg, rfl⟩⟩ := (hostStep_returned hf).1 h
  · obtain rfl | ⟨g, hg, hu⟩ := runToDepth_returned hr
    · simpa using microStep_result hm
    · simpa [CallResult.fault.inj hg] using hu
  · simp [CallResult.fault.inj hg, latch]

theorem hostInterrupt_fault_latched {k : Nat} (h : hostInterrupt n k s = .returned (.fault f) t) :
    t.fault = some f := by
  obtain ⟨-, -, ⟨v, -, hr⟩ | ⟨g, -, hg, rfl⟩⟩ := hostInterrupt_returned.1 h
  · obtain hr | ⟨g, hg, ht⟩ := runToDepth_returned hr
    · cases hr
    · rw [ht, CallResult.fault.inj hg]
  · rw [CallResult.fault.inj hg, latch]

end

/-- Settles O12: a host call that reports a condition has latched it, by induction on the micro-steps of its dispatch;
the latched state is refused by the first test of each call. -/
theorem faultLatchIsTerminal : Obligations.FaultLatchIsTerminal := by
  refine ⟨fun _ _ _ _ _ => rfl, fun n k s t f hf => ⟨hostStep_fault_latched hf, hostInterrupt_fault_latched⟩,
    fun n k s f hf => ⟨step_fault.2 (.inl hf), hostStep_latched hf, ?_⟩⟩
  simp [hostInterrupt, hf]

end Sys2Proof.Machine

/-! The range check of the register operands (R12): which register operand faults, for every instruction. -/

namespace Sys2Proof.Machine

section
variable {s : State} {p : Word} {b ra rb : Byte} {i : Instr}

/-- The first register-index byte out of range, in encoding order (R12, R163). -/
def firstBadRegister (nreg : Nat) (bs : List Byte) : Option Byte := bs.find? (fun b => !regOk nreg b)

@[simp] theorem firstBadRegister_nil (nreg : Nat) : firstBadRegister nreg [] = none := rfl

theorem firstBadRegister_eq_some {nreg : Nat} {bs : List Byte} :
    firstBadRegister nreg bs = some b ↔
      nreg ≤ b.toNat ∧ ∃ before after, bs = before ++ b :: after ∧ ∀ c ∈ before, c.toNat < nreg := by
  simp [firstBadRegister, regOk, List.find?_eq_some_iff_append]

/-! ### The operand checks: with a continuation that raises no register fault, the fault is the check's own -/

/-- The result is no register fault: what the meanings do once the register operands have passed their check. -/
def NoRegisterFault (x : Result) : Prop := ∀ p b, x ≠ .fault (.registerIndexOutOfRange p b)

@[simp] theorem noRegisterFault_next (t : State) : NoRegisterFault (.next t) := by
  simp [NoRegisterFault]

theorem withReg_registerFault {k : Nat → Result} (hk : ∀ a, NoRegisterFault (k a)) :
    withReg ra s k = .fault (.registerIndexOutOfRange p b) ↔ p = s.pc ∧ firstBadRegister s.nreg [ra] = some b := by
  simp only [withReg_fault, hk ra.toNat p b, and_false, false_or, Fault.registerIndexOutOfRange.injEq]
  by_cases ha : ra.toNat < s.nreg
  · simp [firstBadRegister, regOk, ha, not_le.2 ha]
  · simp [firstBadRegister, regOk, ha, not_lt.1 ha, eq_comm (a := b)]

theorem withRegs_registerFault {k : Nat → Nat → Result} (hk : ∀ a c, NoRegisterFault (k a c)) :
    withRegs ra rb s k = .fault (.registerIndexOutOfRange p b) ↔
      p = s.pc ∧ firstBadRegister s.nreg [ra, rb] = some b := by
  by_cases ha : ra.toNat < s.nreg
  · have hrest : firstBadRegister s.nreg [ra, rb] = firstBadRegister s.nreg [rb] := by
      simp [firstBadRegister, regOk, ha]
    rw [hrest, ← withReg_registerFault (hk ra.toNat), withRegs, withReg, if_pos ha]
  · simp [withRegs_fault, firstBadRegister, regOk, ha, not_lt.1 ha, eq_comm (a := b)]

/-! ### Every instruction -/

/-- What R12 asks of an instruction at `s`: once the privilege check has passed, it raises the register fault with byte
`b` exactly when `b` is the first of its register operands out of range. -/
def ChecksRegistersFirst (i : Instr) (s : State) : Prop :=
  ∀ p b, exec i s = .fault (.registerIndexOutOfRange p b) ↔
    (i.isPrivileged = true → s.privileged = true) ∧ p = s.pc ∧ firstBadRegister s.nreg (registerOperands i) = some b

theorem exec_noRegisterFault (h : registerOperands i = []) : NoRegisterFault (exec i s) := by
  intro p b
  cases i with
  | halt => simp [exec, execHalt]
  | reset => simp [exec, execReset, whenPrivileged_fault]
  | ncall => simp [exec, execNcall]
  | jmp64 => simp [exec, execJmp64]
  | je64 => simp [exec, execJe64, jumpIf]
  | jl64 => simp [exec, execJl64, jumpIf]
  | jg64 => simp [exec, execJg64, jumpIf]
  | call64 => simp [exec, execCall64, withPush_fault, withDeeper_fault]
  | ret => simp [exec, execRet, withPop_fault, withShallower_fault]
  | push64 => simp [exec, execPush64, withPush_fault]
  | int8 => simp [exec, execInt8, interrupt_fault]
  | setint8_64 => simp [exec, execSetint8_64, whenPrivileged_fault]
  | setf8 => simp [exec, execSetf8, whenPrivileged_fault, withFlag_fault]
  | clrf8 => simp [exec, execClrf8, whenPrivileged_fault, withFlag_fault]
  | movR64 | movRR | ld8RR | ld32RR | addRR | addR64 | subRR | subR64 | cmpRR | popR | outRR | inRR =>
    cases h

theorem checksRegistersFirst_of_no_register (h : registerOperands i = []) : ChecksRegistersFirst i s := by
  intro p b
  simp [h, exec_noRegisterFault h p b]

theorem checksRegistersFirst_of_withReg {k : Nat → Result} (hi : i.isPrivileged = false)
    (hr : registerOperands i = [ra]) (hx : exec i s = withReg ra s k)
    (hk : ∀ a, NoRegisterFault (k a)) : ChecksRegistersFirst i s := by
  intro p b
  simp [hi, hr, hx, withReg_registerFault hk]

theorem checksRegistersFirst_of_withRegs {k : Nat → Nat → Result} (hi : i.isPrivileged = false)
    (hr : registerOperands i = [ra, rb]) (hx : exec i s = withRegs ra rb s k)
    (hk : ∀ a c, NoRegisterFault (k a c)) : ChecksRegistersFirst i s := by
  intro p b
  simp [hi, hr, hx, withRegs_registerFault hk]

theorem checksRegistersFirst_of_privileged_withRegs {op : Byte} {k : Nat → Nat → Result}
    (hi : i.isPrivileged = true) (hr : registerOperands i = [ra, rb])
    (hx : exec i s = whenPrivileged op s (withRegs ra rb s k))
    (hk : ∀ a c, NoRegisterFault (k a c)) : ChecksRegistersFirst i s := by
  intro p b
  simp [hi, hr, hx, whenPrivileged_fault, withRegs_registerFault hk]

theorem exec_checksRegistersFirst (i : Instr) (s : State) : ChecksRegistersFirst i s := by
  cases i with
  | movR64 | addR64 | subR64 => exact checksRegistersFirst_of_withReg rfl rfl (by unfold exec; rfl) (by simp)
  | popR => exact checksRegistersFirst_of_withReg rfl rfl (by unfold exec; rfl) fun _ _ _ => by simp [withPop_fault]
  | movRR | addRR | subRR | cmpRR =>
    exact checksRegistersFirst_of_withRegs rfl rfl (by unfold exec; rfl) (by simp)
  | ld8RR =>
    exact checksRegistersFirst_of_withRegs rfl rfl (by unfold exec execLd8RR; rfl) fun _ _ _ _ => by
      simp [withMem_fault]
  | ld32RR =>
    exact checksRegistersFirst_of_withRegs rfl rfl (by unfold exec execLd32RR; rfl) fun _ _ _ _ => by
      simp [withMem_fault]
  | outRR | inRR =>
    refine checksRegistersFirst_of_privileged_withRegs rfl rfl rfl fun _ _ => ?_
    split <;> simp
  | halt | reset | ncall | jmp64 | je64 | jl64 | jg64 | call64 | ret | push64 | int8 | setint8_64 | setf8 | clrf8 =>
    exact checksRegistersFirst_of_no_register rfl

end

/-- Settles O17: every instruction raises the register fault exactly for its first register operand out of range, and
no byte is out of range of 256 registers. -/
theorem registerIndexIsCheckedFirst : Obligations.RegisterIndexIsCheckedFirst := by
  refine ⟨fun i s before after b hp hr hbefore hb => ?_, fun i s pc0 b hn h => ?_⟩
  · exact (exec_checksRegistersFirst i s s.pc b).2
      ⟨hp, rfl, firstBadRegister_eq_some.2 ⟨hb, before, after, hr, hbefore⟩⟩
  · obtain ⟨-, -, hbad⟩ := (exec_checksRegistersFirst i s pc0 b).1 h
    have hb : s.nreg ≤ b.toNat := (firstBadRegister_eq_some.1 hbad).1
    have := b.isLt
    omega

end Sys2Proof.Machine

/-! The fetch at the end of memory (R45): the item that is fetched first outside memory raises the condition, whatever a
front answers meanwhile. -/

namespace Sys2Proof.Machine

section
variable {s : State} {f : Fault} {pc0 : Word} {n : Nat}

/-! ### Where the fetch stands (R14, R62) -/

theorem SameButAnswers.pc_eq {t : State} (h : SameButAnswers s t) : t.pc = s.pc := by
  rw [h.same]

theorem SameButAnswers.cfg_eq {t : State} (h : SameButAnswers s t) : t.cfg = s.cfg := by
  rw [h.same]

/-- The advance of the pc in natural numbers, while it stays below 2^64. -/
theorem State.advance_pc_toNat (h : s.pc.toNat + n < 2 ^ 64) : (s.advance n).pc.toNat = s.pc.toNat + n := by
  rw [State.advance_pc, BitVec.toNat_add, BitVec.toNat_ofNat]
  omega

/-- The state in which an item of `n` bytes has been fetched. -/
def State.fetched (s : State) (n : Nat) : State := (readBytes n s.pc.toNat s).2.advance n

theorem fetchBytes_inMemory (h : s.pc.toNat + n ≤ s.cfg.memSize) :
    fetchBytes pc0 n s = .ok ((readBytes n s.pc.toNat s).1, s.fetched n) :=
  fetchBytes_ok.2 ⟨h, rfl, rfl⟩

@[simp] theorem State.fetched_cfg : (s.fetched n).cfg = s.cfg := (readBytes_same n s.pc.toNat s).cfg_eq

theorem State.fetched_pc_toNat (h : s.pc.toNat + n < 2 ^ 64) : (s.fetched n).pc.toNat = s.pc.toNat + n := by
  have hpc := (readBytes_same n s.pc.toNat s).pc_eq
  rw [State.fetched, State.advance_pc_toNat (by rwa [hpc]), hpc]

/-! ### The fetch of the operand items, and of the instruction -/

theorem fetchItems_cons_error_of_rest {ns : List Nat} (h : s.pc.toNat + n ≤ s.cfg.memSize)
    (hrest : fetchItems pc0 ns (s.fetched n) = .error f) : fetchItems pc0 (n :: ns) s = .error f := by
  simp [fetchItems, fetchBytes_inMemory h, hrest]

/-- When the items `before` fit in memory and the next one does not, the fetch raises the address where that one
begins. -/
theorem fetchItems_error_of_outside {before after : List Nat} (hpc : s.pc.toNat + before.sum < 2 ^ 64)
    (hin : s.pc.toNat + before.sum ≤ s.cfg.memSize) (hout : s.cfg.memSize < s.pc.toNat + before.sum + n) :
    fetchItems pc0 (before ++ n :: after) s = .error (.memoryOutOfRange pc0 (s.pc.toNat + before.sum)) := by
  induction before generalizing s with
  | nil =>
    have hfirst : fetchBytes pc0 n s = .error (.memoryOutOfRange pc0 s.pc.toNat) := fetchBytes_error.2 ⟨hout, rfl⟩
    simp [fetchItems, hfirst]
  | cons m ms ih =>
    rw [List.sum_cons, ← Nat.add_assoc] at hpc hin hout ⊢
    have hpc' : (s.fetched m).pc.toNat = s.pc.toNat + m := State.fetched_pc_toNat (by omega)
    rw [← hpc'] at hpc hin hout ⊢
    exact fetchItems_cons_error_of_rest (by omega)
      (ih hpc (by rwa [State.fetched_cfg]) (by rwa [State.fetched_cfg]))

/-- Once the opcode byte has passed the opcode check and the privilege check, a fault of the operand fetch is the
instruction's (R163). -/
theorem fetchInstr_error_of_items {row : OpRow} (hin : s.pc.toNat < s.cfg.memSize)
    (hrow : rowOf (readByte s.pc.toNat s).1 = some row) (hpriv : row.privileged = true → s.privileged = true)
    (h : fetchItems s.pc row.format.items (s.fetched 1) = .error f) : fetchInstr s = .error f := by
  have hcheck : (row.privileged && !s.privileged) = false := by simpa using hpriv
  have hopcode : fetchBytes s.pc 1 s = .ok ([(readByte s.pc.toNat s).1], s.fetched 1) := fetchBytes_inMemory hin
  simp only [fetchInstr, hopcode, List.headD_cons, hrow, hcheck, Bool.false_eq_true, if_false, fetchOperands, h]

theorem fetchInstr_error_of_opcode_outside (h : s.cfg.memSize ≤ s.pc.toNat) :
    fetchInstr s = .error (.memoryOutOfRange s.pc s.pc.toNat) := by
  have hfirst : fetchBytes s.pc 1 s = .error (.memoryOutOfRange s.pc s.pc.toNat) :=
    fetchBytes_error.2 ⟨Nat.lt_succ_of_le h, rfl⟩
  simp [fetchInstr, hfirst]

theorem step_fault_of_fetch (hs : Running s) (h : fetchInstr s = .error f) : step s = .fault f := by
  obtain ⟨hfault, hhalted⟩ := hs
  exact step_fault.2 (.inr ⟨hfault, hhalted, .inl h⟩)

end

/-- Settles O9: the opcode fetch by its bounds check, and the operand fetch by induction on the items before the one
that does not fit. -/
theorem fetchOutsideMemoryFaults : Obligations.FetchOutsideMemoryFaults := by
  refine fun s hs => ⟨fun h => step_fault_of_fetch hs (fetchInstr_error_of_opcode_outside h),
    fun row before after n hop hrow hpriv hitems hpc hin hout => ?_⟩
  have hpc' : (s.fetched 1).pc.toNat = s.pc.toNat + 1 := State.fetched_pc_toNat (by omega)
  rw [← hpc'] at hpc hin hout ⊢
  refine step_fault_of_fetch hs (fetchInstr_error_of_items hop hrow hpriv ?_)
  rw [hitems]
  exact fetchItems_error_of_outside hpc (by rwa [State.fetched_cfg]) (by rwa [State.fetched_cfg])

end Sys2Proof.Machine

/-! The opcode byte (R66, R71): the assigned bytes each select an instruction, whatever operand bytes follow, and the
others raise the condition when they are fetched. -/

namespace Sys2Proof

section
variable {op : Byte}

/-! ### The assigned bytes -/

/-- The byte `op` and any `n` operand bytes are one whole instruction, whose opcode is `op`. -/
def SelectsInstruction (op : Byte) (n : Nat) : Prop :=
  ∀ bs : List Byte, bs.length = n → ∃ i, decode (op :: bs) = .ok (i, []) ∧ i.opcode = op

theorem selectsInstruction_of_noOperands {i : Instr} (hd : ∀ bs, decode (op :: bs) = .ok (i, bs))
    (hop : i.opcode = op) : SelectsInstruction op 0 := by
  intro bs hlen
  obtain rfl := List.length_eq_zero_iff.1 hlen
  exact ⟨i, hd [], hop⟩

theorem selectsInstruction_of_byte {f : Byte → Instr} (hd : ∀ bs, decode (op :: bs) = decodeByte f bs)
    (hop : ∀ b, (f b).opcode = op) : SelectsInstruction op 1 := by
  intro bs hlen
  obtain ⟨b, rfl⟩ := List.length_eq_one_iff.1 hlen
  exact ⟨f b, hd [b], hop b⟩

theorem selectsInstruction_of_regReg {f : Byte → Byte → Instr} (hd : ∀ bs, decode (op :: bs) = decodeRegReg f bs)
    (hop : ∀ a b, (f a b).opcode = op) : SelectsInstruction op 2 := by
  intro bs hlen
  obtain ⟨a, b, rfl⟩ := List.length_eq_two.1 hlen
  exact ⟨f a b, hd [a, b], hop a b⟩

/-- Eight operand bytes are an `imm64`, and nothing is left of them. -/
theorem decodeImm64_eq_ok {f : Word → Instr} {bs : List Byte} (hlen : bs.length = 8) :
    decodeImm64 f bs = .ok (f (BitVec.ofNat 64 (leValue bs)), []) := by
  simp [decodeImm64, ← hlen]

theorem selectsInstruction_of_imm64 {f : Word → Instr} (hd : ∀ bs, decode (op :: bs) = decodeImm64 f bs)
    (hop : ∀ v, (f v).opcode = op) : SelectsInstruction op 8 :=
  fun bs hlen => ⟨_, (hd bs).trans (decodeImm64_eq_ok hlen), hop _⟩

theorem selectsInstruction_of_byteImm64 {f : Byte → Word → Instr}
    (hd : ∀ bs, decode (op :: bs) = decodeByteImm64 f bs) (hop : ∀ b v, (f b v).opcode = op) :
    SelectsInstruction op 9 := by
  intro bs hlen
  obtain ⟨b, imm, rfl⟩ := List.exists_cons_of_length_eq_add_one hlen
  exact ⟨_, (hd (b :: imm)).trans (decodeImm64_eq_ok (Nat.succ.inj hlen)), hop b _⟩

/-- The opcode byte of an instruction selects it with any operand bytes, as many as its own. -/
theorem selectsInstruction_opcode (i : Instr) : SelectsInstruction i.opcode i.operandBytes.length := by
  cases i with
  | halt | reset | ncall | ret => exact selectsInstruction_of_noOperands (fun _ => rfl) rfl
  | popR | int8 | setf8 | clrf8 => exact selectsInstruction_of_byte (fun _ => rfl) fun _ => rfl
  | movRR | ld8RR | ld32RR | addRR | subRR | cmpRR | outRR | inRR =>
    exact selectsInstruction_of_regReg (fun _ => rfl) fun _ _ => rfl
  | jmp64 | je64 | jl64 | jg64 | call64 | push64 => exact selectsInstruction_of_imm64 (fun _ => rfl) fun _ => rfl
  | movR64 | addR64 | subR64 | setint8_64 => exact selectsInstruction_of_byteImm64 (fun _ => rfl) fun _ _ => rfl

/-- One instruction of each row of the opcode table, in the table's order. -/
def instructionOfEachRow : List Instr :=
  [ .halt, .reset, .ncall, .movR64 0 0, .movRR 0 0, .ld8RR 0 0, .ld32RR 0 0, .addRR 0 0, .addR64 0 0, .subRR 0 0,
    .subR64 0 0, .cmpRR 0 0, .jmp64 0, .je64 0, .jl64 0, .jg64 0, .call64 0, .ret, .push64 0, .popR 0, .outRR 0 0,
    .inRR 0 0, .int8 0, .setint8_64 0 0, .setf8 0, .clrf8 0 ]

theorem map_opcode_instructionOfEachRow :
    instructionOfEachRow.map Instr.opcode = opcodeTable.map OpRow.opcode := rfl

/-- Each byte of the opcode table selects an instruction. -/
theorem exists_selectsInstruction (h : op ∈ opcodeTable.map OpRow.opcode) : ∃ n, SelectsInstruction op n := by
  rw [← map_opcode_instructionOfEachRow] at h
  obtain ⟨i, -, rfl⟩ := List.mem_map.1 h
  exact ⟨_, selectsInstruction_opcode i⟩

/-! ### The unassigned bytes -/

theorem rowOf_eq_none (h : op ∉ opcodeTable.map OpRow.opcode) : rowOf op = none := by
  refine List.find?_eq_none.2 fun row hrow hop => h ?_
  exact List.mem_map.2 ⟨row, hrow, beq_iff_eq.1 hop⟩

end

end Sys2Proof

namespace Sys2Proof.Machine

/-- An opcode byte without a row is refused as soon as it has been fetched (R66). -/
theorem fetchInstr_error_of_unassigned {s : State} (hin : s.pc.toNat < s.cfg.memSize)
    (hrow : rowOf (readByte s.pc.toNat s).1 = none) :
    fetchInstr s = .error (.invalidOpcode s.pc (readByte s.pc.toNat s).1) := by
  have hopcode : fetchBytes s.pc 1 s = .ok ([(readByte s.pc.toNat s).1], s.fetched 1) := fetchBytes_inMemory hin
  simp only [fetchInstr, hopcode, List.headD_cons, hrow]

/-- The bytes that R71 lists are those of the opcode table. -/
theorem toNat_mem_opcodes {op : Byte} :
    op.toNat ∈ [0x01, 0x02, 0x03, 0x10, 0x11, 0x12, 0x13, 0x20, 0x21, 0x22, 0x23, 0x24, 0x30, 0x31, 0x32, 0x33, 0x34,
      0x35, 0x40, 0x41, 0x50, 0x51, 0x60, 0x61, 0x62, 0x63] ↔ op ∈ opcodeTable.map OpRow.opcode :=
  List.mem_map_of_injective (f := BitVec.toNat) (l := opcodeTable.map OpRow.opcode) fun _ _ => BitVec.eq_of_toNat_eq

/-- Settles O3: a byte of the opcode table selects an instruction, by cases on the instruction's format; any other byte
has no row, and the opcode check refuses it. -/
theorem dispatchIsTotal : Obligations.DispatchIsTotal := by
  intro op
  rw [toNat_mem_opcodes]
  by_cases h : op ∈ opcodeTable.map OpRow.opcode
  · exact .inl ⟨h, exists_selectsInstruction h⟩
  · refine .inr ⟨h, ?_⟩
    rintro s hs hin rfl
    exact step_fault_of_fetch hs (fetchInstr_error_of_unassigned hin (rowOf_eq_none h))

end Sys2Proof.Machine

/-! The native call (R121): its one byte, and the fault that is its whole meaning. -/

namespace Sys2Proof.Machine

/-- Format `F0`: the opcode byte and no operand (R60, R121). -/
theorem encode_ncall : encode .ncall = [0x03#8] := rfl

/-- No check of the privilege, of memory or of the stack comes before the raise, so every state gives the fault (R121). -/
theorem exec_ncall (s : State) : exec .ncall s = .fault (.nativeCallUnsupported s.pc) := by
  simp only [exec, execNcall, raise]

/-- Settles O33: `NCALL` is its opcode byte alone, and its meaning is the raise alone. -/
theorem nativeCallAlwaysFaults : Obligations.NativeCallAlwaysFaults :=
  ⟨encode_ncall, exec_ncall⟩

end Sys2Proof.Machine

/-! The privileged set (R191): a byte of it is refused between the opcode fetch and the operand fetch, and no meaning of
a fetched instruction raises the condition a second time. -/

namespace Sys2Proof

section
variable {op : Byte} {row : OpRow} {i j : Instr} {bs rest : List Byte}

/-! ### The rows of the set -/

theorem opcode_of_rowOf (h : rowOf op = some row) : row.opcode = op := by
  simpa using List.find?_some h

theorem opcode_mem_of_privileged (hrow : row ∈ opcodeTable) (hp : row.privileged = true) :
    row.opcode.toNat ∈ [0x02, 0x50, 0x51, 0x61, 0x62, 0x63] := by
  revert row
  decide

/-- The bytes that R191 lists are those whose row is marked privileged. -/
theorem toNat_mem_privilegedSet :
    op.toNat ∈ [0x02, 0x50, 0x51, 0x61, 0x62, 0x63] ↔ ∃ row, rowOf op = some row ∧ row.privileged = true := by
  constructor
  · intro h
    have hop : op ∈ [0x02#8, 0x50#8, 0x51#8, 0x61#8, 0x62#8, 0x63#8] :=
      (List.mem_map_of_injective fun _ _ => BitVec.eq_of_toNat_eq).1 h
    simp only [List.mem_cons, List.not_mem_nil, or_false] at hop
    obtain rfl | rfl | rfl | rfl | rfl | rfl := hop <;> exact ⟨_, rfl, rfl⟩
  · rintro ⟨row, hrow, hp⟩
    rw [← opcode_of_rowOf hrow]
    exact opcode_mem_of_privileged (List.mem_of_find?_eq_some hrow) hp

/-! ### The decoder keeps the opcode byte -/

theorem decodeByte_ok {f : Byte → Instr} (h : decodeByte f bs = .ok (j, rest)) : ∃ b, j = f b := by
  cases bs with
  | nil => cases h
  | cons b _ => cases h; exact ⟨b, rfl⟩

theorem decodeRegReg_ok {f : Byte → Byte → Instr} (h : decodeRegReg f bs = .ok (j, rest)) : ∃ a b, j = f a b := by
  match bs, h with
  | a :: b :: _, h => cases h; exact ⟨a, b, rfl⟩

theorem decodeImm64_ok {f : Word → Instr} (h : decodeImm64 f bs = .ok (j, rest)) : ∃ v, j = f v := by
  unfold decodeImm64 at h
  split at h
  · cases h
  · cases h; exact ⟨_, rfl⟩

theorem decodeByteImm64_ok {f : Byte → Word → Instr} (h : decodeByteImm64 f bs = .ok (j, rest)) :
    ∃ b v, j = f b v := by
  cases bs with
  | nil => cases h
  | cons b _ => exact ⟨b, decodeImm64_ok h⟩

/-- Whatever operand bytes follow an opcode byte, what is decoded there has that opcode (R65). -/
theorem opcode_of_decode_opcode (h : decode (i.opcode :: bs) = .ok (j, rest)) : j.opcode = i.opcode := by
  cases i with
  | halt | reset | ncall | ret => cases h; rfl
  | popR | int8 | setf8 | clrf8 => obtain ⟨_, rfl⟩ := decodeByte_ok h; rfl
  | movRR | ld8RR | ld32RR | addRR | subRR | cmpRR | outRR | inRR => obtain ⟨_, _, rfl⟩ := decodeRegReg_ok h; rfl
  | jmp64 | je64 | jl64 | jg64 | call64 | push64 => obtain ⟨_, rfl⟩ := decodeImm64_ok h; rfl
  | movR64 | addR64 | subR64 | setint8_64 => obtain ⟨_, _, rfl⟩ := decodeByteImm64_ok h; rfl

/-- What is decoded behind an opcode byte with a row is privileged as the row says. -/
theorem isPrivileged_of_decode (hrow : rowOf op = some row) (h : decode (row.opcode :: bs) = .ok (i, rest)) :
    i.isPrivileged = row.privileged := by
  have hmem : row.opcode ∈ instructionOfEachRow.map Instr.opcode := by
    rw [map_opcode_instructionOfEachRow]
    exact List.mem_map_of_mem (List.mem_of_find?_eq_some hrow)
  obtain ⟨j, -, hj⟩ := List.mem_map.1 hmem
  have hi : i.opcode = op := by
    rw [← hj] at h
    rw [opcode_of_decode_opcode h, hj, opcode_of_rowOf hrow]
  simp [Instr.isPrivileged, hi, hrow]

end

end Sys2Proof

namespace Sys2Proof.Machine

section
variable {s t : State} {f : Fault} {i : Instr} {p q : Word} {op b : Byte}

/-! ### The fetch raises the condition by its privilege check alone (R64, R163) -/

theorem SameButAnswers.privileged_eq (h : SameButAnswers s t) : t.privileged = s.privileged := by
  rw [h.same]
  rfl

/-- The operand fetch faults only where an item is outside memory. -/
theorem fetchItems_error {ns : List Nat} (h : fetchItems p ns s = .error f) : ∃ a, f = .memoryOutOfRange p a := by
  induction ns generalizing s with
  | nil => cases h
  | cons n ns ih =>
    unfold fetchItems at h
    split at h
    · next g hfirst =>
      cases h
      exact ⟨_, (fetchBytes_error.1 hfirst).2⟩
    · next u _ =>
      split at h
      · next g hrest =>
        cases h
        exact ih hrest
      · cases h

theorem fetchOperands_ne_privilegeViolation {row : OpRow} :
    fetchOperands p op row s ≠ .error (.privilegeViolation q b) := by
  intro h
  unfold fetchOperands at h
  split at h
  · next g hitems =>
    obtain ⟨a, rfl⟩ := fetchItems_error hitems
    cases h
  · split at h <;> cases h

/-- Behind an opcode byte in memory with a row stand the privilege check and then the operand fetch (R64). -/
theorem fetchInstr_of_row {row : OpRow} (hin : s.pc.toNat < s.cfg.memSize)
    (hrow : rowOf (readByte s.pc.toNat s).1 = some row) :
    fetchInstr s =
      if row.privileged && !s.privileged then .error (.privilegeViolation s.pc (readByte s.pc.toNat s).1)
      else fetchOperands s.pc (readByte s.pc.toNat s).1 row (s.fetched 1) := by
  have hopcode : fetchBytes s.pc 1 s = .ok ([(readByte s.pc.toNat s).1], s.fetched 1) := fetchBytes_inMemory hin
  simp only [fetchInstr, hopcode, List.headD_cons, hrow, opcode_of_rowOf hrow]

/-- The fetch raises the condition in user mode at an opcode byte in memory whose row is privileged, nowhere else. -/
theorem fetchInstr_privilegeViolation :
    fetchInstr s = .error (.privilegeViolation p op) ↔
      s.pc.toNat < s.cfg.memSize ∧ s.privileged = false ∧
        (∃ row, rowOf (readByte s.pc.toNat s).1 = some row ∧ row.privileged = true) ∧
        p = s.pc ∧ op = (readByte s.pc.toNat s).1 := by
  by_cases hin : s.pc.toNat < s.cfg.memSize
  · cases hrow : rowOf (readByte s.pc.toNat s).1 with
    | none => simp [fetchInstr_error_of_unassigned hin hrow]
    | some row =>
      rw [fetchInstr_of_row hin hrow]
      by_cases hcheck : row.privileged = true ∧ s.privileged = false
      · simp [hin, hcheck, eq_comm (a := s.pc), eq_comm (b := op)]
      · have hpass : (row.privileged && !s.privileged) = false := by simpa using hcheck
        simp only [hpass, Bool.false_eq_true, if_false, fetchOperands_ne_privilegeViolation, false_iff]
        rintro ⟨-, hs, ⟨_, hr, hp⟩, -⟩
        cases hr
        exact hcheck ⟨hp, hs⟩
  · simp [fetchInstr_error_of_opcode_outside (not_lt.1 hin), hin]

/-! ### The meanings raise it only where their own check fails, which a completed fetch excludes -/

theorem exec_ne_privilegeViolation (h : i.isPrivileged = true → s.privileged = true) :
    exec i s ≠ .fault (.privilegeViolation p op) := by
  cases i with
  | reset | setint8_64 => simp [exec, execReset, execSetint8_64, whenPrivileged_fault, h rfl]
  | outRR | inRR =>
    simp only [ne_eq, exec, execOutRR, execInRR, whenPrivileged_fault, withRegs_fault, h rfl]
    split <;> simp
  | setf8 | clrf8 => simp [exec, execSetf8, execClrf8, whenPrivileged_fault, withFlag_fault, h rfl]
  | halt | ncall => simp [exec, execHalt, execNcall]
  | movR64 | addR64 | subR64 => simp [exec, execMovR64, execAddR64, execSubR64, withReg_fault]
  | movRR | addRR | subRR | cmpRR =>
    simp [exec, execMovRR, execAddRR, execSubRR, execCmpRR, withRegs_fault]
  | ld8RR | ld32RR => simp [exec, execLd8RR, execLd32RR, loadSigned, withRegs_fault, withMem_fault]
  | jmp64 | je64 | jl64 | jg64 => simp [exec, execJmp64, execJe64, execJl64, execJg64, jumpIf]
  | call64 => simp [exec, execCall64, withPush_fault, withDeeper_fault]
  | ret => simp [exec, execRet, withPop_fault, withShallower_fault]
  | push64 => simp [exec, execPush64, withPush_fault]
  | popR => simp [exec, execPopR, withReg_fault, withPop_fault]
  | int8 => simp [exec, execInt8, interrupt_fault]

/-- A completed fetch has passed the privilege check, and its instruction starts with the same `P`. -/
theorem privileged_of_fetchInstr_ok (h : fetchInstr s = .ok (i, t)) (hi : i.isPrivileged = true) :
    (t.jump s.pc).privileged = true := by
  obtain ⟨-, hsame, row, bs, rest, hrow, hp, hdecode⟩ := fetchInstr_ok h
  rw [hsame.privileged_eq]
  exact hp (isPrivileged_of_decode hrow hdecode ▸ hi)

theorem step_privilegeViolation (hs : Running s) :
    step s = .fault (.privilegeViolation p op) ↔ fetchInstr s = .error (.privilegeViolation p op) := by
  refine ⟨fun h => ?_, step_fault_of_fetch hs⟩
  obtain hlatched | ⟨-, -, hfetch | ⟨i, t, hfetch, hexec⟩⟩ := step_fault.1 h
  · simp [hs.1] at hlatched
  · exact hfetch
  · exact absurd hexec (exec_ne_privilegeViolation (privileged_of_fetchInstr_ok hfetch))

end

/-- Settles O8: a running step raises the condition exactly where its fetch does, and the fetch does so exactly in user
mode at an opcode byte whose row is privileged. -/
theorem privilegedSetFaultsInUserMode : Obligations.PrivilegedSetFaultsInUserMode := by
  refine fun s hs => ⟨fun hp hin hop => ?_, fun pc0 op h => ?_⟩
  · exact (step_privilegeViolation hs).2
      (fetchInstr_privilegeViolation.2 ⟨hin, hp, toNat_mem_privilegedSet.1 hop, rfl, rfl⟩)
  · obtain ⟨-, hp, hrow, rfl, rfl⟩ := fetchInstr_privilegeViolation.1 ((step_privilegeViolation hs).1 h)
    exact ⟨hp, rfl, rfl, toNat_mem_privilegedSet.2 hrow⟩

end Sys2Proof.Machine

/-! The decoder and the encoder are inverse (R60, R65): each format's decoder answers exactly on the bytes that the
encoder writes for it, and the opcode byte says which format is read. -/

namespace Sys2Proof

section
variable {op : Byte} {i j : Instr} {bs rest : List Byte}

/-! ### One format at a time -/

theorem decodeByte_eq_ok_iff {f : Byte → Instr} : decodeByte f bs = .ok (i, rest) ↔ ∃ b, i = f b ∧ bs = b :: rest := by
  cases bs with
  | nil => simp [decodeByte]
  | cons b bs => simp [decodeByte, eq_comm]

theorem decodeRegReg_eq_ok_iff {f : Byte → Byte → Instr} :
    decodeRegReg f bs = .ok (i, rest) ↔ ∃ a b, i = f a b ∧ bs = a :: b :: rest := by
  match bs with
  | [] | [_] => simp [decodeRegReg]
  | a :: b :: bs => simp [decodeRegReg, eq_comm]

theorem decodeImm64_imm64Bytes (f : Word → Instr) (v : Word) (rest : List Byte) :
    decodeImm64 f (imm64Bytes v ++ rest) = .ok (f v, rest) := by
  have htake : (imm64Bytes v ++ rest).take 8 = imm64Bytes v := List.take_left' (imm64Bytes_length v)
  have hdrop : (imm64Bytes v ++ rest).drop 8 = rest := List.drop_left' (imm64Bytes_length v)
  simp [decodeImm64, htake, hdrop, leValue_imm64Bytes]

/-- Eight bytes are those of the word they are read as. -/
theorem imm64Bytes_ofNat_leValue (h : bs.length = 8) : imm64Bytes (BitVec.ofNat 64 (leValue bs)) = bs := by
  have hlt : leValue bs < 2 ^ 64 := by simpa [h] using leValue_lt bs
  rw [imm64Bytes, BitVec.toNat_ofNat, Nat.mod_eq_of_lt hlt, ← h, leBytes_leValue]

theorem decodeImm64_eq_ok_iff {f : Word → Instr} :
    decodeImm64 f bs = .ok (i, rest) ↔ ∃ v, i = f v ∧ bs = imm64Bytes v ++ rest := by
  constructor
  · intro h
    unfold decodeImm64 at h
    split at h
    · cases h
    · next hlen =>
      cases h
      have htake : (bs.take 8).length = 8 := by simp; omega
      exact ⟨_, rfl, by rw [imm64Bytes_ofNat_leValue htake, List.take_append_drop]⟩
  · rintro ⟨v, rfl, rfl⟩
    exact decodeImm64_imm64Bytes f v rest

theorem decodeByteImm64_eq_ok_iff {f : Byte → Word → Instr} :
    decodeByteImm64 f bs = .ok (i, rest) ↔ ∃ b v, i = f b v ∧ bs = b :: (imm64Bytes v ++ rest) := by
  cases bs with
  | nil => simp [decodeByteImm64]
  | cons b bs =>
    rw [decodeByteImm64, decodeImm64_eq_ok_iff]
    constructor
    · rintro ⟨v, rfl, rfl⟩
      exact ⟨b, v, rfl, rfl⟩
    · rintro ⟨b', v, rfl, h⟩
      cases h
      exact ⟨v, rfl, rfl⟩

/-! ### All of the opcode map -/

theorem decode_encode (i : Instr) (rest : List Byte) : decode (encode i ++ rest) = .ok (i, rest) := by
  cases i with
  | halt | reset | ncall | ret => rfl
  | popR | int8 | setf8 | clrf8 => rfl
  | movRR | ld8RR | ld32RR | addRR | subRR | cmpRR | outRR | inRR => rfl
  | jmp64 v | je64 v | jl64 v | jg64 v | call64 v | push64 v => exact decodeImm64_imm64Bytes _ v rest
  | movR64 b v | addR64 b v | subR64 b v | setint8_64 b v => exact decodeImm64_imm64Bytes _ v rest

/-- What is decoded behind an instruction's opcode byte has the operand bytes that were read. -/
theorem eq_encode_of_decode_opcode (h : decode (i.opcode :: bs) = .ok (j, rest)) :
    i.opcode :: bs = encode j ++ rest := by
  cases i with
  | halt | reset | ncall | ret =>
    cases h
    rfl
  | popR | int8 | setf8 | clrf8 =>
    obtain ⟨b, rfl, rfl⟩ := decodeByte_eq_ok_iff.1 h
    rfl
  | movRR | ld8RR | ld32RR | addRR | subRR | cmpRR | outRR | inRR =>
    obtain ⟨a, b, rfl, rfl⟩ := decodeRegReg_eq_ok_iff.1 h
    rfl
  | jmp64 | je64 | jl64 | jg64 | call64 | push64 =>
    obtain ⟨v, rfl, rfl⟩ := decodeImm64_eq_ok_iff.1 h
    rfl
  | movR64 | addR64 | subR64 | setint8_64 =>
    obtain ⟨b, v, rfl, rfl⟩ := decodeByteImm64_eq_ok_iff.1 h
    rfl

/-- Bytes decode only behind an opcode byte of some instruction: any other first byte reaches the last arm (R66). -/
theorem exists_opcode_of_decode {r : Instr × List Byte} (h : decode (op :: bs) = .ok r) :
    ∃ i : Instr, i.opcode = op := by
  have hop : op ∈ opcodeTable.map OpRow.opcode := by
    rw [← Machine.toNat_mem_opcodes]
    rw [decode] at h
    split at h
    case h_27 => cases h
    all_goals simp [*]
  rw [← map_opcode_instructionOfEachRow] at hop
  obtain ⟨i, -, hi⟩ := List.mem_map.1 hop
  exact ⟨i, hi⟩

theorem eq_encode_of_decode (h : decode bs = .ok (i, rest)) : bs = encode i ++ rest := by
  cases bs with
  | nil => cases h
  | cons op bs =>
    obtain ⟨j, rfl⟩ := exists_opcode_of_decode h
    exact eq_encode_of_decode_opcode h

end

/-- Settles O1, by the format of the instruction. -/
theorem decodeInvertsEncode : Obligations.DecodeInvertsEncode := decode_encode

/-- Settles O2: the opcode byte is some instruction's, and the format read behind it keeps every byte. -/
theorem encodeInvertsDecode : Obligations.EncodeInvertsDecode := fun _ _ _ => eq_encode_of_decode

/-! ### The length (R68) -/

/-- The length that R60 gives an instruction with a byte as its opcode. -/
def lengthOfOpcode (op : Byte) : Nat :=
  if op.toNat ∈ [0x01, 0x02, 0x03, 0x35] then 1
  else if op.toNat ∈ [0x41, 0x60, 0x62, 0x63] then 2
  else if op.toNat ∈ [0x11, 0x12, 0x13, 0x20, 0x22, 0x24, 0x50, 0x51] then 3
  else if op.toNat ∈ [0x30, 0x31, 0x32, 0x33, 0x34, 0x40] then 9
  else 10

theorem length_eq_lengthOfOpcode (i : Instr) : i.length = lengthOfOpcode i.opcode := by
  cases i with
  | halt | reset | ncall | ret => rfl
  | popR | int8 | setf8 | clrf8 => rfl
  | movRR | ld8RR | ld32RR | addRR | subRR | cmpRR | outRR | inRR => rfl
  | jmp64 | je64 | jl64 | jg64 | call64 | push64 => rfl
  | movR64 | addR64 | subR64 | setint8_64 => rfl

/-- Settles O4: the bytes read are the encoding, whose length its opcode gives. -/
theorem opcodeFixesLength : Obligations.OpcodeFixesLength := by
  intro op bs i rest h
  have hbytes := eq_encode_of_decode h
  have hop : op = i.opcode := (List.cons.inj hbytes).1
  refine ⟨?_, hop ▸ length_eq_lengthOfOpcode i⟩
  simpa [Instr.length] using congrArg List.length hbytes

/-- Settles O5: seven byte strings, each run through the decoder. -/
theorem writtenBytesDecode : Obligations.WrittenBytesDecode := ⟨rfl, rfl, rfl, rfl, rfl, rfl, rfl⟩

end Sys2Proof

/-! What a step can do, coarsely: every meaning has an ordinary effect, needs the privilege, or enters a dispatch. In
every case only the engine's own fields change, and the table's form and the stack's capacity are kept. -/

namespace Sys2Proof.Machine

section
variable {s t u : State} {i : Instr}

/-! ### The trace grows (R183) -/

/-- The trace of `t` is that of `s` and then events with `P`. -/
def Emits (P : Event → Prop) (s t : State) : Prop := ∃ more, t.events = s.events ++ more ∧ ∀ e ∈ more, P e

/-- The events that code with `P = 0` can cause: the hook's and the memory front's. -/
def UserEvent (e : Event) : Prop := (∃ n, e = .hook n) ∨ ∃ a b, e = .frontGet a b

theorem Emits.of_eq {P : Event → Prop} (h : t.events = s.events) : Emits P s t := ⟨[], by simp [h], by simp⟩

theorem Emits.of_append {P : Event → Prop} {e : Event} (h : t.events = s.events ++ [e]) (he : P e) : Emits P s t :=
  ⟨[e], h, by simpa using he⟩

theorem Emits.trans {P : Event → Prop} (h : Emits P s t) (k : Emits P t u) : Emits P s u := by
  obtain ⟨l, hl, hP⟩ := h
  obtain ⟨m, hm, hQ⟩ := k
  exact ⟨l ++ m, by rw [hm, hl, List.append_assoc], by simpa [or_imp, forall_and] using ⟨hP, hQ⟩⟩

theorem Emits.events_isPrefix {P : Event → Prop} (h : Emits P s t) : s.events <+: t.events := by
  obtain ⟨more, h, -⟩ := h
  exact ⟨more, h.symm⟩

theorem callHook_emits (s : State) (n : Nat) : Emits UserEvent s (s.callHook n) := by
  unfold State.callHook
  split
  · exact .of_append rfl (.inl ⟨n, rfl⟩)
  · exact .of_eq rfl

theorem readByte_emits (a : Nat) (s : State) : Emits UserEvent s (readByte a s).2 := by
  unfold readByte
  split
  · exact .of_append rfl (.inr ⟨a, _, rfl⟩)
  · exact .of_eq rfl

theorem readBytes_emits (n a : Nat) (s : State) : Emits UserEvent s (readBytes n a s).2 := by
  induction n generalizing a s with
  | zero => exact .of_eq rfl
  | succ n ih => exact (readByte_emits a s).trans (ih (a + 1) _)

theorem fetchBytes_emits {pc0 : Word} {n : Nat} {bs : List Byte} (h : fetchBytes pc0 n s = .ok (bs, t)) :
    Emits UserEvent s t := by
  obtain ⟨-, -, rfl⟩ := fetchBytes_ok.1 h
  exact readBytes_emits n s.pc.toNat s

theorem fetchItems_emits {pc0 : Word} {ns : List Nat} {bs : List Byte} (h : fetchItems pc0 ns s = .ok (bs, t)) :
    Emits UserEvent s t := by
  induction ns generalizing s bs with
  | nil =>
    cases h
    exact .of_eq rfl
  | cons n ns ih =>
    unfold fetchItems at h
    split at h
    · cases h
    · next hfirst =>
      split at h
      · cases h
      · next hrest =>
        cases h
        exact (fetchBytes_emits hfirst).trans (ih hrest)

/-- Everything a completed fetch does (R64): the opcode byte, its row and the privilege check, the operand items, and
the decoder on the row's opcode with their bytes. -/
theorem fetchInstr_parts (h : fetchInstr s = .ok (i, t)) :
    ∃ row bs rest s1, fetchBytes s.pc 1 s = .ok ([(readByte s.pc.toNat s).1], s1) ∧
      rowOf (readByte s.pc.toNat s).1 = some row ∧ (row.privileged = true → s.privileged = true) ∧
      fetchItems s.pc row.format.items s1 = .ok (bs, t) ∧ decode (row.opcode :: bs) = .ok (i, rest) := by
  have hin : s.pc.toNat < s.cfg.memSize := (fetchInstr_ok h).1
  cases hrow : rowOf (readByte s.pc.toNat s).1 with
  | none => simp [fetchInstr_error_of_unassigned hin hrow] at h
  | some row =>
    rw [fetchInstr_of_row hin hrow] at h
    split at h
    · cases h
    · next hpriv =>
      unfold fetchOperands at h
      split at h
      · cases h
      · next bs s2 hitems =>
        split at h
        · next hdecode =>
          cases h
          rw [← opcode_of_rowOf hrow] at hdecode
          exact ⟨row, bs, _, _, fetchBytes_inMemory hin, rfl, by simpa using hpriv, hitems, hdecode⟩
        · cases h

theorem fetchInstr_emits (h : fetchInstr s = .ok (i, t)) : Emits UserEvent s t := by
  obtain ⟨row, bs, rest, s1, hopcode, -, -, hitems, -⟩ := fetchInstr_parts h
  exact (fetchBytes_emits hopcode).trans (fetchItems_emits hitems)

/-! ### The ordinary effect -/

/-- What a meaning does that neither needs the privilege nor enters a dispatch: it can change registers, pc, stack,
`CD`, the condition flags, `HALTED` and the answers, and the trace gains events of user mode only. -/
structure OrdinaryEffect (s t : State) : Prop where
  same : t = { s with
    regs := t.regs, pc := t.pc, cw := t.cw, cd := t.cd, stk := t.stk, halted := t.halted
    events := t.events, env := t.env, envCount := t.envCount }
  nreg : t.nreg = s.nreg
  flag : ∀ k, k = bitP ∨ bitIE ≤ k → t.flag k = s.flag k
  stack : StackOk s → StackOk t
  emits : Emits UserEvent s t

theorem OrdinaryEffect.trans (h : OrdinaryEffect s t) (k : OrdinaryEffect t u) : OrdinaryEffect s u where
  same := by rw [k.same, h.same]
  nreg := k.nreg.trans h.nreg
  flag j hj := (k.flag j hj).trans (h.flag j hj)
  stack hs := k.stack (h.stack hs)
  emits := h.emits.trans k.emits

theorem OrdinaryEffect.privileged_eq (h : OrdinaryEffect s t) : t.privileged = s.privileged := h.flag bitP (.inl rfl)

theorem OrdinaryEffect.ivt_eq (h : OrdinaryEffect s t) : t.ivt = s.ivt := by rw [h.same]

theorem OrdinaryEffect.df_eq (h : OrdinaryEffect s t) : t.df = s.df := by rw [h.same]

theorem ordinaryEffect_of_sameButAnswers (h : SameButAnswers s t) (he : Emits UserEvent s t) : OrdinaryEffect s t where
  same := by rw [h.same]
  nreg := by rw [h.same]; rfl
  flag _ _ := by rw [h.same]; rfl
  stack hs := by rw [h.same]; exact hs
  emits := he

theorem ordinaryEffect_setReg_advance (k : Nat) (v : Word) (n : Nat) : OrdinaryEffect s ((s.setReg k v).advance n) :=
  ⟨rfl, List.length_set .., fun _ _ => rfl, id, .of_eq rfl⟩

theorem ordinaryEffect_jump (a : Word) : OrdinaryEffect s (s.jump a) := ⟨rfl, rfl, fun _ _ => rfl, id, .of_eq rfl⟩

theorem ordinaryEffect_advance (n : Nat) : OrdinaryEffect s (s.advance n) :=
  ⟨rfl, rfl, fun _ _ => rfl, id, .of_eq rfl⟩

theorem ordinaryEffect_halt (b : Bool) : OrdinaryEffect s { s with halted := b } :=
  ⟨rfl, rfl, fun _ _ => rfl, id, .of_eq rfl⟩

theorem ordinaryEffect_callDepth (cd : Word) : OrdinaryEffect s { s with cd := cd } :=
  ⟨rfl, rfl, fun _ _ => rfl, id, .of_eq rfl⟩

theorem ordinaryEffect_callHook (n : Nat) : OrdinaryEffect s (s.callHook n) := by
  have hsame := callHook_eq s n
  refine ⟨by rw [hsame], ?_, fun _ _ => ?_, fun hs => ?_, callHook_emits s n⟩
  · rw [hsame]; rfl
  · rw [hsame]; rfl
  · rw [hsame]; exact hs

theorem ordinaryEffect_compare (a b : Word) : OrdinaryEffect s { s with cw := compareFlags s.cw a b } := by
  refine ⟨rfl, rfl, fun k hk => ?_, id, .of_eq rfl⟩
  have hne : k ≠ bitGT ∧ k ≠ bitLT ∧ k ≠ bitEQ := by
    simp only [bitP, bitEQ, bitLT, bitGT, bitIE] at hk ⊢
    omega
  simp [State.flag, getLsbD_compareFlags, hne]

theorem stackFull_eq_false : s.stackFull = false ↔ s.cfg.stackMax ≠ some s.stk.length := by
  simp [State.stackFull]

theorem stackFull_eq_true : s.stackFull = true ↔ s.cfg.stackMax = some s.stk.length := by
  simp [State.stackFull]

/-- A word goes on a stack that is not full: one more word still fits (R20). -/
theorem stackOk_push (w : Word) (hroom : s.stackFull = false) (h : StackOk s) : StackOk (s.push w) := by
  intro m hm
  have hle : s.stk.length ≤ m := h m hm
  have hne : m ≠ s.stk.length := by
    rintro rfl
    exact stackFull_eq_false.1 hroom hm
  simp only [State.push_stk, List.length_append, List.length_singleton]
  omega

theorem ordinaryEffect_push (w : Word) (hroom : s.stackFull = false) : OrdinaryEffect s (s.push w) :=
  ⟨rfl, rfl, fun _ _ => rfl, stackOk_push w hroom, .of_eq rfl⟩

theorem ordinaryEffect_pop : OrdinaryEffect s { s with stk := s.stk.dropLast } :=
  ⟨rfl, rfl, fun _ _ => rfl, fun h m hm => (List.length_dropLast ▸ Nat.sub_le ..).trans (h m hm), .of_eq rfl⟩

theorem ordinaryEffect_load {m : Nat} {ra rb : Byte} (h : loadSigned m ra rb s = .next t) : OrdinaryEffect s t := by
  obtain ⟨-, -, -, rfl⟩ := loadSigned_next.1 h
  exact (ordinaryEffect_of_sameButAnswers (readBytes_same ..) (readBytes_emits ..)).trans
    (ordinaryEffect_setReg_advance ..)

theorem ordinaryEffect_jumpIf {c : Prop} [Decidable c] {a : Word} {n : Nat}
    (h : t = if c then s.jump a else s.advance n) : OrdinaryEffect s t := by
  subst h
  split
  · exact ordinaryEffect_jump a
  · exact ordinaryEffect_advance n

/-- The interrupt operation without a handler (R170): `P` is set for the hook's call and then as before. -/
theorem wake_of_noHandler (s : State) (n : Nat) :
    (((s.setFlag bitP true).callHook n).setFlag bitP s.privileged).wake =
      State.callHook { s with halted := false } n := by
  have hP : setBit (setBit s.cw bitP true) bitP s.privileged = s.cw := by
    rw [setBit_setBit _ _ _ _ (by decide)]
    exact setBit_self s.cw bitP (by decide)
  rw [callHook_eq, callHook_eq { s with halted := false }]
  simp [State.setFlag, State.wake, hP]

/-! ### The other two effects -/

/-- What every meaning does: it leaves the host's objects and the latch alone, keeps the table's form and the stack's
capacity, and only adds to the trace. -/
structure EngineEffect (s t : State) : Prop where
  same : t = { s with
    regs := t.regs, pc := t.pc, cw := t.cw, cd := t.cd, stk := t.stk, ivt := t.ivt, halted := t.halted, df := t.df
    events := t.events, env := t.env, envCount := t.envCount }
  nreg : t.nreg = s.nreg
  handlers : HandlersOk s → HandlersOk t
  stack : StackOk s → StackOk t
  trace : s.events <+: t.events

theorem EngineEffect.refl (s : State) : EngineEffect s s := ⟨rfl, rfl, id, id, List.prefix_rfl⟩

theorem EngineEffect.trans (h : EngineEffect s t) (k : EngineEffect t u) : EngineEffect s u where
  same := by rw [k.same, h.same]
  nreg := k.nreg.trans h.nreg
  handlers hs := k.handlers (h.handlers hs)
  stack hs := k.stack (h.stack hs)
  trace := h.trace.trans k.trace

theorem OrdinaryEffect.engine (h : OrdinaryEffect s t) : EngineEffect s t where
  same := by rw [h.same]
  nreg := h.nreg
  handlers hs := by rw [HandlersOk, h.ivt_eq]; exact hs
  stack := h.stack
  trace := h.emits.events_isPrefix

theorem engineEffect_emit (e : Event) : EngineEffect s (s.emit e) := ⟨rfl, rfl, id, id, List.prefix_append ..⟩

theorem engineEffect_setFlag (k : Nat) (b : Bool) : EngineEffect s (s.setFlag k b) :=
  ⟨rfl, rfl, id, id, List.prefix_rfl⟩

theorem engineEffect_reinit : EngineEffect s s.reinit :=
  ⟨rfl, List.length_replicate, fun _ => ⟨.nil, by simp⟩, fun _ _ _ => Nat.zero_le _, List.prefix_rfl⟩

theorem engineEffect_answered : EngineEffect s s.answered := ⟨rfl, rfl, id, id, List.prefix_rfl⟩

theorem engineEffect_setHandler (n : Byte) (a : Word) : EngineEffect s { s with ivt := mapInsert n.toNat a s.ivt } := by
  refine ⟨rfl, rfl, fun ⟨hrising, hle⟩ => ⟨mapInsert_rising _ _ hrising, fun e he => ?_⟩, id, List.prefix_rfl⟩
  obtain rfl | he := mem_mapInsert he
  · exact Nat.le_of_lt_succ n.isLt
  · exact hle e he

theorem engineEffect_dispatchEntry (a : Word) (p : Bool) (hroom : s.stackFull = false) :
    EngineEffect s (dispatchEntry a p s) := ⟨rfl, rfl, id, stackOk_push s.pc hroom, List.prefix_rfl⟩

/-- The interrupt operation with a handler (R170): `P` is set, the hook is called, and the dispatch is entered. -/
theorem engineEffect_enterHandler (n : Nat) (a : Word) (p : Bool) (hroom : s.stackFull = false) :
    EngineEffect s (dispatchEntry a p ((s.setFlag bitP true).callHook n)) := by
  have hroom' : ((s.setFlag bitP true).callHook n).stackFull = false := by
    rw [callHook_eq]
    exact hroom
  exact ((engineEffect_setFlag bitP true).trans (ordinaryEffect_callHook n).engine).trans
    (engineEffect_dispatchEntry a p hroom')

theorem engineEffect_endOfDispatchTest : EngineEffect s (endOfDispatchTest s) := by
  have hsame := endOfDispatchTest_eq s
  refine ⟨by rw [hsame], ?_, fun hs => ?_, fun hs => ?_, ?_⟩
  · rw [hsame]; rfl
  · rw [hsame]; exact hs
  · rw [hsame]; exact hs
  · rw [hsame]

/-- `INT_8 n` through the open gate into its handler `a` (R170, R171). -/
structure EntersHandler (s : State) (n : Byte) (a : Word) (t : State) : Prop where
  gate : s.interruptsEnabled = true
  handler : s.handler n.toNat = some a
  room : s.stackFull = false
  depth : s.cd ≠ maxDepth
  next : t = dispatchEntry a s.privileged (((s.advance 2).setFlag bitP true).callHook n.toNat)

theorem EntersHandler.engine {n : Byte} {a : Word} (h : EntersHandler s n a t) : EngineEffect s t := by
  rw [h.next]
  exact (ordinaryEffect_advance 2).engine.trans (engineEffect_enterHandler (s := s.advance 2) _ a _ h.room)

/-! ### Every meaning -/

/-- The three kinds of effect. -/
inductive ExecEffect (s t : State) : Instr → Prop where
  | ordinary {i : Instr} (h : OrdinaryEffect s t) : ExecEffect s t i
  | privileged {i : Instr} (hp : s.privileged = true) (hdf : t.df = s.df) (h : EngineEffect s t) : ExecEffect s t i
  | dispatch {n : Byte} {a : Word} (h : EntersHandler s n a t) : ExecEffect s t (.int8 n)

theorem exec_int8_effect {n : Byte} (h : exec (.int8 n) s = .next t) : ExecEffect s t (.int8 n) := by
  obtain ⟨-, ⟨-, rfl⟩ | ⟨hgate, a, hhandler, hroom, hdepth, rfl⟩ | ⟨-, -, rfl⟩⟩ := interrupt_next.1 (exec_int8_next.1 h)
  · exact .ordinary (ordinaryEffect_advance 2)
  · exact .dispatch ⟨hgate, hhandler, hroom, hdepth, rfl⟩
  · rw [wake_of_noHandler]
    exact .ordinary (((ordinaryEffect_advance 2).trans (ordinaryEffect_halt false)).trans (ordinaryEffect_callHook _))

theorem exec_next_effect (h : exec i s = .next t) : ExecEffect s t i := by
  cases i with
  | halt =>
    obtain rfl := exec_halt_next.1 h
    exact .ordinary ((ordinaryEffect_halt true).trans (ordinaryEffect_advance 1))
  | reset =>
    obtain ⟨hp, rfl⟩ := exec_reset_next.1 h
    exact .privileged hp rfl engineEffect_reinit
  | ncall => exact absurd h exec_ncall_next
  | movR64 =>
    obtain ⟨-, rfl⟩ := exec_movR64_next.1 h
    exact .ordinary (ordinaryEffect_setReg_advance ..)
  | movRR =>
    obtain ⟨-, -, rfl⟩ := exec_movRR_next.1 h
    exact .ordinary (ordinaryEffect_setReg_advance ..)
  | ld8RR => exact .ordinary (ordinaryEffect_load (exec_ld8RR_next.1 h))
  | ld32RR => exact .ordinary (ordinaryEffect_load (exec_ld32RR_next.1 h))
  | addRR =>
    obtain ⟨-, -, rfl⟩ := exec_addRR_next.1 h
    exact .ordinary (ordinaryEffect_setReg_advance ..)
  | addR64 =>
    obtain ⟨-, rfl⟩ := exec_addR64_next.1 h
    exact .ordinary (ordinaryEffect_setReg_advance ..)
  | subRR =>
    obtain ⟨-, -, rfl⟩ := exec_subRR_next.1 h
    exact .ordinary (ordinaryEffect_setReg_advance ..)
  | subR64 =>
    obtain ⟨-, rfl⟩ := exec_subR64_next.1 h
    exact .ordinary (ordinaryEffect_setReg_advance ..)
  | cmpRR =>
    obtain ⟨-, -, rfl⟩ := exec_cmpRR_next.1 h
    exact .ordinary ((ordinaryEffect_compare ..).trans (ordinaryEffect_advance 3))
  | jmp64 a =>
    obtain rfl := exec_jmp64_next.1 h
    exact .ordinary (ordinaryEffect_jump a)
  | je64 => exact .ordinary (ordinaryEffect_jumpIf (exec_je64_next.1 h))
  | jl64 => exact .ordinary (ordinaryEffect_jumpIf (exec_jl64_next.1 h))
  | jg64 => exact .ordinary (ordinaryEffect_jumpIf (exec_jg64_next.1 h))
  | call64 a =>
    obtain ⟨hroom, -, rfl⟩ := exec_call64_next.1 h
    exact .ordinary (((ordinaryEffect_push (s.pc + 9#64) hroom).trans (ordinaryEffect_callDepth _)).trans
      (ordinaryEffect_jump a))
  | ret =>
    obtain ⟨w, -, -, rfl⟩ := exec_ret_next.1 h
    exact .ordinary ((ordinaryEffect_pop.trans (ordinaryEffect_callDepth _)).trans (ordinaryEffect_jump w))
  | push64 =>
    obtain ⟨hroom, rfl⟩ := exec_push64_next.1 h
    exact .ordinary ((ordinaryEffect_push _ hroom).trans (ordinaryEffect_advance 9))
  | popR =>
    obtain ⟨-, w, -, rfl⟩ := exec_popR_next.1 h
    exact .ordinary (ordinaryEffect_pop.trans (ordinaryEffect_setReg_advance ..))
  | outRR =>
    obtain ⟨hp, -, -, rfl⟩ := exec_outRR_next.1 h
    split
    · exact .privileged hp rfl ((engineEffect_emit _).trans (ordinaryEffect_advance 3).engine)
    · exact .ordinary (ordinaryEffect_advance 3)
  | inRR =>
    obtain ⟨hp, -, -, rfl⟩ := exec_inRR_next.1 h
    split
    · exact .privileged hp rfl ((engineEffect_answered.trans (engineEffect_emit _)).trans
        (ordinaryEffect_setReg_advance ..).engine)
    · exact .ordinary (ordinaryEffect_setReg_advance ..)
  | int8 => exact exec_int8_effect h
  | setint8_64 n a =>
    obtain ⟨hp, rfl⟩ := exec_setint8_64_next.1 h
    exact .privileged hp rfl ((engineEffect_setHandler n a).trans (ordinaryEffect_advance 10).engine)
  | setf8 =>
    obtain ⟨hp, -, rfl⟩ := exec_setf8_next.1 h
    exact .privileged hp rfl ((engineEffect_setFlag _ true).trans (ordinaryEffect_advance 2).engine)
  | clrf8 =>
    obtain ⟨hp, -, rfl⟩ := exec_clrf8_next.1 h
    exact .privileged hp rfl ((engineEffect_setFlag _ false).trans (ordinaryEffect_advance 2).engine)

theorem ExecEffect.engine (h : ExecEffect s t i) : EngineEffect s t := by
  cases h with
  | ordinary h => exact h.engine
  | privileged _ _ h => exact h
  | dispatch h => exact h.engine

/-! ### The step -/

/-- A step that answers rests, or runs an instruction, as effects: the fetch, the meaning, the end-of-dispatch test. -/
theorem step_next_effects (h : step s = .next t) :
    t = s ∨ ∃ i v u, SameButAnswers s v ∧ OrdinaryEffect s v ∧ exec i v = .next u ∧ ExecEffect v u i ∧
      t = endOfDispatchTest u := by
  obtain ⟨-, ⟨-, rfl⟩ | ⟨-, i, s1, u, hfetch, hexec, rfl⟩⟩ := step_next.1 h
  · exact .inl rfl
  · have hsame : SameButAnswers s (s1.jump s.pc) := (fetchInstr_ok hfetch).2.1
    have hemits : Emits UserEvent s (s1.jump s.pc) := (fetchInstr_emits hfetch).trans (.of_eq rfl)
    exact .inr ⟨i, s1.jump s.pc, u, hsame, ordinaryEffect_of_sameButAnswers hsame hemits, hexec,
      exec_next_effect hexec, rfl⟩

theorem step_engineEffect (h : step s = .next t) : EngineEffect s t := by
  obtain rfl | ⟨i, v, u, -, hfetch, -, hexec, rfl⟩ := step_next_effects h
  · exact .refl t
  · exact (hfetch.engine.trans hexec.engine).trans engineEffect_endOfDispatchTest

end

/-- Settles O44: a step has an engine effect, which leaves the host's objects. -/
theorem stepLeavesTheHostsObjects : Obligations.StepLeavesTheHostsObjects := by
  intro s t h
  have heffect := step_engineEffect h
  refine ⟨?_, ?_, ?_, ?_, heffect.nreg, ?_, heffect.trace⟩ <;> rw [heffect.same]

end Sys2Proof.Machine

/-! The frames that the end-of-dispatch test closes (R173), by induction on the frames, and the invariant that every
step and every move of the host keeps. -/

namespace Sys2Proof.Machine

section
variable {s t u : State} {kept closed : List DispatchFrame} {f : DispatchFrame}

/-! ### What the test closes -/

/-- The test at `s` closes the frames `closed`, the innermost ones, and keeps `kept`. -/
structure TestCloses (s : State) (kept closed : List DispatchFrame) : Prop where
  frames : s.df = kept ++ closed
  rec_eq : ∀ f ∈ closed, f.recDepth = s.cd
  rec_ne : ∀ f ∈ kept.getLast?, f.recDepth ≠ s.cd
  rests : closed = [] → endOfDispatchTest s = s
  ends : ∀ f ∈ closed.head?,
    endOfDispatchTest s = { s with df := kept, halted := false, cw := (endOfDispatchTest s).cw } ∧
    ∀ k, (endOfDispatchTest s).flag k = if k = 0 then f.savedP else s.flag k

theorem testCloses_of_open (h : DispatchOpen s) : TestCloses s s.df [] where
  frames := (List.append_nil _).symm
  rec_eq := by simp
  rec_ne f hf := (h f hf).symm
  rests _ := endOfDispatchTest_open s h
  ends := by simp

theorem endFrame_flag (k : Nat) : (endFrame f s).flag k = if k = 0 then f.savedP else s.flag k :=
  getLsbD_setBit s.cw bitP k f.savedP (by decide)

/-- One turn of the loop of R173: the innermost frame is closed after those that the rest of the test closes. -/
theorem TestCloses.of_endFrame (hf : s.df.getLast? = some f) (hc : s.cd = f.recDepth)
    (h : TestCloses (endFrame f s) kept closed) : TestCloses s kept (closed ++ [f]) := by
  have hclose : endOfDispatchTest s = endOfDispatchTest (endFrame f s) := endOfDispatchTest_close s f hf hc
  refine ⟨?_, ?_, h.rec_ne, by simp, ?_⟩
  · rw [← List.append_assoc, ← h.frames]
    exact (List.dropLast_append_getLast? f hf).symm
  · intro g hg
    obtain hg | rfl := by simpa using hg
    · exact h.rec_eq g hg
    · exact hc.symm
  · rw [hclose]
    cases closed with
    | nil =>
      rw [h.rests rfl]
      have hkept : s.df.dropLast = kept := by simpa using h.frames
      rintro g hg
      obtain rfl : f = g := by simpa using hg
      exact ⟨by rw [← hkept]; rfl, endFrame_flag⟩
    | cons g closed =>
      obtain ⟨hstate, hflag⟩ := h.ends g rfl
      rintro g' hg'
      obtain rfl : g = g' := by simpa using hg'
      refine ⟨hstate, fun k => ?_⟩
      rw [hflag, endFrame_flag]
      split <;> rfl

theorem exists_testCloses (s : State) : ∃ kept closed, TestCloses s kept closed := by
  induction hn : s.df.length generalizing s with
  | zero =>
    have hdf : s.df = [] := List.length_eq_zero_iff.1 hn
    exact ⟨_, _, testCloses_of_open (by simp [DispatchOpen, hdf])⟩
  | succ n ih =>
    by_cases hopen : DispatchOpen s
    · exact ⟨_, _, testCloses_of_open hopen⟩
    · obtain ⟨f, hf, hc⟩ : ∃ f, s.df.getLast? = some f ∧ s.cd = f.recDepth := by
        simpa [DispatchOpen] using hopen
      obtain ⟨kept, closed, h⟩ := ih (endFrame f s) (by simp [hn])
      exact ⟨kept, _, h.of_endFrame hf hc⟩

theorem TestCloses.df_eq (h : TestCloses s kept closed) : (endOfDispatchTest s).df = kept := by
  cases closed with
  | nil => rw [h.rests rfl, h.frames, List.append_nil]
  | cons g closed => rw [(h.ends g rfl).1]

theorem endOfDispatchTest_leaves_open (s : State) : DispatchOpen (endOfDispatchTest s) := by
  obtain ⟨kept, closed, h⟩ := exists_testCloses s
  intro f hf
  rw [h.df_eq] at hf
  rw [endOfDispatchTest_cd]
  exact (h.rec_ne f hf).symm

/-! ### The invariant -/

theorem State.Inv.of_engineEffect (hs : s.Inv) (h : EngineEffect s t) (hopen : DispatchOpen t) : t.Inv := by
  obtain ⟨hcfg, hregs, hmem, hhandlers, hports, hstack, -⟩ := hs
  have hnreg : t.regs.length = s.regs.length := h.nreg
  refine ⟨?_, by rwa [RegFileOk, hnreg], ?_, h.handlers hhandlers, ?_, h.stack hstack, hopen⟩
  · rw [h.same]; exact hcfg
  · rw [h.same]; exact hmem
  · rw [h.same]; exact hports

theorem State.Inv.dispatchOpen (hs : s.Inv) : DispatchOpen s := by
  obtain ⟨-, -, -, -, -, -, hopen⟩ := hs
  exact hopen

theorem step_inv (hs : s.Inv) (h : step s = .next t) : t.Inv := by
  refine hs.of_engineEffect (step_engineEffect h) ?_
  obtain rfl | ⟨i, v, u, -, -, -, -, rfl⟩ := step_next_effects h
  · exact hs.dispatchOpen
  · exact endOfDispatchTest_leaves_open u

/-! ### The invariant in the host's calls (R175, R185) -/

theorem dispatchOpen_of_noFrames (h : s.df = []) : DispatchOpen s := by
  simp [DispatchOpen, h]

/-- `CD` has counted up when a dispatch is entered, so it is not what the new frame recorded. -/
theorem dispatchOpen_dispatchEntry (a : Word) (p : Bool) (s : State) : DispatchOpen (dispatchEntry a p s) := by
  intro f hf
  obtain rfl : ⟨p, s.cd⟩ = f := by simpa using hf
  rw [dispatchEntry_cd]
  bv_omega

theorem interrupt_inv {pc0 : Word} {k : Nat} (hs : s.Inv) (hdf : s.df = []) (h : interrupt pc0 k s = .next t) :
    t.Inv := by
  obtain ⟨-, ⟨-, rfl⟩ | ⟨-, a, -, hroom, -, rfl⟩ | ⟨-, -, rfl⟩⟩ := interrupt_next.1 h
  · exact hs
  · exact hs.of_engineEffect (engineEffect_enterHandler k a _ hroom) (dispatchOpen_dispatchEntry _ _ _)
  · rw [wake_of_noHandler]
    have heffect := (ordinaryEffect_halt (s := s) false).trans (ordinaryEffect_callHook k)
    exact hs.of_engineEffect heffect.engine (dispatchOpen_of_noFrames (heffect.df_eq.trans hdf))

theorem sameButAnswers_inv (hs : s.Inv) (h : SameButAnswers s t) : t.Inv := by
  rw [h.same]
  exact hs

theorem memWrite_inv {a n v : Nat} (hs : s.Inv) (h : memWrite a n v s = .ok t) : t.Inv := by
  obtain ⟨hcfg, hregs, ⟨hwf, hlt⟩, hrest⟩ := hs
  obtain ⟨hin, rfl⟩ := memWrite_ok.1 h
  split
  · rw [emitSets_eq]
    exact ⟨hcfg, hregs, ⟨hwf, hlt⟩, hrest⟩
  · refine ⟨hcfg, hregs, ⟨Memory.writeBytes_wf a _ hwf, fun c hc => ?_⟩, hrest⟩
    obtain ⟨-, hc⟩ | hc := Memory.mem_writeBytes hc
    · rw [leBytes_length] at hc
      exact hc.trans_le hin
    · exact hlt c hc

theorem hostReset_inv (hs : s.Inv) : (hostReset s).Inv := by
  obtain ⟨hcfg, hregs, hmem, -, hports, -, -⟩ := hs
  have hnreg : (hostReset s).regs.length = s.regs.length := List.length_replicate
  exact ⟨hcfg, by rwa [RegFileOk, hnreg], hmem, ⟨.nil, by simp [hostReset]⟩, hports, fun _ _ => Nat.zero_le _,
    dispatchOpen_of_noFrames rfl⟩

theorem registerPort_inv (p : Word) (hs : s.Inv) : State.Inv { s with ports := insertPort p s.ports } := by
  obtain ⟨hcfg, hregs, hmem, hhandlers, hports, hrest⟩ := hs
  exact ⟨hcfg, hregs, hmem, hhandlers, insertPort_rising hports, hrest⟩

/-- Whatever state a call leaves, it has the invariant. -/
def HostReturn.LeavesInv (x : HostReturn) : Prop := ∀ t, x.state? = some t → t.Inv

theorem leavesInv_returned {r : CallResult} (h : t.Inv) : (HostReturn.returned r t).LeavesInv := by
  rintro _ ⟨⟩
  exact h

theorem leavesInv_running (h : t.Inv) : (HostReturn.running t).LeavesInv := by
  rintro _ ⟨⟩
  exact h

theorem leavesInv_notAllowed : HostReturn.notAllowed.LeavesInv := nofun

theorem leavesInv_refused (r : Refusal) : (HostReturn.refused r).LeavesInv := nofun

theorem betweenSteps_leavesInv {x : HostReturn} (h : x.LeavesInv) : (betweenSteps s x).LeavesInv := by
  unfold betweenSteps
  split
  · exact h
  · exact leavesInv_notAllowed

theorem recordResult_leavesInv {x : HostReturn} (h : x.LeavesInv) : (recordResult x).LeavesInv := by
  cases x with
  | returned r u => exact leavesInv_returned (h u rfl)
  | running u => exact h
  | notAllowed => exact h
  | refused r => exact h

/-- By induction on the micro-steps of the dispatch. -/
theorem runToDepth_leavesInv {d n : Nat} {r : CallResult} (hs : s.Inv) : (runToDepth d r n s).LeavesInv := by
  induction n generalizing s with
  | zero =>
    unfold runToDepth
    split
    · exact leavesInv_returned hs
    · exact leavesInv_running hs
  | succ n ih =>
    unfold runToDepth
    split
    · exact leavesInv_returned hs
    · split
      · next hm => exact ih (step_inv hs (step_of_microStep hm))
      · exact leavesInv_returned hs
      · exact leavesInv_refused _

theorem hostStep_leavesInv {n : Nat} (hs : s.Inv) : (hostStep n s).LeavesInv := by
  unfold hostStep
  split
  · exact recordResult_leavesInv (leavesInv_returned hs)
  · split
    · split
      · next hm => exact recordResult_leavesInv (runToDepth_leavesInv (step_inv hs (step_of_microStep hm)))
      · exact recordResult_leavesInv (leavesInv_returned hs)
      · exact leavesInv_refused _
    · exact leavesInv_notAllowed

theorem hostInterrupt_leavesInv {n k : Nat} (hs : s.Inv) : (hostInterrupt n k s).LeavesInv := by
  unfold hostInterrupt
  split
  · next h =>
    split
    · next hi => exact runToDepth_leavesInv (interrupt_inv hs h.2 hi)
    · exact leavesInv_returned hs
    · exact leavesInv_refused _
  · exact leavesInv_notAllowed

theorem hostMove_leavesInv (n : Nat) (m : HostMove) (hs : s.Inv) : (hostMove n m s).LeavesInv := by
  cases m with
  | step => exact hostStep_leavesInv hs
  | interrupt k => exact hostInterrupt_leavesInv hs
  | reset => exact betweenSteps_leavesInv (leavesInv_returned (hostReset_inv hs))
  | registerPort p => exact betweenSteps_leavesInv (leavesInv_returned (registerPort_inv p hs))
  | setHook | readControlWord | writeControlWord => exact betweenSteps_leavesInv (leavesInv_returned hs)
  | readMemory a k =>
    refine betweenSteps_leavesInv ?_
    split
    · next hread => exact leavesInv_returned (sameButAnswers_inv hs (hostMemRead_same hread))
    · exact leavesInv_returned hs
  | writeMemory a k v =>
    refine betweenSteps_leavesInv ?_
    split
    · next hwrite => exact leavesInv_returned (memWrite_inv hs hwrite)
    · exact leavesInv_returned hs

end

/-- Settles O38, by induction on the frames: each turn of the loop closes the innermost one. -/
theorem dispatchTestClosesFinishedFrames : Obligations.DispatchTestClosesFinishedFrames := by
  intro s
  obtain ⟨kept, closed, h⟩ := exists_testCloses s
  exact ⟨kept, closed, h.frames, h.rec_eq, h.rec_ne, h.rests, h.ends⟩

/-- Settles O45: a step has an engine effect, and leaves its innermost dispatch open by the end-of-dispatch test. -/
theorem stepKeepsTheInvariant : Obligations.StepKeepsTheInvariant := fun _ _ => step_inv

/-- Settles O48, by cases on the move; a dispatch by induction on its micro-steps. -/
theorem hostMovesKeepTheInvariant : Obligations.HostMovesKeepTheInvariant :=
  fun n m _ t hs h => hostMove_leavesInv n m hs t h

/-- Settles O47: the construction checks each part of the invariant that is not empty. -/
theorem constructedEngineHasTheInvariant : Obligations.ConstructedEngineHasTheInvariant := by
  intro nreg cfg mem ports hook hpos hle hcfg hmem hlt hports
  have hnreg : (construct nreg cfg mem ports hook).regs.length = nreg := List.length_replicate
  exact ⟨hcfg, by rw [RegFileOk, hnreg]; exact ⟨hpos, hle⟩, ⟨hmem, hlt⟩, ⟨.nil, by simp [construct]⟩, hports,
    fun _ _ => Nat.zero_le _, dispatchOpen_of_noFrames rfl⟩

/-- Settles O46: the reset state is the engine constructed over empty memory with 16 registers. -/
theorem resetStateHasTheInvariant : Obligations.ResetStateHasTheInvariant := by
  have hcfg : Config.default.wf := ⟨by decide, by decide⟩
  exact constructedEngineHasTheInvariant 16 Config.default [] [] true (by decide) (by decide) hcfg ⟨.nil, by simp⟩
    (by simp) .nil

end Sys2Proof.Machine

/-! The faults of the meanings (R162): each cause with the instructions and the condition behind it, and the pc that the
condition carries (R161). -/

namespace Sys2Proof.Machine

section
variable {s t : State} {i : Instr} {f : Fault} {ra rb op : Byte}

/-- Every way in which the meaning of `i` faults at `s` (R162). -/
inductive ExecFault (i : Instr) (s : State) : Fault → Prop where
  | privilege (hi : i.isPrivileged = true) (hp : s.privileged = false) :
      ExecFault i s (.privilegeViolation s.pc i.opcode)
  | register {b : Byte} (hb : b ∈ registerOperands i) (hout : s.nreg ≤ b.toNat) :
      ExecFault i s (.registerIndexOutOfRange s.pc b)
  | flagIndex {k : Byte} (hi : i = .setf8 k ∨ i = .clrf8 k) (hout : 4 < k.toNat) :
      ExecFault i s (.flagIndexOutOfRange s.pc k)
  | load8 {ra rb : Byte} (hi : i = .ld8RR ra rb) (hout : s.cfg.memSize < (s.reg rb.toNat).toNat + 1) :
      ExecFault i s (.memoryOutOfRange s.pc (s.reg rb.toNat).toNat)
  | load32 {ra rb : Byte} (hi : i = .ld32RR ra rb) (hout : s.cfg.memSize < (s.reg rb.toNat).toNat + 4) :
      ExecFault i s (.memoryOutOfRange s.pc (s.reg rb.toNat).toNat)
  | underflow (hi : i = .ret ∨ ∃ ra, i = .popR ra) (hempty : s.stk = []) : ExecFault i s (.stackUnderflow s.pc 0)
  | overflow (hi : (∃ a, i = .call64 a) ∨ (∃ v, i = .push64 v) ∨ ∃ n, i = .int8 n) (hfull : s.stackFull = true) :
      ExecFault i s (.stackOverflow s.pc s.stk.length)
  | depthUnderflow (hi : i = .ret) (hcd : s.cd = 0#64) : ExecFault i s (.callDepthUnderflow s.pc)
  | depthOverflow (hi : (∃ a, i = .call64 a) ∨ ∃ n, i = .int8 n) (hcd : s.cd = maxDepth) :
      ExecFault i s (.callDepthOverflow s.pc s.cd)
  | native (hi : i = .ncall) : ExecFault i s (.nativeCallUnsupported s.pc)

/-! ### The shared checks -/

theorem execFault_of_whenPrivileged {x : Result} (h : whenPrivileged op s x = .fault f) (hi : i.isPrivileged = true)
    (hop : i.opcode = op) (hx : x = .fault f → ExecFault i s f) : ExecFault i s f := by
  obtain ⟨-, h⟩ | ⟨hp, rfl⟩ := whenPrivileged_fault.1 h
  · exact hx h
  · exact hop ▸ .privilege hi hp

theorem execFault_of_withReg {k : Nat → Result} (h : withReg ra s k = .fault f) (hr : registerOperands i = [ra])
    (hk : k ra.toNat = .fault f → ExecFault i s f) : ExecFault i s f := by
  obtain ⟨-, h⟩ | ⟨hout, rfl⟩ := withReg_fault.1 h
  · exact hk h
  · exact .register (by simp [hr]) hout

theorem execFault_of_withRegs {k : Nat → Nat → Result} (h : withRegs ra rb s k = .fault f)
    (hr : registerOperands i = [ra, rb]) (hk : k ra.toNat rb.toNat = .fault f → ExecFault i s f) : ExecFault i s f := by
  obtain ⟨-, -, h⟩ | ⟨-, hout, rfl⟩ | ⟨hout, rfl⟩ := withRegs_fault.1 h
  · exact hk h
  · exact .register (by simp [hr]) hout
  · exact .register (by simp [hr]) hout

theorem execFault_of_withFlag {b : Byte} {k : Nat → Result} (h : withFlag b s k = .fault f)
    (hi : i = .setf8 b ∨ i = .clrf8 b) (hk : k b.toNat = .fault f → ExecFault i s f) : ExecFault i s f := by
  obtain ⟨-, h⟩ | ⟨hout, rfl⟩ := withFlag_fault.1 h
  · exact hk h
  · exact .flagIndex hi hout

/-! ### Instructions with faults of their own -/

theorem loadSigned_fault {m : Nat} (ha : ra.toNat < s.nreg) (hb : rb.toNat < s.nreg) :
    loadSigned m ra rb s = .fault f ↔
      s.cfg.memSize < (s.reg rb.toNat).toNat + m ∧ f = .memoryOutOfRange s.pc (s.reg rb.toNat).toNat := by
  simp [loadSigned, withRegs_fault, withMem_fault, ha, hb, not_le.2 ha, not_le.2 hb]

theorem exec_call64_fault {a : Word} :
    exec (.call64 a) s = .fault f ↔
      (s.stackFull = true ∧ f = .stackOverflow s.pc s.stk.length) ∨
      (s.stackFull = false ∧ s.cd = maxDepth ∧ f = .callDepthOverflow s.pc s.cd) := by
  simp only [exec, execCall64, withPush_fault, withDeeper_fault, State.push_cd, reduceCtorEq, and_false, false_or]
  exact or_comm

theorem exec_ret_fault :
    exec .ret s = .fault f ↔
      (s.stk = [] ∧ f = .stackUnderflow s.pc 0) ∨ (s.stk ≠ [] ∧ s.cd = 0#64 ∧ f = .callDepthUnderflow s.pc) := by
  have htop : (∃ w, s.stk.getLast? = some w) ↔ s.stk ≠ [] := by
    rw [← Option.ne_none_iff_exists', ne_eq, List.getLast?_eq_none_iff]
  simp only [exec, execRet, withPop_fault, withShallower_fault, reduceCtorEq, and_false, false_or, exists_and_right,
    htop]
  exact or_comm

theorem exec_push64_fault {v : Word} :
    exec (.push64 v) s = .fault f ↔ s.stackFull = true ∧ f = .stackOverflow s.pc s.stk.length := by
  simp only [exec, execPush64, withPush_fault, reduceCtorEq, and_false, false_or]

theorem exec_popR_fault (ha : ra.toNat < s.nreg) :
    exec (.popR ra) s = .fault f ↔ s.stk = [] ∧ f = .stackUnderflow s.pc 0 := by
  simp [exec, execPopR, withReg_fault, withPop_fault, ha, not_le.2 ha]

theorem exec_int8_fault {n : Byte} :
    exec (.int8 n) s = .fault f ↔
      s.interruptsEnabled = true ∧ (∃ a, s.handler n.toNat = some a) ∧
        ((s.stackFull = true ∧ f = .stackOverflow s.pc s.stk.length) ∨
         (s.stackFull = false ∧ s.cd = maxDepth ∧ f = .callDepthOverflow s.pc s.cd)) := by
  have hn : n.toNat ≤ 255 := Nat.le_of_lt_succ n.isLt
  have h : exec (.int8 n) s = interrupt s.pc n.toNat (s.advance 2) := rfl
  rw [h, interrupt_fault]
  simp only [hn, not_lt.2 hn, false_and, false_or, true_and]
  rfl

/-! ### Every meaning -/

theorem execFault_of_load {m : Nat} (h : loadSigned m ra rb s = .fault f) (hr : registerOperands i = [ra, rb])
    (hx : s.cfg.memSize < (s.reg rb.toNat).toNat + m → ExecFault i s (.memoryOutOfRange s.pc (s.reg rb.toNat).toNat)) :
    ExecFault i s f := by
  refine execFault_of_withRegs h hr fun h => ?_
  obtain ⟨-, h⟩ | ⟨hout, rfl⟩ := withMem_fault.1 h
  · cases h
  · exact hx hout

theorem exec_fault_cases (h : exec i s = .fault f) : ExecFault i s f := by
  cases i with
  | halt | jmp64 | je64 | jl64 | jg64 => cases h
  | reset | setint8_64 => exact execFault_of_whenPrivileged h rfl rfl nofun
  | ncall =>
    cases h
    exact .native rfl
  | movR64 | addR64 | subR64 =>
    unfold exec at h
    exact execFault_of_withReg h rfl nofun
  | movRR | addRR | subRR | cmpRR =>
    unfold exec at h
    exact execFault_of_withRegs h rfl nofun
  | ld8RR => exact execFault_of_load h rfl (.load8 rfl)
  | ld32RR => exact execFault_of_load h rfl (.load32 rfl)
  | call64 a =>
    obtain ⟨hfull, rfl⟩ | ⟨-, hcd, rfl⟩ := exec_call64_fault.1 h
    · exact .overflow (.inl ⟨a, rfl⟩) hfull
    · exact .depthOverflow (.inl ⟨a, rfl⟩) hcd
  | ret =>
    obtain ⟨hempty, rfl⟩ | ⟨-, hcd, rfl⟩ := exec_ret_fault.1 h
    · exact .underflow (.inl rfl) hempty
    · exact .depthUnderflow rfl hcd
  | push64 v =>
    obtain ⟨hfull, rfl⟩ := exec_push64_fault.1 h
    exact .overflow (.inr (.inl ⟨v, rfl⟩)) hfull
  | popR ra =>
    unfold exec at h
    refine execFault_of_withReg h rfl fun h => ?_
    obtain ⟨_, -, h⟩ | ⟨hempty, rfl⟩ := withPop_fault.1 h
    · cases h
    · exact .underflow (.inr ⟨ra, rfl⟩) hempty
  | outRR | inRR =>
    refine execFault_of_whenPrivileged h rfl rfl fun h => execFault_of_withRegs h rfl fun h => ?_
    split at h <;> cases h
  | int8 n =>
    obtain ⟨-, -, ⟨hfull, rfl⟩ | ⟨-, hcd, rfl⟩⟩ := exec_int8_fault.1 h
    · exact .overflow (.inr (.inr ⟨n, rfl⟩)) hfull
    · exact .depthOverflow (.inr ⟨n, rfl⟩) hcd
  | setf8 => exact execFault_of_whenPrivileged h rfl rfl fun h => execFault_of_withFlag h (.inl rfl) nofun
  | clrf8 => exact execFault_of_whenPrivileged h rfl rfl fun h => execFault_of_withFlag h (.inr rfl) nofun

theorem exec_ne_refused (i : Instr) (s : State) (r : Refusal) : exec i s ≠ .refused r := by
  cases i with
  | halt | ncall | jmp64 | je64 | jl64 | jg64 => nofun
  | reset | setint8_64 => simp [exec, execReset, execSetint8_64, whenPrivileged_refused]
  | movR64 | addR64 | subR64 => simp [exec, execMovR64, execAddR64, execSubR64, withReg_refused]
  | movRR | addRR | subRR | cmpRR => simp [exec, execMovRR, execAddRR, execSubRR, execCmpRR, withRegs_refused]
  | ld8RR | ld32RR => simp [exec, execLd8RR, execLd32RR, loadSigned, withRegs_refused, withMem_refused]
  | call64 => simp [exec, execCall64, withPush_refused, withDeeper_refused]
  | ret => simp [exec, execRet, withPop_refused, withShallower_refused]
  | push64 => simp [exec, execPush64, withPush_refused]
  | popR => simp [exec, execPopR, withReg_refused, withPop_refused]
  | outRR | inRR =>
    simp only [ne_eq, exec, execOutRR, execInRR, whenPrivileged_refused, withRegs_refused]
    split <;> simp
  | int8 => exact interrupt_refused
  | setf8 | clrf8 => simp [exec, execSetf8, execClrf8, whenPrivileged_refused, withFlag_refused]

/-! ### The step -/

theorem ExecFault.pc0_eq (h : ExecFault i s f) : f.pc0 = s.pc := by
  cases h <;> rfl

/-- The fetch raises its conditions with the pc of the opcode byte. -/
theorem fetchInstr_error_pc0 (h : fetchInstr s = .error f) : f.pc0 = s.pc := by
  by_cases hin : s.pc.toNat < s.cfg.memSize
  · cases hrow : rowOf (readByte s.pc.toNat s).1 with
    | none =>
      rw [fetchInstr_error_of_unassigned hin hrow] at h
      cases h
      rfl
    | some row =>
      rw [fetchInstr_of_row hin hrow] at h
      split at h
      · cases h
        rfl
      · unfold fetchOperands at h
        split at h
        · next hitems =>
          cases h
          obtain ⟨a, rfl⟩ := fetchItems_error hitems
          rfl
        · split at h
          · cases h
          · cases h
            rfl
  · rw [fetchInstr_error_of_opcode_outside (not_lt.1 hin)] at h
    cases h
    rfl

theorem step_fault_pc0 (hf : s.fault = none) (h : step s = .fault f) : f.pc0 = s.pc := by
  obtain hlatched | ⟨-, -, hfetch | ⟨i, s1, -, hexec⟩⟩ := step_fault.1 h
  · simp [hf] at hlatched
  · exact fetchInstr_error_pc0 hfetch
  · exact (exec_fault_cases hexec).pc0_eq

end

/-- Settles O14: the fetch and every meaning raise with the pc of the opcode byte. -/
theorem everyFaultCarriesThePc : Obligations.EveryFaultCarriesThePc := fun _ _ => step_fault_pc0

/-- Settles O15: a step refuses only what a meaning refuses, and no meaning refuses. -/
theorem stepNeverRefuses : Obligations.StepNeverRefuses := by
  intro s r h
  unfold step microStep at h
  split at h
  · cases h
  · split at h
    · cases h
    · split at h
      · cases h
      · next i s1 _ =>
        cases hexec : exec i (s1.jump s.pc) with
        | next u => simp [hexec, finishMicroStep, dropResult] at h
        | fault f => simp [hexec, finishMicroStep, dropResult] at h
        | refused r' => exact exec_ne_refused i _ r' hexec

/-- Settles O16, by the way in which the meaning faults. -/
theorem causesComeFromTheirInstructions : Obligations.CausesComeFromTheirInstructions := by
  intro i s f h
  cases exec_fault_cases h with
  | privilege hi hp => exact ⟨hi, rfl, hp⟩
  | register hb hout => exact ⟨hb, hout⟩
  | flagIndex hi hout => exact ⟨hi, hout⟩
  | load8 hi hout => exact .inl ⟨_, _, hi, rfl, hout⟩
  | load32 hi hout => exact .inr ⟨_, _, hi, rfl, hout⟩
  | underflow hi hempty => exact ⟨hi, hempty, rfl⟩
  | overflow hi hfull => exact ⟨hi, stackFull_eq_true.1 hfull, rfl⟩
  | depthUnderflow hi hcd => exact ⟨hi, hcd⟩
  | depthOverflow hi hcd => exact ⟨hi, rfl, by rw [hcd]; rfl⟩
  | native hi => exact hi

/-- Settles O13: the host's step latches the fault of its first micro-step and records it; nothing else is written. -/
theorem fatalConditionIsPrecise : Obligations.FatalConditionIsPrecise := by
  intro n s f hf hdf hm
  refine ⟨step_fault_pc0 hf (step_fault_iff_microStep.2 hm), (latch f s).emit (.stepResult (.fault f)),
    (hostStep_returned hf).2 ⟨hdf, latch f s, rfl, .inr ⟨f, hm, rfl, rfl⟩⟩, rfl, fun hfront => ?_⟩
  simp [latch, hfront]

end Sys2Proof.Machine

/-! Dispatches over whole steps: how one is entered and left (R170-R173), what user mode cannot reach (R190-R192), and a
halt inside a dispatch (R211). -/

namespace Sys2Proof.Machine

section
variable {s t u v : State} {i : Instr} {n : Byte} {a : Word} {kept closed : List DispatchFrame} {f : DispatchFrame}

/-! ### Entering -/

/-- The interrupt operation with a handler, field by field (R170, R171). -/
theorem enterHandler_eq (s : State) (k : Nat) (a : Word) (p : Bool) :
    dispatchEntry a p ((s.setFlag bitP true).callHook k) =
      { s with
        cw := setBit s.cw bitP true
        events := if s.hook then s.events ++ [.hook k] else s.events
        stk := s.stk ++ [s.pc]
        cd := s.cd + 1#64
        df := s.df ++ [⟨p, s.cd⟩]
        pc := a } := by
  rw [callHook_eq, State.callHook_events]
  rfl

theorem EntersHandler.next_eq (h : EntersHandler s n a t) :
    t = { s with
      cw := setBit s.cw bitP true
      events := if s.hook then s.events ++ [.hook n.toNat] else s.events
      stk := s.stk ++ [s.pc + 2]
      cd := s.cd + 1
      df := s.df ++ [⟨s.privileged, s.cd⟩]
      pc := a } := h.next.trans (enterHandler_eq (s.advance 2) n.toNat a s.privileged)

theorem exec_int8_of_enters (h : EntersHandler s n a t) : exec (.int8 n) s = .next t :=
  exec_int8_next.2 (interrupt_next.2
    ⟨Nat.le_of_lt_succ n.isLt, .inr (.inl ⟨h.gate, a, h.handler, h.room, h.depth, h.next⟩)⟩)

theorem entersHandler_of_exec (hgate : s.interruptsEnabled = true) (hhandler : s.handler n.toNat = some a)
    (h : exec (.int8 n) s = .next t) : EntersHandler s n a t := by
  have hhandler' : (s.advance 2).handler n.toNat = some a := hhandler
  obtain ⟨-, ⟨hclosed, -⟩ | ⟨-, b, hb, hroom, hdepth, rfl⟩ | ⟨-, hnone, -⟩⟩ := interrupt_next.1 (exec_int8_next.1 h)
  · exact absurd (hgate.symm.trans hclosed) nofun
  · obtain rfl := Option.some.inj (hb.symm.trans hhandler')
    exact ⟨hgate, hhandler, hroom, hdepth, rfl⟩
  · exact absurd (hnone.symm.trans hhandler') nofun

theorem EntersHandler.test_eq (h : EntersHandler s n a t) : endOfDispatchTest t = t := by
  rw [h.next]
  exact endOfDispatchTest_open _ (dispatchOpen_dispatchEntry _ _ _)

theorem eq_maxDepth_iff {w : Word} : w = maxDepth ↔ w.toNat = 2 ^ 64 - 1 := by
  rw [← BitVec.toNat_inj, maxDepth, BitVec.toNat_allOnes]

/-! ### Leaving -/

/-- A meaning adds at most one frame, at the end. -/
theorem ExecEffect.df_prefix (h : ExecEffect s t i) : s.df <+: t.df := by
  cases h with
  | ordinary h => rw [h.df_eq]
  | privileged _ hdf _ => rw [hdf]
  | dispatch h =>
    rw [h.next_eq]
    exact List.prefix_append ..

/-- When fewer frames are kept than there were before the meaning added any, the kept ones and the outermost closed one
are among those before. -/
theorem TestCloses.outermost (h : TestCloses u kept closed) (hdf : s.df <+: u.df) (hlt : kept.length < s.df.length) :
    ∃ f, closed.head? = some f ∧ kept = s.df.take kept.length ∧ s.df[kept.length]? = some f := by
  obtain ⟨new, hnew⟩ := hdf
  have hframes : s.df ++ new = kept ++ closed := hnew.trans h.frames
  have hkept : s.df.take kept.length = kept := by
    simpa [List.take_append_of_le_length hlt.le] using congrArg (List.take kept.length) hframes
  have hget : s.df[kept.length]? = closed.head? := by
    simpa [List.getElem?_append_left hlt, List.getElem?_append_right, List.head?_eq_getElem?]
      using congrArg (·[kept.length]?) hframes
  rw [List.getElem?_eq_getElem hlt] at hget
  exact ⟨_, hget.symm, hkept.symm, List.getElem?_eq_getElem hlt⟩

/-- What a step that ends a dispatch restores (R173): the frames before the outermost one it closed, that frame's `P`,
with `CD` at its `rec`, and the engine running. -/
theorem step_ends_dispatch (h : step s = .next t) (hlt : t.df.length < s.df.length) :
    t.df = s.df.take t.df.length ∧ t.halted = false ∧
      ∃ f, s.df[t.df.length]? = some f ∧ t.privileged = f.savedP ∧ t.cd = f.recDepth := by
  obtain rfl | ⟨i, v, u, -, hfetch, -, hexec, rfl⟩ := step_next_effects h
  · exact absurd hlt (lt_irrefl _)
  · obtain ⟨kept, closed, hcloses⟩ := exists_testCloses u
    rw [hcloses.df_eq] at hlt ⊢
    obtain ⟨f, hhead, hkept, hf⟩ := hcloses.outermost (hfetch.df_eq ▸ hexec.df_prefix) hlt
    obtain ⟨hstate, hflag⟩ := hcloses.ends f hhead
    refine ⟨hkept, by rw [hstate], f, hf, hflag 0, ?_⟩
    rw [endOfDispatchTest_cd]
    exact (hcloses.rec_eq f (List.mem_of_mem_head? hhead)).symm

/-! ### User mode -/

/-- What code with `P = 0` leaves alone: the table, the gate and the reserved bits, and in the trace the ports. -/
structure UserEffect (s t : State) : Prop where
  ivt : t.ivt = s.ivt
  flag : ∀ k, 4 ≤ k → t.flag k = s.flag k
  emits : Emits UserEvent s t

theorem UserEffect.trans (h : UserEffect s t) (k : UserEffect t u) : UserEffect s u where
  ivt := k.ivt.trans h.ivt
  flag j hj := (k.flag j hj).trans (h.flag j hj)
  emits := h.emits.trans k.emits

theorem OrdinaryEffect.user (h : OrdinaryEffect s t) : UserEffect s t :=
  ⟨h.ivt_eq, fun k hk => h.flag k (.inr hk), h.emits⟩

theorem EntersHandler.user (h : EntersHandler s n a t) : UserEffect s t := by
  rw [h.next_eq]
  refine ⟨rfl, fun k hk => ?_, (callHook_emits s n.toNat).trans (.of_eq (State.callHook_events ..).symm)⟩
  have hne : k ≠ bitP := by simp only [bitP]; omega
  simp [State.flag, getLsbD_setBit _ _ _ _ (show bitP < 64 by decide), hne]

theorem ExecEffect.user (h : ExecEffect s t i) (hp : s.privileged = false) : UserEffect s t := by
  cases h with
  | ordinary h => exact h.user
  | privileged hpriv _ _ => exact absurd (hp.symm.trans hpriv) nofun
  | dispatch h => exact h.user

theorem userEffect_endOfDispatchTest : UserEffect s (endOfDispatchTest s) where
  ivt := endOfDispatchTest_ivt s
  flag k hk := endOfDispatchTest_flag s (by simp only [bitP]; omega)
  emits := .of_eq (endOfDispatchTest_events s)

theorem step_userEffect (hp : s.privileged = false) (h : step s = .next t) : UserEffect s t := by
  obtain rfl | ⟨i, v, u, -, hfetch, -, hexec, rfl⟩ := step_next_effects h
  · exact ⟨rfl, fun _ _ => rfl, .of_eq rfl⟩
  · exact (hfetch.user.trans (hexec.user (hfetch.privileged_eq.trans hp))).trans userEffect_endOfDispatchTest

/-- The two ways from `P = 0` to `P = 1` (R192). -/
theorem step_gains_privilege (hp : s.privileged = false) (h : step s = .next t) (ht : t.privileged = true) :
    (∃ n : Byte, s.handler n.toNat = some t.pc ∧ s.flag 4 = true ∧ t.df = s.df ++ [⟨false, s.cd⟩]) ∨
      t.df.length < s.df.length := by
  have hne : ∀ {x : State}, x.privileged = false → x ≠ t := by
    rintro x hx rfl
    exact nomatch hx.symm.trans ht
  obtain rfl | ⟨i, v, u, hsame, hfetch, -, hexec, rfl⟩ := step_next_effects h
  · exact absurd rfl (hne hp)
  · have hpv : v.privileged = false := hfetch.privileged_eq.trans hp
    cases hexec with
    | ordinary hord =>
      obtain ⟨kept, closed, hcloses⟩ := exists_testCloses u
      have hclosed : closed ≠ [] := fun hc => hne (hord.privileged_eq.trans hpv) (hcloses.rests hc).symm
      have hdf : s.df = kept ++ closed := by rw [← hcloses.frames, hord.df_eq, hfetch.df_eq]
      right
      rw [hcloses.df_eq, hdf, List.length_append]
      exact Nat.lt_add_of_pos_right (List.length_pos_iff.2 hclosed)
    | privileged hpriv _ _ => exact absurd (hpv.symm.trans hpriv) nofun
    | @dispatch n a hent =>
      left
      rw [hent.test_eq, hent.next_eq, hpv, hsame.same]
      refine ⟨n, ?_, ?_, rfl⟩
      · rw [State.handler, ← hfetch.ivt_eq]
        exact hent.handler
      · rw [← hfetch.flag 4 (.inr le_rfl)]
        exact hent.gate

/-! ### Halted inside a dispatch -/

theorem runToDepth_resting {d m : Nat} {r : CallResult} (hs : Resting s) (hd : d < s.df.length) :
    runToDepth d r m s = .running s := by
  induction m with
  | zero => exact runToDepth_zero hd
  | succ m ih => rw [runToDepth_next hd (microStep_halted hs.2 hs.1), ih]

end

/-- Settles O34: the meaning enters the handler, or faults as the interrupt operation does. -/
theorem interruptEntersItsHandler : Obligations.InterruptEntersItsHandler := by
  intro s n a hgate hhandler
  refine ⟨fun hroom hdepth => ?_, fun hfull => ?_, fun hroom hdepth => ?_⟩
  · have hent : EntersHandler s n a _ :=
      ⟨hgate, hhandler, stackFull_eq_false.2 hroom, fun h => hdepth (eq_maxDepth_iff.1 h), rfl⟩
    refine ⟨_, exec_int8_of_enters hent, ?_, fun k => ?_⟩
    · rw [hent.next_eq]
      rfl
    · rw [hent.next_eq]
      exact getLsbD_setBit s.cw bitP k true (by decide)
  · exact exec_int8_fault.2 ⟨hgate, ⟨a, hhandler⟩, .inl ⟨stackFull_eq_true.2 hfull, rfl⟩⟩
  · exact exec_int8_fault.2
      ⟨hgate, ⟨a, hhandler⟩, .inr ⟨stackFull_eq_false.2 hroom, eq_maxDepth_iff.2 hdepth, rfl⟩⟩

/-- Settles O35, by the gate: closed, only the advance is left; open without a handler, the hook and the wake too. -/
theorem interruptWithoutHandlerOrGate : Obligations.InterruptWithoutHandlerOrGate := by
  intro s n
  have hn : n.toNat ≤ 255 := Nat.le_of_lt_succ n.isLt
  refine ⟨fun hgate => exec_int8_next.2 (interrupt_next.2 ⟨hn, .inl ⟨hgate, rfl⟩⟩), fun hgate hnone => ?_⟩
  refine exec_int8_next.2 (interrupt_next.2 ⟨hn, .inr (.inr ⟨hgate, hnone, ?_⟩)⟩)
  rw [wake_of_noHandler, callHook_eq, State.callHook_events]
  rfl

/-- Settles O39: the outermost frame that the test closed was there before the step. -/
theorem dispatchEndRestoresPrivilege : Obligations.DispatchEndRestoresPrivilege := by
  intro s t h hlt
  obtain ⟨hdf, hhalted, f, hf, hp, hcd⟩ := step_ends_dispatch h hlt
  refine ⟨hdf, hhalted, fun g hg => ?_⟩
  obtain rfl := Option.some.inj (hf.symm.trans hg)
  exact ⟨hp, hcd⟩

/-- Settles O40: the test rests after the entry, since `CD` has counted up, and closes the one new frame after `RET`. -/
theorem returningHandlerRestoresEverything : Obligations.ReturningHandlerRestoresEverything := by
  intro s t u n a hopen hgate hhandler ht hu
  have hent : EntersHandler s n a t := entersHandler_of_exec hgate hhandler ht
  refine ⟨hent.test_eq, ?_⟩
  obtain ⟨w, hw, -, rfl⟩ := exec_ret_next.1 hu
  rw [hent.next_eq] at hw ⊢
  obtain rfl : s.pc + 2 = w := by simpa using hw
  have hcd : s.cd + 1 - 1#64 = s.cd := by bv_omega
  have hcw : setBit (setBit s.cw bitP true) bitP s.privileged = s.cw := by
    rw [setBit_setBit _ _ _ _ (by decide)]
    exact setBit_self s.cw bitP (by decide)
  rw [endOfDispatchTest_close _ ⟨s.privileged, s.cd⟩ (by simp) hcd]
  simp only [endFrame, hcd, hcw, List.dropLast_concat]
  exact endOfDispatchTest_open _ hopen

/-- Settles O41: in user mode a meaning has an ordinary effect or enters a dispatch. -/
theorem userModeCannotReachProtectedState : Obligations.UserModeCannotReachProtectedState := by
  intro s t hp h
  obtain ⟨hivt, hflag, hemits⟩ := step_userEffect hp h
  exact ⟨hivt, hflag, hemits⟩

/-- Settles O42: an ordinary effect keeps `P = 0`, so it is a dispatch that is entered or one that ends. -/
theorem privilegeIsGainedThroughDispatchOnly : Obligations.PrivilegeIsGainedThroughDispatchOnly := by
  intro s t hp h ht
  refine (step_gains_privilege hp h ht).imp_right fun hlt => ⟨hlt, fun g hg => ?_⟩
  obtain ⟨-, -, f, hf, hsaved, -⟩ := step_ends_dispatch h hlt
  obtain rfl := Option.some.inj (hf.symm.trans hg)
  exact hsaved.symm.trans ht

/-- Settles O43, by induction on the bound: a halted micro-step changes nothing. -/
theorem haltInsideADispatchNeverEnds : Obligations.HaltInsideADispatchNeverEnds :=
  fun _ _ _ _ => runToDepth_resting

end Sys2Proof.Machine

/-! The meanings of single instructions: the whole next state, and the faults. -/

namespace Sys2Proof.Machine

section
variable {s t : State} {i : Instr} {ra rb : Byte}

/-- An instruction of `PRIV_SET` in user mode (R64, R190): its own check comes first. -/
theorem exec_privilegeViolation (hi : i.isPrivileged = true) (hp : s.privileged = false) :
    exec i s = .fault (.privilegeViolation s.pc i.opcode) := by
  cases i with
  | reset | outRR | inRR | setint8_64 | setf8 | clrf8 => exact whenPrivileged_fault.2 (.inr ⟨hp, rfl⟩)
  | halt | ncall | movR64 | movRR | ld8RR | ld32RR | addRR | addR64 | subRR | subR64 | cmpRR | jmp64 | je64 | jl64
  | jg64 | call64 | ret | push64 | popR | int8 => cases hi

/-! ### Narrow loads (R96, R97, R99) -/

theorem sextBytes_one (b : Byte) : sextBytes [b] = b.signExtend 64 := by
  have h : BitVec.ofNat 8 (leValue [b]) = b := by simp [leValue]
  exact congrArg (BitVec.signExtend 64) h

/-- A byte appended is the low one (R41). -/
theorem toNat_append_byte {n : Nat} (v : BitVec n) (b : Byte) : (v ++ b).toNat = 256 * v.toNat + b.toNat := by
  rw [BitVec.toNat_append, ← Nat.shiftLeft_add_eq_or_of_lt b.isLt, Nat.shiftLeft_eq, Nat.mul_comm]

theorem sextBytes_four (b0 b1 b2 b3 : Byte) : sextBytes [b0, b1, b2, b3] = (b3 ++ b2 ++ b1 ++ b0).signExtend 64 := by
  have h : BitVec.ofNat 32 (leValue [b0, b1, b2, b3]) = b3 ++ b2 ++ b1 ++ b0 := by
    apply BitVec.eq_of_toNat_eq
    simp only [BitVec.toNat_ofNat, toNat_append_byte, leValue]
    omega
  exact congrArg (BitVec.signExtend 64) h

/-- A load of bytes in memory, from what the read answers. -/
theorem loadSigned_of_readBytes {m : Nat} {bs : List Byte} (ha : ra.toNat < s.nreg) (hb : rb.toNat < s.nreg)
    (hin : (s.reg rb.toNat).toNat + m ≤ s.cfg.memSize) (hread : readBytes m (s.reg rb.toNat).toNat s = (bs, t)) :
    loadSigned m ra rb s = .next ((t.setReg ra.toNat (sextBytes bs)).advance 3) :=
  loadSigned_next.2 ⟨ha, hb, hin, by rw [hread]⟩

/-- The bytes that a front's next `n` answers are read as (log 6). -/
def answeredBytes : Nat → State → List Byte
  | 0, _ => []
  | n + 1, s => s.answer.setWidth 8 :: answeredBytes n s.answered

theorem answeredBytes_emit (n : Nat) (e : Event) (s : State) : answeredBytes n (s.emit e) = answeredBytes n s := by
  induction n generalizing s with
  | zero => rfl
  | succ n ih => exact congrArg (s.answer.setWidth 8 :: ·) (ih s.answered)

/-- With a front the bytes are its answers, one `Get` for each address in turn (R44). -/
theorem readBytes_front (n a : Nat) (h : s.cfg.memFront = true) :
    readBytes n a s =
      (answeredBytes n s,
        { s with
          env := s.env.drop n
          envCount := s.envCount + n
          events := s.events ++ (answeredBytes n s).mapIdx (fun k b => .frontGet (a + k) b) }) := by
  induction n generalizing a s with
  | zero => simp [readBytes, answeredBytes]
  | succ n ih =>
    have hfirst : readByte a s = (s.answer.setWidth 8, s.answered.emit (.frontGet a (s.answer.setWidth 8))) := if_pos h
    have hrest : (s.answered.emit (.frontGet a (s.answer.setWidth 8))).cfg.memFront = true := h
    simp only [readBytes, hfirst, ih (a + 1) hrest, answeredBytes_emit, answeredBytes]
    simp [State.answered, State.emit, List.mapIdx_cons, Nat.add_comm, Nat.add_left_comm]

theorem jumpIf_eq (k : Nat) (a : Word) (s : State) :
    jumpIf k a s = .next { s with pc := if s.flag k then a else s.pc + 9 } := by
  unfold jumpIf
  split <;> rfl

/-! ### Calls and returns (R85-R87) -/

/-- `n + 1` returns are `n` returns and one more. -/
theorem returnTimes_succ {n : Nat} {u : State} (h : returnTimes n s = .next t) (hret : exec .ret t = .next u) :
    returnTimes (n + 1) s = .next u := by
  induction n generalizing s with
  | zero =>
    cases h
    rw [returnTimes, hret]
    rfl
  | succ n ih =>
    rw [returnTimes] at h ⊢
    cases hs : exec .ret s with
    | next v =>
      rw [hs] at h
      exact ih h
    | fault f => simp [hs] at h
    | refused r => simp [hs] at h

theorem callEach_cons {a : Word} {rest : List Word} :
    callEach (a :: rest) s = .next t ↔ ∃ u, exec (.call64 a) s = .next u ∧ callEach rest u = .next t := by
  rw [callEach]
  cases exec (.call64 a) s <;> simp

/-- Once the calls inside have returned, wherever the pc is, one more return undoes the call itself. -/
theorem exec_ret_after_call {a : Word} (p : Word) (h : exec (.call64 a) s = .next t) :
    exec .ret { t with pc := p } = .next { s with pc := s.pc + 9 } := by
  obtain ⟨-, hdepth, rfl⟩ := exec_call64_next.1 h
  have hne : s.cd + 1#64 ≠ 0#64 := by
    intro h0
    refine hdepth (eq_maxDepth_iff.2 ?_)
    bv_omega
  have hcd : s.cd + 1#64 - 1#64 = s.cd := by bv_omega
  refine exec_ret_next.2 ⟨s.pc + 9#64, by simp, hne, ?_⟩
  simp only [List.dropLast_concat, hcd]
  rfl

/-- As many returns as calls restore the state, the pc after the first call; without calls nothing happens. -/
theorem returnTimes_callEach {targets : List Word} (h : callEach targets s = .next t) :
    t.cd = s.cd + BitVec.ofNat 64 targets.length ∧
      returnTimes targets.length t = .next { s with pc := if targets = [] then s.pc else s.pc + 9 } := by
  induction targets generalizing s with
  | nil =>
    cases h
    exact ⟨(BitVec.add_zero _).symm, rfl⟩
  | cons a rest ih =>
    obtain ⟨u, hcall, hrest⟩ := callEach_cons.1 h
    obtain ⟨hcd, hreturn⟩ := ih hrest
    have hu : u.cd = s.cd + 1#64 := by
      obtain ⟨-, -, rfl⟩ := exec_call64_next.1 hcall
      rfl
    refine ⟨?_, returnTimes_succ hreturn (exec_ret_after_call _ hcall)⟩
    rw [hcd, hu, List.length_cons, BitVec.add_assoc, Nat.add_comm, BitVec.ofNat_add]

/-! ### The stack block (R22) -/

theorem stackPeek_of_stk {below above : List Word} {w : Word} (h : s.stk = below ++ w :: above) :
    stackPeek above.length s = .ok w := by
  simp [stackPeek, h]

theorem stackPeek_underflow {off : Nat} (h : s.stk.length ≤ off) :
    stackPeek off s = .error (.stackUnderflow s.pc off) := by
  have hnone : s.stk.reverse[off]? = none := List.getElem?_eq_none (by simpa using h)
  simp [stackPeek, hnone]

theorem stackPopAt_of_stk {below above : List Word} {w : Word} (h : s.stk = below ++ w :: above) :
    stackPopAt above.length s = .ok (w, { s with stk := below ++ above }) := by
  have hpos : s.stk.length - 1 - above.length = below.length := by
    simp only [h, List.length_append, List.length_cons]
    omega
  have herase : s.stk.eraseIdx below.length = below ++ above := by
    rw [h, List.eraseIdx_append_of_length_le le_rfl, Nat.sub_self]
    rfl
  simp [stackPopAt, stackPeek_of_stk h, hpos, herase]

theorem stackPopAt_underflow {off : Nat} (h : s.stk.length ≤ off) :
    stackPopAt off s = .error (.stackUnderflow s.pc off) := by
  simp [stackPopAt, stackPeek_underflow h]

theorem stackPopTyped_of_stk {below : List Word} {w : Word} (h : s.stk = below ++ [w]) (sgn : Bool) (n : Nat) :
    stackPopTyped sgn n s = .ok (coerceWord sgn n w, { s with stk := below }) := by
  have hpop : stackPopAt 0 s = .ok (w, { s with stk := below }) := by
    simpa using stackPopAt_of_stk (above := []) h
  simp [stackPopTyped, hpop]

theorem coerceWord_unsigned (n : Nat) (w : Word) : coerceWord false n w = BitVec.ofNat 64 (w.toNat % 2 ^ n) := by
  apply BitVec.eq_of_toNat_eq
  simp [coerceWord]

theorem coerceWord_signed {n : Nat} (hn : n ≤ 64) (w : Word) :
    (coerceWord true n w).toInt = (w.toNat : Int).bmod (2 ^ n) := by
  simp [coerceWord, BitVec.toInt_signExtend, hn]

end

/-- A machine whose step changes nothing runs in place. -/
theorem core_run_of_step_self {M : Host.Core} {s : M.State} (h : M.step s = .next s) (n : Nat) :
    M.run n s = .next s := by
  induction n with
  | zero => rfl
  | succ n ih =>
    rw [Host.Core.run, h]
    exact ih

/-! ### The obligations -/

/-- Settles O11: a resting engine's micro-step answers its own state, so a run of them stays there. -/
theorem haltedMicroStepIsNoOp : Obligations.HaltedMicroStepIsNoOp := fun _ ⟨hhalted, hfault⟩ =>
  have hm := microStep_halted hfault hhalted
  ⟨hm, core_run_of_step_self (M := Sys2Proof.core) (step_of_microStep hm)⟩

/-- Settles O18: the moves' inversion lemmas, read from the state to the meaning. -/
theorem movesWriteTheFirstRegister : Obligations.MovesWriteTheFirstRegister := fun _ _ _ _ ha =>
  ⟨exec_movR64_next.2 ⟨ha, rfl⟩, fun hb => exec_movRR_next.2 ⟨ha, hb, rfl⟩⟩

/-- Settles O19: the word sum and difference are the exact ones modulo 2^64. -/
theorem addAndSubtractWrap : Obligations.AddAndSubtractWrap := fun _ _ _ _ ha =>
  ⟨⟨_, exec_addR64_next.2 ⟨ha, rfl⟩, BitVec.toInt_add ..⟩, ⟨_, exec_subR64_next.2 ⟨ha, rfl⟩, BitVec.toInt_sub ..⟩,
    fun hb => ⟨⟨_, exec_addRR_next.2 ⟨ha, hb, rfl⟩, BitVec.toInt_add ..⟩,
      ⟨_, exec_subRR_next.2 ⟨ha, hb, rfl⟩, BitVec.toInt_sub ..⟩⟩⟩

/-- Settles O20: the bits after Compare, and the trichotomy of the exact comparison. -/
theorem compareSetsExactlyOneFlag : Obligations.CompareSetsExactlyOneFlag := by
  intro s ra rb ha hb
  have hflag : ∀ k, _ := getLsbD_compareFlags s.cw (s.reg ra.toNat) (s.reg rb.toNat)
  refine ⟨_, exec_cmpRR_next.2 ⟨ha, hb, rfl⟩, rfl, hflag 1, hflag 2, hflag 3, ?_, fun k h1 h2 h3 => ?_⟩
  · have htri := lt_trichotomy (s.reg ra.toNat).toInt (s.reg rb.toNat).toInt
    simp only [State.flag, State.advance_cw, hflag]
    rcases htri with h | h | h
    · simp [bitEQ, bitLT, bitGT, h, h.ne, h.not_gt]
    · simp [bitEQ, bitLT, bitGT, h]
    · simp [bitEQ, bitLT, bitGT, h, h.ne', h.not_gt]
  · simp [State.flag, hflag, bitEQ, bitLT, bitGT, h1, h2, h3]

/-- Settles O21: without a front the read is memory's bytes. -/
theorem narrowLoadsSignExtend : Obligations.NarrowLoadsSignExtend := by
  rintro s ra rb _ hfront ha hb rfl
  refine ⟨fun hin => ?_, fun hin => ?_, fun hout => (loadSigned_fault ha hb).2 ⟨hout, rfl⟩,
    fun hout => (loadSigned_fault ha hb).2 ⟨hout, rfl⟩⟩
  · rw [← sextBytes_one]
    exact loadSigned_of_readBytes ha hb hin (readBytes_noFront _ _ _ hfront)
  · rw [← sextBytes_four]
    exact loadSigned_of_readBytes ha hb hin (readBytes_noFront _ _ _ hfront)

/-- Settles O22: with a front each byte is the low byte of one answer, in the order of the addresses. -/
theorem frontedLoadsTakeTheAnswers : Obligations.FrontedLoadsTakeTheAnswers := by
  rintro s ra rb _ hfront ha hb rfl
  refine ⟨fun hin => ?_, ?_, fun hout => (loadSigned_fault ha hb).2 ⟨hout, rfl⟩,
    fun hout => (loadSigned_fault ha hb).2 ⟨hout, rfl⟩⟩
  · rw [← sextBytes_one, ← List.drop_one]
    exact loadSigned_of_readBytes ha hb hin (readBytes_front _ _ hfront)
  · rintro _ _ _ _ hin rfl rfl rfl rfl
    rw [← sextBytes_four]
    exact loadSigned_of_readBytes ha hb hin (readBytes_front _ _ hfront)

/-- Settles O23, by the flag. -/
theorem jumpsTestTheirFlag : Obligations.JumpsTestTheirFlag := fun s a =>
  ⟨rfl, jumpIf_eq 1 a s, jumpIf_eq 2 a s, jumpIf_eq 3 a s⟩

/-- Settles O24, by the two checks in order: the stack's room, then the counter's. -/
theorem callPushesTheReturnAddress : Obligations.CallPushesTheReturnAddress := fun _ _ =>
  ⟨fun hroom hdepth => exec_call64_next.2 ⟨stackFull_eq_false.2 hroom, fun h => hdepth (eq_maxDepth_iff.1 h), rfl⟩,
    fun hfull => exec_call64_fault.2 (.inl ⟨stackFull_eq_true.2 hfull, rfl⟩),
    fun hroom hdepth => exec_call64_fault.2 (.inr ⟨stackFull_eq_false.2 hroom, eq_maxDepth_iff.2 hdepth, rfl⟩)⟩

/-- Settles O25, by the two checks in order: the stack, then the counter. -/
theorem returnPopsItsTarget : Obligations.ReturnPopsItsTarget := by
  intro s
  refine ⟨fun below w hstk hcd => exec_ret_next.2 ⟨w, by simp [hstk], hcd, by simp [hstk]⟩,
    fun hempty => exec_ret_fault.2 (.inl ⟨hempty, rfl⟩), fun hne hcd => exec_ret_fault.2 (.inr ⟨hne, hcd, rfl⟩)⟩

/-- Settles O26, by induction on the calls: the last return undoes the first call. -/
theorem nestedCallsAndReturnsBalance : Obligations.NestedCallsAndReturnsBalance := by
  intro targets s t hne h
  simpa [hne] using returnTimes_callEach h

/-- Settles O27: room or a word on the stack decides between the next state and the fault. -/
theorem pushAndPopMoveTheTop : Obligations.PushAndPopMoveTheTop := fun _ _ _ =>
  ⟨fun hroom => exec_push64_next.2 ⟨stackFull_eq_false.2 hroom, rfl⟩,
    fun hfull => exec_push64_fault.2 ⟨stackFull_eq_true.2 hfull, rfl⟩,
    fun below w ha hstk => exec_popR_next.2 ⟨ha, w, by simp [hstk], by simp [hstk]; rfl⟩,
    fun ha hempty => (exec_popR_fault ha).2 ⟨hempty, rfl⟩⟩

/-- Settles O28, each operation by the position of its word from the bottom. -/
theorem stackBlockOperations : Obligations.StackBlockOperations := by
  intro s below above w
  refine ⟨fun h => ⟨stackPeek_of_stk h, stackPopAt_of_stk h⟩, fun h n => ⟨?_, ?_⟩, fun h => ?_,
    fun n hn => ⟨stackPeek_underflow hn, stackPopAt_underflow hn⟩, fun n hn => ?_, fun h sgn n => ?_⟩
  · rw [stackPopTyped_of_stk h, coerceWord_unsigned]
  · exact ⟨_, stackPopTyped_of_stk h true n, fun _ hn => coerceWord_signed hn w⟩
  · simp [stackSetCount, h]
  · simp [stackSetCount, hn]
  · simp [stackPopTyped, stackPopAt_underflow (s := s) (off := 0) (by simp [h])]

/-- Settles O29: a registered port gets the write, an unregistered one is passed over. -/
theorem portWritesReachRegisteredPorts : Obligations.PortWritesReachRegisteredPorts := by
  refine fun s ra rb => ⟨fun hp ha hb => ⟨fun hport => ?_, fun hport => ?_⟩, exec_privilegeViolation rfl⟩
  · exact exec_outRR_next.2 ⟨hp, ha, hb, by simp [State.portRegistered, hport]; rfl⟩
  · exact exec_outRR_next.2 ⟨hp, ha, hb, by simp [State.portRegistered, hport]; rfl⟩

/-- Settles O30, by the environment's answers, and 0 from an unregistered port. -/
theorem portReadsTakeTheAnswer : Obligations.PortReadsTakeTheAnswer := by
  refine fun s ra rb => ⟨fun hp ha hb =>
    ⟨fun w more hport henv => ?_, fun hport henv => ⟨s.answer, ?_⟩, fun hport => ?_⟩, exec_privilegeViolation rfl⟩
  · have hw : s.answer = w := by simp [State.answer, henv]
    have hmore : s.env.tail = more := by simp [henv]
    exact exec_inRR_next.2 ⟨hp, ha, hb, by simp [State.portRegistered, hport, ← hw, ← hmore]; rfl⟩
  · have hmore : s.env.tail = s.env := by simp [henv]
    refine exec_inRR_next.2 ⟨hp, ha, hb, ?_⟩
    rw [if_pos (by simpa [State.portRegistered] using hport), State.answered, hmore]
    rfl
  · exact exec_inRR_next.2 ⟨hp, ha, hb, by simp [State.portRegistered, hport]; rfl⟩

/-- Settles O31: the meaning makes no check. -/
theorem haltStopsAtTheNextInstruction : Obligations.HaltStopsAtTheNextInstruction := fun _ => exec_halt_next.2 rfl

/-- Settles O32, by `P`. -/
theorem resetRebuildsTheEngine : Obligations.ResetRebuildsTheEngine := fun _ =>
  ⟨fun hp => exec_reset_next.2 ⟨hp, rfl⟩, exec_privilegeViolation rfl⟩

/-- Settles O36: the table is read after one write. -/
theorem setIntRegistersOneHandler : Obligations.SetIntRegistersOneHandler := fun s n a =>
  ⟨fun hp => ⟨_, exec_setint8_64_next.2 ⟨hp, rfl⟩, rfl, fun m => mapLookup_insert s.ivt n.toNat m a⟩,
    exec_privilegeViolation rfl⟩

/-- Settles O37, by the checks in order: `P`, then the index. -/
theorem flagInstructionsWriteOneBit : Obligations.FlagInstructionsWriteOneBit := by
  intro s k
  refine ⟨fun hp hk => ?_, fun hp hk => ?_, fun hp => ⟨exec_privilegeViolation rfl hp, exec_privilegeViolation rfl hp⟩⟩
  · have hbit : k.toNat < 64 := by omega
    exact ⟨⟨_, exec_setf8_next.2 ⟨hp, hk, rfl⟩, rfl, fun j => State.flag_setFlag s k.toNat j true hbit⟩,
      ⟨_, exec_clrf8_next.2 ⟨hp, hk, rfl⟩, rfl, fun j => State.flag_setFlag s k.toNat j false hbit⟩⟩
  · exact ⟨whenPrivileged_fault.2 (.inl ⟨hp, withFlag_fault.2 (.inr ⟨hk, rfl⟩)⟩),
      whenPrivileged_fault.2 (.inl ⟨hp, withFlag_fault.2 (.inr ⟨hk, rfl⟩)⟩)⟩

end Sys2Proof.Machine

/-! The fetch of a whole instruction (R60-R64): an instruction whose encoding the reads answer is fetched, with the pc
past it, and the step runs it. -/

namespace Sys2Proof

open Laws.EncodedLength in
/-- The encoding of every instruction is as long as the format of its row says (R68). -/
theorem encodedLength : ∀ i : Instr, Statement i
  | .halt => halt | .reset => reset | .ncall => ncall | .movR64 a v => movR64 a v | .movRR a b => movRR a b
  | .ld8RR a b => ld8RR a b | .ld32RR a b => ld32RR a b | .addRR a b => addRR a b | .addR64 a v => addR64 a v
  | .subRR a b => subRR a b | .subR64 a v => subR64 a v | .cmpRR a b => cmpRR a b | .jmp64 a => jmp64 a
  | .je64 a => je64 a | .jl64 a => jl64 a | .jg64 a => jg64 a | .call64 a => call64 a | .ret => ret
  | .push64 v => push64 v | .popR a => popR a | .outRR a b => outRR a b | .inRR a b => inRR a b | .int8 n => int8 n
  | .setint8_64 n a => setint8_64 n a | .setf8 k => setf8 k | .clrf8 k => clrf8 k

theorem exists_rowOf_opcode (i : Instr) : ∃ row, rowOf i.opcode = some row ∧ row.format.length = i.length :=
  Option.map_eq_some_iff.1 (encodedLength i)

theorem Format.items_pos (f : Format) : ∀ n ∈ f.items, 0 < n := by
  cases f <;> simp [Format.items]

end Sys2Proof

namespace Sys2Proof.Machine

section
variable {s t u : State} {i : Instr} {pc0 : Word}

/-! ### Reads one after the other -/

theorem readBytes_add (m n a : Nat) (s : State) :
    readBytes (m + n) a s =
      ((readBytes m a s).1 ++ (readBytes n (a + m) (readBytes m a s).2).1,
        (readBytes n (a + m) (readBytes m a s).2).2) := by
  induction m generalizing a s with
  | zero => simp [readBytes]
  | succ m ih =>
    have haddr : a + 1 + m = a + (m + 1) := by omega
    simp only [Nat.succ_add, readBytes, ih, haddr, List.cons_append]

/-- Where the pc stands does not matter to a read. -/
theorem readBytes_advance (k n a : Nat) (s : State) :
    readBytes n a (s.advance k) = ((readBytes n a s).1, (readBytes n a s).2.advance k) := by
  induction n generalizing a s with
  | zero => rfl
  | succ n ih =>
    have hbyte : readByte a (s.advance k) = ((readByte a s).1, (readByte a s).2.advance k) := by
      unfold readByte
      rw [State.advance_cfg]
      split <;> rfl
    simp only [readBytes, hbyte, ih]

/-- The bytes that a fetch of `n` bytes answers. -/
def State.fetchedBytes (s : State) (n : Nat) : List Byte := (readBytes n s.pc.toNat s).1

theorem State.fetched_zero : s.fetched 0 = s := by
  simp [State.fetched, readBytes, State.advance]

theorem State.fetched_add {m : Nat} (n : Nat) (h : s.pc.toNat + m < 2 ^ 64) :
    s.fetched (m + n) = (s.fetched m).fetched n := by
  have hpc : (s.fetched m).pc.toNat = s.pc.toNat + m := State.fetched_pc_toNat h
  rw [State.fetched, readBytes_add, State.fetched, hpc, State.fetched, readBytes_advance]
  simp [State.advance, BitVec.ofNat_add, BitVec.add_assoc, (readBytes_same ..).pc_eq]

theorem State.fetchedBytes_add {m : Nat} (n : Nat) (h : s.pc.toNat + m < 2 ^ 64) :
    s.fetchedBytes (m + n) = s.fetchedBytes m ++ (s.fetched m).fetchedBytes n := by
  have hpc : (s.fetched m).pc.toNat = s.pc.toNat + m := State.fetched_pc_toNat h
  rw [State.fetchedBytes, readBytes_add, State.fetchedBytes, State.fetchedBytes, hpc, State.fetched, readBytes_advance]

/-- Items that lie in memory are fetched like one item (R62). -/
theorem fetchItems_inMemory {ns : List Nat} (hpos : ∀ n ∈ ns, 0 < n) (hsize : s.cfg.memSize ≤ 2 ^ 64)
    (hin : s.pc.toNat + ns.sum ≤ s.cfg.memSize) :
    fetchItems pc0 ns s = .ok (s.fetchedBytes ns.sum, s.fetched ns.sum) := by
  induction ns generalizing s with
  | nil => rw [List.sum_nil, State.fetched_zero]; rfl
  | cons n ns ih =>
    rw [List.sum_cons] at hin ⊢
    have hfirst : fetchBytes pc0 n s = .ok (s.fetchedBytes n, s.fetched n) := fetchBytes_inMemory (by omega)
    by_cases hns : ns = []
    · subst hns
      simp [fetchItems, hfirst]
    · have hsum : 0 < ns.sum := List.sum_pos ns (fun m hm => hpos m (List.mem_cons_of_mem n hm)) hns
      have hpc : s.pc.toNat + n < 2 ^ 64 := by omega
      have hpc' : (s.fetched n).pc.toNat = s.pc.toNat + n := State.fetched_pc_toNat hpc
      have hrest := ih (s := s.fetched n) (fun m hm => hpos m (List.mem_cons_of_mem n hm))
        (by rwa [State.fetched_cfg]) (by rw [State.fetched_cfg]; omega)
      simp [fetchItems, hfirst, hrest, State.fetched_add _ hpc, State.fetchedBytes_add _ hpc]

/-! ### The instruction -/

/-- When the opcode byte and the items of its row are answered as an encoding, that instruction is fetched. -/
theorem fetchInstr_of_items {row : OpRow} (hrow : rowOf i.opcode = some row)
    (hpriv : i.isPrivileged = true → s.privileged = true)
    (h : fetchItems s.pc (1 :: row.format.items) s = .ok (encode i, t)) : fetchInstr s = .ok (i, t) := by
  unfold fetchItems at h
  split at h
  · cases h
  · next b s1 hfirst =>
    split at h
    · cases h
    · next bs s2 hitems =>
      obtain ⟨hin, rfl, rfl⟩ := fetchBytes_ok.1 hfirst
      simp only [Except.ok.injEq, Prod.mk.injEq] at h
      obtain ⟨hbytes, rfl⟩ := h
      have hop : (readByte s.pc.toNat s).1 = i.opcode := (List.cons.inj hbytes).1
      have hoperands : bs = i.operandBytes := (List.cons.inj hbytes).2
      have hp : row.privileged = true → s.privileged = true := by simpa [Instr.isPrivileged, hrow] using hpriv
      have hcheck : (row.privileged && !s.privileged) = false := by simpa using hp
      have hdecode : decode (i.opcode :: i.operandBytes) = .ok (i, []) := by
        simpa [encode] using decode_encode i []
      rw [fetchInstr_of_row hin (hop ▸ hrow), hcheck, hop]
      subst hoperands
      have hitems' : fetchItems s.pc row.format.items (s.fetched 1) = .ok (i.operandBytes, s2) := hitems
      simp [fetchOperands, hitems', hdecode]

theorem fetchInstr_of_fetchedBytes (hsize : s.cfg.memSize ≤ 2 ^ 64) (hin : s.pc.toNat + i.length ≤ s.cfg.memSize)
    (hpriv : i.isPrivileged = true → s.privileged = true) (h : s.fetchedBytes i.length = encode i) :
    fetchInstr s = .ok (i, s.fetched i.length) := by
  obtain ⟨row, hrow, hlen⟩ := exists_rowOf_opcode i
  have hsum : (1 :: row.format.items).sum = i.length := hlen
  have hpos : ∀ n ∈ 1 :: row.format.items, 0 < n := by simpa using row.format.items_pos
  refine fetchInstr_of_items hrow hpriv ?_
  rw [fetchItems_inMemory hpos hsize (by rwa [hsum]), hsum, h]

theorem step_of_fetchInstr (hs : Running s) (h : fetchInstr s = .ok (i, t)) :
    step s = dropResult (finishMicroStep i.opcode (exec i (t.jump s.pc))) := by
  obtain ⟨hfault, hhalted⟩ := hs
  simp [step, microStep, hfault, hhalted, h]

/-- An instruction whose encoding the fetch answers runs at the state that the reads left (R64). -/
theorem step_of_fetchedBytes (hs : Running s) (hsize : s.cfg.memSize ≤ 2 ^ 64)
    (hin : s.pc.toNat + i.length ≤ s.cfg.memSize) (hpriv : i.isPrivileged = true → s.privileged = true)
    (hread : readBytes i.length s.pc.toNat s = (encode i, u)) :
    step s = dropResult (finishMicroStep i.opcode (exec i u)) := by
  have hu : (s.fetched i.length).jump s.pc = u := by
    have hpc : u.pc = s.pc := by simpa [hread] using (readBytes_same i.length s.pc.toNat s).pc_eq
    rw [State.fetched, hread, ← hpc]
    rfl
  have hfetch : fetchInstr s = .ok (i, s.fetched i.length) :=
    fetchInstr_of_fetchedBytes hsize hin hpriv (by rw [State.fetchedBytes, hread])
  rw [step_of_fetchInstr hs hfetch, hu]

/-- The bytes from `a` up begin with those of a shorter read. -/
theorem take_bytesAt {a m n : Nat} (h : m ≤ n) : (bytesAt s a n).take m = bytesAt s a m := by
  rw [bytesAt, ← List.map_take, List.take_range, Nat.min_eq_left h]
  rfl

theorem answeredBytes_of_env {answers more : List Word} (h : s.env = answers ++ more) :
    answeredBytes answers.length s = answers.map (BitVec.setWidth 8) := by
  induction answers generalizing s with
  | nil => rfl
  | cons w ws ih =>
    have hw : s.answer = w := by simp [State.answer, h]
    have hrest := ih (s := s.answered) (by simp [h])
    rw [List.length_cons, answeredBytes, hw, hrest, List.map_cons]

/-! ### Where the pc ends -/

theorem fetchBytes_pc {n : Nat} {bs : List Byte} (h : fetchBytes pc0 n s = .ok (bs, t)) :
    t.pc = s.pc + BitVec.ofNat 64 n := by
  obtain ⟨-, -, rfl⟩ := fetchBytes_ok.1 h
  rw [State.advance_pc, (readBytes_same ..).pc_eq]

theorem fetchItems_pc {ns : List Nat} {bs : List Byte} (h : fetchItems pc0 ns s = .ok (bs, t)) :
    t.pc = s.pc + BitVec.ofNat 64 ns.sum := by
  induction ns generalizing s bs with
  | nil =>
    cases h
    exact (BitVec.add_zero _).symm
  | cons n ns ih =>
    unfold fetchItems at h
    split at h
    · cases h
    · next hfirst =>
      split at h
      · cases h
      · next hrest =>
        cases h
        rw [ih hrest, fetchBytes_pc hfirst, List.sum_cons, BitVec.ofNat_add, BitVec.add_assoc]

theorem fetchInstr_pc (h : fetchInstr s = .ok (i, t)) : t.pc = s.pc + BitVec.ofNat 64 i.length := by
  obtain ⟨row, bs, rest, s1, hopcode, hrow, -, hitems, hdecode⟩ := fetchInstr_parts h
  have hop : row.opcode = i.opcode := (List.cons.inj (eq_encode_of_decode hdecode)).1
  rw [← opcode_of_rowOf hrow, hop] at hrow
  obtain ⟨row', hrow', hlen⟩ := exists_rowOf_opcode i
  obtain rfl := Option.some.inj (hrow.symm.trans hrow')
  rw [fetchItems_pc hitems, fetchBytes_pc hopcode, ← hlen, Format.length, BitVec.ofNat_add, BitVec.add_assoc]

theorem loadSigned_pc {m : Nat} {ra rb : Byte} (h : loadSigned m ra rb s = .next t) : t.pc = s.pc + 3#64 := by
  obtain ⟨-, -, -, rfl⟩ := loadSigned_next.1 h
  rw [State.advance_pc, State.setReg_pc, (readBytes_same ..).pc_eq]

/-- The meanings that make the whole advance themselves (log 13). -/
theorem exec_pc (hi : canTransfer i = false) (h : exec i s = .next t) : t.pc = s.pc + BitVec.ofNat 64 i.length := by
  cases i with
  | jmp64 | je64 | jl64 | jg64 | call64 | ret | reset | int8 => cases hi
  | halt =>
    obtain rfl := exec_halt_next.1 h
    rfl
  | ncall => exact absurd h exec_ncall_next
  | movR64 =>
    obtain ⟨-, rfl⟩ := exec_movR64_next.1 h
    rfl
  | movRR =>
    obtain ⟨-, -, rfl⟩ := exec_movRR_next.1 h
    rfl
  | ld8RR => exact loadSigned_pc (exec_ld8RR_next.1 h)
  | ld32RR => exact loadSigned_pc (exec_ld32RR_next.1 h)
  | addRR =>
    obtain ⟨-, -, rfl⟩ := exec_addRR_next.1 h
    rfl
  | addR64 =>
    obtain ⟨-, rfl⟩ := exec_addR64_next.1 h
    rfl
  | subRR =>
    obtain ⟨-, -, rfl⟩ := exec_subRR_next.1 h
    rfl
  | subR64 =>
    obtain ⟨-, rfl⟩ := exec_subR64_next.1 h
    rfl
  | cmpRR =>
    obtain ⟨-, -, rfl⟩ := exec_cmpRR_next.1 h
    rfl
  | push64 =>
    obtain ⟨-, rfl⟩ := exec_push64_next.1 h
    rfl
  | popR =>
    obtain ⟨-, w, -, rfl⟩ := exec_popR_next.1 h
    rfl
  | outRR =>
    obtain ⟨-, -, -, rfl⟩ := exec_outRR_next.1 h
    split <;> rfl
  | inRR =>
    obtain ⟨-, -, -, rfl⟩ := exec_inRR_next.1 h
    split <;> rfl
  | setint8_64 =>
    obtain ⟨-, rfl⟩ := exec_setint8_64_next.1 h
    rfl
  | setf8 =>
    obtain ⟨-, -, rfl⟩ := exec_setf8_next.1 h
    rfl
  | clrf8 =>
    obtain ⟨-, -, rfl⟩ := exec_clrf8_next.1 h
    rfl

end

/-- Settles O6: without a front the fetch answers memory's bytes, which begin with the encoding, and changes nothing. -/
theorem stepRunsTheDecodedInstruction : Obligations.StepRunsTheDecodedInstruction := by
  intro s i n rest hs hfront hsize hpriv hdecode hin
  have hbytes : bytesAt s s.pc.toNat n = encode i ++ rest := eq_encode_of_decode hdecode
  have hle : i.length ≤ n := by
    have hlen := congrArg List.length hbytes
    rw [List.length_append, bytesAt, List.length_map, List.length_range] at hlen
    exact hlen ▸ Nat.le_add_right ..
  have hread : readBytes i.length s.pc.toNat s = (encode i, s) := by
    have hencode : bytesAt s s.pc.toNat i.length = encode i := by
      rw [← take_bytesAt hle, hbytes]
      exact List.take_left' rfl
    rw [readBytes_noFront _ _ _ hfront, ← hencode]
    rfl
  rw [step_of_fetchedBytes hs hsize hin hpriv hread]
  cases exec i s <;> rfl

/-- Settles O7: with a front the fetch answers the low bytes of the ready answers, and takes them. -/
theorem frontedStepRunsTheAnsweredInstruction : Obligations.FrontedStepRunsTheAnsweredInstruction := by
  rintro s i answers more hs hfront hsize hpriv henv hanswers hin u rfl
  have hlen : answers.length = i.length := by simpa [Instr.length] using congrArg List.length hanswers
  have hbytes : answeredBytes i.length s = encode i := by rw [← hlen, answeredBytes_of_env henv, hanswers]
  have hmore : s.env.drop i.length = more := by rw [henv, ← hlen, List.drop_left]
  have hread := readBytes_front i.length s.pc.toNat hfront
  rw [hbytes, hmore] at hread
  rw [step_of_fetchedBytes hs hsize hin hpriv hread]
  split <;> next hexec => rw [hexec]; rfl

/-- Settles O10: the fetch by the items of the row, each meaning by its own advance. -/
theorem pcAdvancesByTheLength : Obligations.PcAdvancesByTheLength :=
  ⟨fun _ _ _ => fetchInstr_pc, fun _ _ _ => exec_pc⟩

end Sys2Proof.Machine

/-! The host's calls (R175, R185, R200-R203): an interrupt on a halted engine, Reset, memory reads and writes, the
loader and the string read. -/

namespace Sys2Proof.Machine

section
variable {s t u : State} {a n v : Nat} {pc0 : Word} {bs : List Byte}

/-! ### Interrupt (R170, R175) -/

theorem hostInterrupt_of_next {k : Nat} (hf : s.fault = none) (hdf : s.df = []) (h : interrupt s.pc k s = .next t) :
    hostInterrupt n k s = runToDepth 0 .unit n t := by
  simp [hostInterrupt, hf, hdf, h]

theorem interrupt_of_handler {k : Nat} {a : Word} (hk : k ≤ 255) (hgate : s.interruptsEnabled = true)
    (hhandler : s.handler k = some a) (hroom : s.stackFull = false) (hdepth : s.cd ≠ maxDepth) :
    interrupt pc0 k s =
      .next { s with
        cw := setBit s.cw bitP true
        events := if s.hook then s.events ++ [.hook k] else s.events
        stk := s.stk ++ [s.pc]
        cd := s.cd + 1#64
        df := s.df ++ [⟨s.privileged, s.cd⟩]
        pc := a } :=
  interrupt_next.2 ⟨hk, .inr (.inl ⟨hgate, a, hhandler, hroom, hdepth, (enterHandler_eq ..).symm⟩)⟩

theorem interrupt_of_noHandler {k : Nat} (hk : k ≤ 255) (hgate : s.interruptsEnabled = true)
    (hhandler : s.handler k = none) :
    interrupt pc0 k s =
      .next { s with halted := false, events := if s.hook then s.events ++ [.hook k] else s.events } := by
  refine interrupt_next.2 ⟨hk, .inr (.inr ⟨hgate, hhandler, ?_⟩)⟩
  rw [wake_of_noHandler, callHook_eq, State.callHook_events]

/-! ### Memory (R41, R42) -/

/-- Without a front a read that lies in memory answers its bytes and changes nothing. -/
theorem memRead_noFront (hfront : NoFront s) (hin : a + n ≤ s.cfg.memSize) :
    memRead pc0 a n s = .ok (bytesAt s a n, s) :=
  memRead_ok.2 ⟨hin, readBytes_noFront n a s hfront⟩

theorem leBytes_getElem? (n v k : Nat) (hk : k < n) : (leBytes n v)[k]? = some (BitVec.ofNat 8 (v / 256 ^ k)) := by
  induction n generalizing v k with
  | zero => omega
  | succ n ih =>
    cases k with
    | zero => simp [leBytes]
    | succ k =>
      rw [leBytes, List.getElem?_cons_succ, ih _ _ (by omega), Nat.div_div_eq_div_mul, Nat.pow_succ']

/-- Bytes written read back at their place. -/
theorem map_read_writeBytes (m : Memory) (a : Nat) (bs : List Byte) :
    (List.range bs.length).map (fun k => (m.writeBytes a bs).read (a + k)) = bs := by
  apply List.ext_getElem (by simp)
  intro k _ hk
  simp [Memory.read_writeBytes, hk]

theorem read_writeBytes_outside (m : Memory) (bs : List Byte) {b : Nat} (h : b < a ∨ a + bs.length ≤ b) :
    (m.writeBytes a bs).read b = m.read b := by
  rw [Memory.read_writeBytes]
  split
  · rw [List.getElem?_eq_none (by omega), Option.getD_none]
  · rfl

theorem memWrite_noFront (hfront : NoFront s) :
    memWrite a n v s = .ok t ↔ a + n ≤ s.cfg.memSize ∧ t = { s with mem := s.mem.writeBytes a (leBytes n v) } := by
  rw [memWrite_ok, if_neg (by simp [hfront])]

theorem hostMemRead_after_memWrite (hfront : NoFront s) (h : memWrite a n v s = .ok t) :
    hostMemRead a n t = .ok (v % 256 ^ n, t) := by
  obtain ⟨hin, rfl⟩ := (memWrite_noFront hfront).1 h
  have hbytes := map_read_writeBytes s.mem a (leBytes n v)
  rw [leBytes_length] at hbytes
  have hread := readBytes_noFront n a { s with mem := s.mem.writeBytes a (leBytes n v) } hfront
  rw [hbytes] at hread
  exact hostMemRead_ok.2 ⟨hin, by rw [hread, leValue_leBytes], by rw [hread]⟩

/-! ### The loader (R57, R203) -/

theorem loadBytes_inMemory (hfront : NoFront s) (hin : a + bs.length ≤ s.cfg.memSize) :
    loadBytes a bs s = .ok { s with mem := s.mem.writeBytes a bs } := by
  induction bs generalizing a s with
  | nil => rfl
  | cons b bs ih =>
    rw [List.length_cons] at hin
    have hone : leBytes 1 b.toNat = [b] := by simp [leBytes]
    have hwrite : memWrite a 1 b.toNat s = .ok { s with mem := s.mem.write a b } :=
      (memWrite_noFront hfront).2 ⟨by omega, by rw [hone]; rfl⟩
    have hrest := ih (s := { s with mem := s.mem.write a b }) (a := a + 1) hfront (by simp only; omega)
    rw [loadBytes, hwrite]
    exact hrest

/-- The loader writes byte by byte, so it is the first address outside memory that it reports (log 16). -/
theorem loadBytes_outside (hfront : NoFront s) (ha : a ≤ s.cfg.memSize) (hout : s.cfg.memSize < a + bs.length) :
    loadBytes a bs s = .error (.memoryOutOfRange s.pc s.cfg.memSize) := by
  induction bs generalizing a s with
  | nil =>
    rw [List.length_nil] at hout
    omega
  | cons b bs ih =>
    rw [List.length_cons] at hout
    rw [loadBytes]
    obtain rfl | hlt := Nat.eq_or_lt_of_le ha
    · rw [memWrite_error.2 ⟨Nat.lt_succ_self _, rfl⟩]
    · rw [(memWrite_noFront hfront).2 ⟨hlt, rfl⟩]
      exact ih (s := { s with mem := s.mem.writeBytes a (leBytes 1 b.toNat) }) hfront hlt (by simp only; omega)

/-! ### Strings (R50) -/

theorem bytesAt_add (m n a : Nat) (s : State) : bytesAt s a (m + n) = bytesAt s a m ++ bytesAt s (a + m) n := by
  simp [bytesAt, List.range_add, Function.comp_def, Nat.add_assoc]

theorem readEach_noFront (hfront : NoFront s) (hin : a + n ≤ s.cfg.memSize) :
    readEach pc0 n a s = .ok (bytesAt s a n, s) := by
  induction n generalizing a with
  | zero => rfl
  | succ n ih =>
    rw [readEach, memRead_noFront hfront (by omega), Nat.add_comm n 1, bytesAt_add]
    simp only [ih (a := a + 1) (by omega)]

/-- A length word and as many bytes in memory are read as those bytes. -/
theorem readString_noFront {text : List Byte} (hfront : NoFront s) (hlen : text.length < 2 ^ 32)
    (hin : a + 4 + text.length ≤ s.cfg.memSize)
    (h : bytesAt s a (4 + text.length) = leBytes 4 text.length ++ text) : readString pc0 a s = .ok (text, s) := by
  rw [bytesAt_add] at h
  obtain ⟨hlength, htext⟩ := List.append_inj h (by simp [bytesAt])
  have hvalue : leValue (bytesAt s a 4) = text.length := by
    rw [hlength, leValue_leBytes]
    exact Nat.mod_eq_of_lt hlen
  rw [readString, memRead_noFront hfront (by omega)]
  simp only [hvalue]
  rw [readEach_noFront hfront hin, htext]

end

/-- Settles O49: the interrupt operation by gate and handler; entered while halted, the dispatch never ends. -/
theorem hostInterruptOnAHaltedEngine : Obligations.HostInterruptOnAHaltedEngine := by
  intro s n k ⟨hhalted, hfault⟩ hdf
  refine ⟨fun hk hgate => ?_, fun hk hgate hnone => ?_, fun a hk hgate hhandler hroom hdepth => ?_, fun hk => ?_⟩
  · rw [hostInterrupt_of_next hfault hdf (interrupt_next.2 ⟨hk, .inl ⟨hgate, rfl⟩⟩)]
    exact runToDepth_done (by simp [hdf])
  · rw [hostInterrupt_of_next hfault hdf (interrupt_of_noHandler hk hgate hnone)]
    exact runToDepth_done (by simp [hdf])
  · have hnext := interrupt_of_handler (pc0 := s.pc) hk hgate hhandler (stackFull_eq_false.2 hroom)
      fun h => hdepth (eq_maxDepth_iff.1 h)
    have hrun := (hostInterrupt_of_next hfault hdf hnext).trans
      (runToDepth_resting (m := n) ⟨hhalted, hfault⟩ (by simp))
    exact ⟨_, hrun, hhalted, rfl, rfl, by simp [hdf, State.privileged, bitP]⟩
  · exact ⟨latch _ s, hostInterrupt_returned.2
      ⟨hfault, hdf, .inr ⟨_, interrupt_fault.2 (.inl ⟨hk, rfl⟩), rfl, rfl⟩⟩, rfl⟩

/-- Settles O50: Reset and construction set the same fields. -/
theorem hostResetEqualsConstruction : Obligations.HostResetEqualsConstruction :=
  fun _ => ⟨rfl, fun h _ => betweenSteps_allowed h⟩

/-- Settles O51: without a front the bytes written are the bytes read; between host steps and not inside a dispatch. -/
theorem hostWriteReadsBack : Obligations.HostWriteReadsBack := by
  refine ⟨fun a n v s t hfront h => ⟨hostMemRead_after_memWrite hfront h, ?_⟩,
    fun a n v k s t hfront h hbetween => ?_, fun a n v k w s hdf hf => ?_⟩
  · obtain ⟨hin, rfl⟩ := (memWrite_noFront hfront).1 h
    refine ⟨fun k hk => ?_, fun b hb => read_writeBytes_outside s.mem _ (by rwa [leBytes_length]), rfl⟩
    simp [Memory.read_writeBytes, leBytes_getElem? n v k hk]
  · have hread := hostMemRead_after_memWrite hfront h
    have hbetween' : betweenHostSteps t = true := by
      obtain ⟨-, rfl⟩ := (memWrite_noFront hfront).1 h
      exact hbetween
    constructor
    · rw [hostMove, betweenSteps_allowed hbetween, h]
    · rw [hostMove, betweenSteps_allowed hbetween', hread]
  · have hinside : betweenHostSteps s = false := by simp [betweenHostSteps, hdf, hf]
    exact ⟨betweenSteps_notAllowed hinside, betweenSteps_notAllowed hinside, betweenSteps_notAllowed hinside,
      betweenSteps_notAllowed hinside⟩

/-- Settles O52, by induction on the image: each byte is one write. -/
theorem loadedImageStandsAtZero : Obligations.LoadedImageStandsAtZero := by
  refine fun image s hfront => ⟨fun hle => ⟨_, loadBytes_inMemory hfront (by omega), rfl, ?_, fun a ha => ?_⟩,
    fun hlt => loadBytes_outside hfront (Nat.zero_le _) (by omega)⟩
  · exact map_read_writeBytes s.mem 0 image
  · exact read_writeBytes_outside s.mem image (by omega)

/-- Settles O53: the length word reads as the length, and then each byte by itself. -/
theorem readStringReturnsTheBytes : Obligations.ReadStringReturnsTheBytes := by
  intro s pc0 a text hfront hlen hin h
  have hread := readString_noFront (pc0 := pc0) hfront hlen hin h
  refine ⟨hread, fun ha => ?_⟩
  rw [fetchString, ← ha, hread]
  rfl

end Sys2Proof.Machine

/-! The frames: what each instruction leaves unchanged. -/

namespace Sys2Proof.Machine

section
variable {s t : State} {i : Instr} {ra rb n : Byte} {v : Word}

/-! ### Registers and flags after an update -/

theorem getD_set_frame (regs : List Word) (k : Nat) (v : Word) (j : Nat) :
    j = k ∨ (regs.set k v).getD j 0#64 = regs.getD j 0#64 := by
  by_cases h : j = k
  · exact .inl h
  · simp [List.getElem?_set_ne (Ne.symm h)]

theorem State.reg_setReg_of_ne {j k : Nat} (h : j ≠ k) : (s.setReg k v).reg j = s.reg j :=
  (getD_set_frame s.regs k v j).resolve_left h

theorem State.nreg_setReg (k : Nat) : (s.setReg k v).nreg = s.nreg := List.length_set ..

theorem getLsbD_setBit_frame (cw : Word) {m : Nat} (hm : m < 64) (b : Bool) (k : Nat) :
    k = m ∨ (setBit cw m b).getLsbD k = cw.getLsbD k := by
  rw [getLsbD_setBit _ _ _ _ hm]
  split
  · next h => exact .inl h
  · exact .inr rfl

/-- Compare changes bits 1 to 3 only (R17, R80). -/
theorem getLsbD_compareFlags_frame (cw a b : Word) (k : Nat) :
    (1 ≤ k ∧ k ≤ 3) ∨ (compareFlags cw a b).getLsbD k = cw.getLsbD k := by
  by_cases hk : 1 ≤ k ∧ k ≤ 3
  · exact .inl hk
  · have hne : k ≠ bitGT ∧ k ≠ bitLT ∧ k ≠ bitEQ := by
      simp only [bitEQ, bitLT, bitGT]
      omega
    simp [getLsbD_compareFlags, hne]

/-- What the register-only instructions do: a read perhaps, a write of the first register, and the advance. -/
theorem exec_writes_register {imm : Word}
    (hi : i ∈ [.movR64 ra imm, .movRR ra rb, .addRR ra rb, .addR64 ra imm, .subRR ra rb, .subR64 ra imm, .ld8RR ra rb,
      .ld32RR ra rb]) (h : exec i s = .next t) :
    ∃ u w m, SameButAnswers s u ∧ t = (u.setReg ra.toNat w).advance m := by
  simp only [List.mem_cons, List.not_mem_nil, or_false] at hi
  obtain rfl | rfl | rfl | rfl | rfl | rfl | rfl | rfl := hi
  · obtain ⟨-, rfl⟩ := exec_movR64_next.1 h
    exact ⟨s, _, _, .refl s, rfl⟩
  · obtain ⟨-, -, rfl⟩ := exec_movRR_next.1 h
    exact ⟨s, _, _, .refl s, rfl⟩
  · obtain ⟨-, -, rfl⟩ := exec_addRR_next.1 h
    exact ⟨s, _, _, .refl s, rfl⟩
  · obtain ⟨-, rfl⟩ := exec_addR64_next.1 h
    exact ⟨s, _, _, .refl s, rfl⟩
  · obtain ⟨-, -, rfl⟩ := exec_subRR_next.1 h
    exact ⟨s, _, _, .refl s, rfl⟩
  · obtain ⟨-, rfl⟩ := exec_subR64_next.1 h
    exact ⟨s, _, _, .refl s, rfl⟩
  · obtain ⟨-, -, -, rfl⟩ := loadSigned_next.1 (exec_ld8RR_next.1 h)
    exact ⟨_, _, _, readBytes_same .., rfl⟩
  · obtain ⟨-, -, -, rfl⟩ := loadSigned_next.1 (exec_ld32RR_next.1 h)
    exact ⟨_, _, _, readBytes_same .., rfl⟩

end

/-- Settles O54: a read changes answers and trace only, and the register write its register. -/
theorem registerInstructionFrame : Obligations.RegisterInstructionFrame := by
  intro s t i ra rb imm hi h
  obtain ⟨u, w, m, hsame, rfl⟩ := exec_writes_register hi h
  have hquiet : NoFront s → u.events = s.events ∧ u.env = s.env ∧ u.envCount = s.envCount := by
    intro hfront
    rw [hsame.noFront hfront]
    exact ⟨rfl, rfl, rfl⟩
  obtain ⟨events, env, count, rfl⟩ :
      ∃ events env count, u = { s with events := events, env := env, envCount := count } := ⟨_, _, _, hsame.same⟩
  exact ⟨fun j hj => State.reg_setReg_of_ne hj, State.nreg_setReg _, fun _ => rfl, rfl, rfl, rfl, rfl, rfl, rfl,
    fun _ => rfl, rfl, rfl, rfl, hquiet⟩

/-- Settles O55, by the instruction: each changes the fields that its meaning names. -/
theorem controlAndStackFrame : Obligations.ControlAndStackFrame := by
  intro s t i ra rb v hi h
  simp only [List.mem_cons, List.not_mem_nil, or_false] at hi
  obtain rfl | rfl | rfl | rfl | rfl | rfl | rfl | rfl | rfl | rfl := hi
  · obtain ⟨-, -, rfl⟩ := exec_cmpRR_next.1 h
    simpa [State.reg, State.nreg, State.flag] using getLsbD_compareFlags_frame s.cw _ _
  · obtain rfl := exec_jmp64_next.1 h
    simp [State.reg, State.nreg, State.flag]
  · obtain rfl := exec_je64_next.1 h
    split <;> simp [State.reg, State.nreg, State.flag]
  · obtain rfl := exec_jl64_next.1 h
    split <;> simp [State.reg, State.nreg, State.flag]
  · obtain rfl := exec_jg64_next.1 h
    split <;> simp [State.reg, State.nreg, State.flag]
  · obtain ⟨-, -, rfl⟩ := exec_call64_next.1 h
    simp [State.reg, State.nreg, State.flag]
  · obtain ⟨w, -, -, rfl⟩ := exec_ret_next.1 h
    simp [State.reg, State.nreg, State.flag]
  · obtain ⟨-, rfl⟩ := exec_push64_next.1 h
    simp [State.reg, State.nreg, State.flag]
  · obtain ⟨-, w, -, rfl⟩ := exec_popR_next.1 h
    simpa [State.reg, State.nreg, State.flag] using getD_set_frame s.regs ra.toNat w
  · obtain rfl := exec_halt_next.1 h
    simp [State.reg, State.nreg, State.flag]

/-- Settles O56, by the instruction: each changes the fields that its meaning names. -/
theorem portAndSystemFrame : Obligations.PortAndSystemFrame := by
  intro s t i ra rb n v hi h
  simp only [List.mem_cons, List.not_mem_nil, or_false] at hi
  obtain rfl | rfl | rfl | rfl | rfl | rfl | rfl := hi
  · obtain ⟨-, -, -, rfl⟩ := exec_outRR_next.1 h
    split <;> simp [State.reg, State.nreg, State.flag]
  · obtain ⟨-, -, -, rfl⟩ := exec_inRR_next.1 h
    split
    · simpa [State.reg, State.nreg, State.flag] using getD_set_frame s.regs ra.toNat s.answer
    · simpa [State.reg, State.nreg, State.flag] using getD_set_frame s.regs ra.toNat 0#64
  · obtain ⟨-, ⟨-, rfl⟩ | ⟨-, a, -, -, -, rfl⟩ | ⟨-, -, rfl⟩⟩ := interrupt_next.1 (exec_int8_next.1 h)
    · simp [State.reg, State.nreg, State.flag]
    · simpa [State.reg, State.nreg, State.flag, bitP] using getLsbD_setBit_frame s.cw (show bitP < 64 by decide) true
    · rw [wake_of_noHandler]
      simp [State.reg, State.nreg, State.flag]
  · obtain ⟨-, rfl⟩ := exec_setint8_64_next.1 h
    simp [State.reg, State.nreg, State.flag]
  · obtain ⟨-, hn, rfl⟩ := exec_setf8_next.1 h
    simpa [State.reg, State.nreg, State.flag] using getLsbD_setBit_frame s.cw (hn.trans_lt (by decide)) true
  · obtain ⟨-, hn, rfl⟩ := exec_clrf8_next.1 h
    simpa [State.reg, State.nreg, State.flag] using getLsbD_setBit_frame s.cw (hn.trans_lt (by decide)) false
  · obtain ⟨-, rfl⟩ := exec_reset_next.1 h
    simp [State.reg, State.nreg, State.flag]

end Sys2Proof.Machine

/-! The assembler: tokens (R130-R135), interning (R147), and the second pass (R145, R146, R148). -/

namespace Sys2Proof.Machine

/-! ### No token is empty -/

section
variable {lc : LexConfig} {m : LexMode} {cs : List Char} {ts : List Token} {t : Token}

theorem unescape_ne_nil {cs : List Char} (h : cs ≠ []) : unescape cs ≠ [] := by
  unfold unescape
  split <;> simp_all

theorem ne_nil_of_mem_endToken {p : List Char} (h : t ∈ endToken p) : t ≠ [] := by
  unfold endToken at h
  split at h
  · cases h
  · next hp =>
    obtain rfl := List.mem_singleton.1 h
    simpa using hp

theorem ne_nil_of_mem_lexNormal {p : List Char} {c : Char} (h : t ∈ (lexNormal lc p c).1) : t ≠ [] := by
  unfold lexNormal at h
  split at h
  · exact ne_nil_of_mem_endToken h
  · split at h
    · exact ne_nil_of_mem_endToken h
    · split at h
      · obtain h | h := List.mem_append.1 h
        · exact ne_nil_of_mem_endToken h
        · obtain rfl := List.mem_singleton.1 h
          exact List.cons_ne_nil c []
      · split at h
        · exact ne_nil_of_mem_endToken h
        · cases h

/-- A quoted token holds at least the quote that ends it. -/
theorem ne_nil_of_mem_lexChar {c : Char} (h : t ∈ (lexChar lc m c).1) : t ≠ [] := by
  cases m with
  | normal p => exact ne_nil_of_mem_lexNormal h
  | quote p =>
    rw [lexChar] at h
    split at h
    · exact List.mem_singleton.1 h ▸ unescape_ne_nil (by simp)
    · cases h
  | comment =>
    rw [lexChar] at h
    split at h
    · exact ne_nil_of_mem_lexNormal h
    · cases h

theorem ne_nil_of_mem_lexFrom (h : lexFrom lc m cs = .ok ts) (ht : t ∈ ts) : t ≠ [] := by
  induction cs generalizing m ts with
  | nil =>
    cases m with
    | normal p =>
      cases h
      exact ne_nil_of_mem_endToken ht
    | quote p => cases h
    | comment =>
      cases h
      cases ht
  | cons c cs ih =>
    obtain ⟨more, hrest, rfl⟩ := lexFrom_cons_ok.1 h
    obtain ht | ht := List.mem_append.1 ht
    · exact ne_nil_of_mem_lexChar ht
    · exact ih hrest ht

end

/-! ### Interning -/

section
variable {p q : Pass} {l : Literal} {name : Token}

theorem internLiteral_found (h : findInterned l p.data = some name) :
    internLiteral p l = .ok (p.emit (.addrOf name)) := by
  simp [internLiteral, h]

/-- What interning does when no equal entry stands in the data sequence: one label and the value are appended. -/
theorem internLiteral_fresh (h : findInterned l p.data = none) (hq : internLiteral p l = .ok q) :
    q = { p with
      text := p.text ++ [.addrOf (dataLabel p.nextData)]
      data := p.data ++ [.label (dataLabel p.nextData), .lit l]
      nextData := p.nextData + 1 } := by
  simp only [internLiteral, h] at hq
  split at hq
  · cases hq
  · exact (Except.ok.inj hq).symm

/-- An object that does not begin a label-and-value entry is passed over. -/
theorem findInterned_skip {o : Obj} {rest : List Obj} (h : ∀ n l' rest', o = .label n → rest ≠ .lit l' :: rest') :
    findInterned l (o :: rest) = findInterned l rest := by
  rw [findInterned]
  exact h

/-- An entry appended behind entries of other values is found. -/
theorem findInterned_append (data : List Obj) (h : findInterned l data = none) :
    findInterned l (data ++ [.label name, .lit l]) = some name := by
  induction data using findInterned.induct (l := l) with
  | case1 n rest => simp [findInterned] at h
  | case2 n l' rest hne ih =>
    rw [findInterned, if_neg hne] at h
    rw [List.cons_append, List.cons_append, findInterned, if_neg hne, ih h]
  | case3 o rest hshape ih =>
    have hskip : ∀ n l' rest', o = .label n → rest ++ [.label name, .lit l] ≠ .lit l' :: rest' := by
      intro n l' rest' ho heq
      cases rest with
      | nil => simp at heq
      | cons o' rest =>
        obtain ⟨rfl, -⟩ := List.cons.inj heq
        exact hshape n l' rest ho rfl
    rw [findInterned_skip hshape] at h
    rw [List.cons_append, findInterned_skip hskip, ih h]
  | case4 => simp [findInterned]

end

/-! ### The second pass -/

section
variable {all os xs ys : List Obj} {o : Obj} {image : List Byte}

theorem serialize_append_ok :
    serialize all (xs ++ ys) = .ok image ↔
      ∃ a b, serialize all xs = .ok a ∧ serialize all ys = .ok b ∧ image = a ++ b := by
  induction xs generalizing image with
  | nil => simp [serialize]
  | cons x xs ih =>
    simp only [List.cons_append, serialize_cons_ok, ih]
    constructor
    · rintro ⟨bs, -, hx, ⟨a, b, ha, hb, rfl⟩, rfl⟩
      exact ⟨bs ++ a, b, ⟨bs, a, hx, ha, rfl⟩, hb, (List.append_assoc ..).symm⟩
    · rintro ⟨-, b, ⟨bs, a, hx, ha, rfl⟩, hb, rfl⟩
      exact ⟨bs, a ++ b, hx, ⟨a, b, ha, hb, rfl⟩, List.append_assoc ..⟩

/-- The second pass writes as many bytes as the sizes say (R145). -/
theorem serialize_length (h : serialize all xs = .ok image) : image.length = objsSize xs := by
  induction xs generalizing image with
  | nil =>
    cases h
    rfl
  | cons x xs ih =>
    obtain ⟨bs, more, hx, hxs, rfl⟩ := serialize_cons_ok.1 h
    rw [List.length_append, objBytes_length hx, ih hxs, objsSize_cons]

/-- Each object's bytes stand at the summed size of the objects before it (R146). -/
theorem objBytes_at (h : serialize all os = .ok image) (hos : os = xs ++ o :: ys) :
    objBytes all o = .ok ((image.drop (objsSize xs)).take o.size) := by
  subst hos
  obtain ⟨a, b, ha, hb, rfl⟩ := serialize_append_ok.1 h
  obtain ⟨bs, more, ho, -, rfl⟩ := serialize_cons_ok.1 hb
  rw [← serialize_length ha, List.drop_left, ← objBytes_length ho, List.take_left, ho]

theorem objBytes_addrOf {name : Token} {before after : List Obj} (hfirst : .label name ∉ before)
    (hsize : objsSize before < 2 ^ 64) :
    objBytes (before ++ .label name :: after) (.addrOf name) = .ok (leBytes 8 (objsSize before)) := by
  have hoffset : labelOffset name 0 (before ++ .label name :: after) = some (objsSize before) :=
    labelOffset_eq_some.2 ⟨before, after, rfl, hfirst, (Nat.zero_add _).symm⟩
  simp only [objBytes, hoffset, addressValue, if_pos hsize]

/-- An address-of that has bytes has a label (R148). -/
theorem exists_label_of_objBytes {name : Token} {bs : List Byte} (h : objBytes os (.addrOf name) = .ok bs) :
    ∃ ahead behind, os = ahead ++ .label name :: behind ∧ .label name ∉ ahead := by
  rw [objBytes] at h
  split at h
  · next n hoffset =>
    obtain ⟨ahead, behind, hos, hfirst, -⟩ := labelOffset_eq_some.1 hoffset
    exact ⟨ahead, behind, hos, hfirst⟩
  · cases h

end

/-- Settles O57, by induction on the source: no character completes an empty token. -/
theorem tokensAreNonEmpty : Obligations.TokensAreNonEmpty := fun _ _ _ h _ => ne_nil_of_mem_lexFrom h

/-- Settles O58: the offset of a label is the size ahead of it, and the second pass needs one for each address-of. -/
theorem addressOfIsItsLabelsOffset : Obligations.AddressOfIsItsLabelsOffset := by
  refine ⟨fun name before after => objBytes_addrOf, fun name os before after hnone hos => ?_,
    fun lc src image h => ?_⟩
  · cases hser : serialize os os with
    | error e => exact ⟨e, rfl⟩
    | ok image =>
      obtain ⟨ahead, behind, hlabel, -⟩ := exists_label_of_objBytes (objBytes_at hser hos)
      exact absurd (hlabel ▸ List.mem_append_right _ (List.mem_cons_self ..)) hnone
  · obtain ⟨ts, p, hts, hp, hser⟩ := assembleWith_ok.1 h
    refine ⟨ts, p, hts, hp, fun name before after hos => ?_⟩
    have hbytes := objBytes_at hser hos
    obtain ⟨ahead, behind, hlabel, hfirst⟩ := exists_label_of_objBytes hbytes
    refine ⟨ahead, behind, hlabel, hfirst, fun hsize => ?_⟩
    have hoffset := objBytes_addrOf (after := behind) hfirst hsize
    rw [← hlabel, hbytes] at hoffset
    exact Except.ok.inj hoffset

/-- Settles O59: the text objects stand in the whole sequence as they do in the text, the data objects behind them. -/
theorem imageIsTheObjectsInOrder : Obligations.ImageIsTheObjectsInOrder := by
  refine ⟨fun os image h => ⟨serialize_length h, fun before after o => objBytes_at h⟩, fun lc src image h => ?_⟩
  obtain ⟨ts, p, hts, hp, hser⟩ := assembleWith_ok.1 h
  refine ⟨ts, p, hts, hp, (serialize_length hser).trans (objsSize_append ..), fun before after o htext => ?_,
    fun before after o hdata => ?_⟩
  · exact objBytes_at hser (ys := after ++ p.data) (by simp [htext])
  · rw [← objsSize_append]
    exact objBytes_at hser (ys := after) (by simp [hdata])

/-- Settles O60: the first interning leaves an entry that the second one finds. -/
theorem interningStoresEqualLiteralsOnce : Obligations.InterningStoresEqualLiteralsOnce := by
  intro p q r l hq hr
  cases hfind : findInterned l p.data with
  | some name =>
    rw [internLiteral_found hfind] at hq
    cases hq
    rw [internLiteral_found (p := p.emit (.addrOf name)) hfind] at hr
    cases hr
    exact ⟨rfl, rfl, ⟨name, rfl, rfl⟩, nofun⟩
  | none =>
    obtain rfl := internLiteral_fresh hfind hq
    rw [internLiteral_found (findInterned_append p.data hfind)] at hr
    cases hr
    exact ⟨rfl, rfl, ⟨dataLabel p.nextData, rfl, rfl⟩, fun _ => ⟨rfl, rfl⟩⟩

end Sys2Proof.Machine
